-- ==== Sys2Proof/Word.lean ====
section
/-! DEFINITION. The fixed-width words of the block (00_scope.md rules R6 and R7, section 3): bytes, half words,
32-bit words, 64-bit accumulators, and the byte strings that paths, names and command lines are. -/

namespace Sys2Proof

/-- One byte, the unit the memory is addressed in (20_memory.md rule R70). -/
abbrev Byte := BitVec 8

/-- A 16-bit value: the status register, a boot-record tag, the `B` field of a command word. -/
abbrev Half := BitVec 16

/-- A 32-bit value (`XLEN`, 00_scope.md section 3): a register, an address, a command word. -/
abbrev Word := BitVec 32

/-- A 64-bit accumulator (10_state.md rule R43). -/
abbrev Acc := BitVec 64

/-- A byte string: a path, a CPU-model name, a command line. -/
abbrev Bytes := List Byte

end Sys2Proof
end

