-- ==== Sys2Proof/Config.lean ====
section
/-! DEFINITION. What is fixed for one machine and is not changed by any command: the parameters of 00_scope.md
section 3, each as plain data, so that a state carries them and a claim about every state is a claim for every value
of them (rule R5). The one value the spec leaves to devices is the constant without a body at the end. -/

namespace Sys2Proof

/-- The feature names of 00_scope.md rule R2; `other` stands for `FEATURE_NAMES`, the rest of the enumeration. -/
inductive Feature where
  | m68000 | cfIsaA | cfIsaAplus | cfIsaB | cfIsaC | fpu | mmu | mac | emac | extAddr | mulDiv32 | mulDiv64 | bitfield
  | other (name : Bytes)
  deriving DecidableEq, Repr

/-- The direction of an access (20_memory.md rule R76). -/
inductive Dir where
  | read | write
  deriving DecidableEq, Repr

/-- The numbers from `lo` to `hi`, both included. -/
structure Span where
  lo : Nat
  hi : Nat
  deriving DecidableEq, Repr

/-- One line of the platform's part of `MemAccessOK`: an access of `width` bytes in direction `dir` whose first address
lies in `span` succeeds. Every predicate of an address, a width and a direction is a list of such lines. -/
structure AccessRule where
  span  : Span
  width : Nat
  dir   : Dir
  deriving DecidableEq, Repr

/-- One line of `XlateS` (20_memory.md rule R84): the addresses of `span` go to `target`, `target + 1`, and so on. Every function
from addresses to addresses is a list of such lines. -/
structure XlateRule where
  span : Span
  target : Word
  deriving DecidableEq, Repr

/-- `ROM_WRITE`: what a write to ROM after the load does (20_memory.md rule R78). -/
inductive RomWrite where
  | ignore | accessError
  deriving DecidableEq, Repr

/-- A successful answer of `LOADER.loadExecutable` (44_boot.md rule R231). -/
structure ExecImage where
  size    : Nat
  entry   : Word
  highest : Word
  segs    : List (Word × Bytes)
  deriving DecidableEq, Repr

/-- `LOADER`: the loader's answers by path; a path that a list does not hold is answered `Error` (44_boot.md rule R231). -/
structure Loader where
  executables : List (Bytes × ExecImage)
  imageSizes  : List (Bytes × Nat)
  rawImages   : List (Bytes × Bytes)
  deriving DecidableEq, Repr

/-- `BOOT_PROFILE`: the payloads of the identity and device records (44_boot.md rule R243); `videoRowStride` absent takes
the default `(VIDEO_WIDTH * VIDEO_DEPTH + 7) div 8`. -/
structure BootProfile where
  machineType     : Word
  fpuType         : Word
  mmuType         : Word
  cpuType         : Word
  platformCpuId   : Word
  platformModelId : Word
  videoAddr       : Word
  videoDepth      : Word
  videoWidth      : Word
  videoHeight     : Word
  videoRowStride  : Option Word
  serialBase      : Word
  deriving DecidableEq, Repr

/-- `BI_TAG_*`: the record tags, with the defaults of 44_boot.md rule R246. -/
structure BootTags where
  last          : Half := 0x0000
  machType      : Half := 0x0001
  cpuType       : Half := 0x0002
  fpuType       : Half := 0x0003
  mmuType       : Half := 0x0004
  memChunk      : Half := 0x0005
  ramDisk       : Half := 0x0006
  commandLine   : Half := 0x0007
  platformModel : Half := 0x8000
  videoAddr     : Half := 0x8001
  videoDepth    : Half := 0x8002
  videoRow      : Half := 0x8003
  videoDim      : Half := 0x8004
  serialBase    : Half := 0x8006
  memSizeMb     : Half := 0x8009
  platformCpuId : Half := 0x800A
  deriving DecidableEq, Repr

/-- The configuration of one machine: `FEATURES` and the parameters of 00_scope.md section 3 (rules R2, R5 and
10_state.md rule R21). -/
structure Config where
  features      : List Feature
  initialSr     : Half
  resetLoadsSsp : Bool
  fpBits        : Nat
  romBase       : Word
  romSize       : Nat
  romWrite      : RomWrite
  access        : List AccessRule
  xlate         : List XlateRule
  hostAlloc     : List Span
  profile       : BootProfile
  tags          : BootTags
  loader        : Loader
  kernelPath    : Option Bytes
  cmdline       : Option Bytes
  initrdPath    : Option Bytes
  romPath       : Bytes
  deriving DecidableEq, Repr

/-- One entry of the CPU-model table: a name resolves to a feature set and an initial status register
(44_boot.md rule R252); a model that gives none takes 0x2700 (00_scope.md section 3). -/
structure CpuModel where
  name      : Bytes
  features  : List Feature
  initialSr : Option Half
  deriving DecidableEq, Repr

/-- What construction is given (10_state.md rule R49, 44_boot.md rule R252): the configured model name if any,
`DEFAULT_CPU_MODEL`, the model table, and the machine's other parameters (the model found supplies `features` and
`initialSr`). -/
structure Setup where
  cpuModel        : Option Bytes
  defaultCpuModel : Bytes
  models          : List CpuModel
  machine         : Config
  deriving DecidableEq, Repr

/-- `INITIAL_SR` when the model gives none (00_scope.md section 3). -/
def Config.defaultInitialSr : Half := 0x2700

/-- `PAGE_SIZE`, the unit of initrd placement (00_scope.md section 3). -/
def Config.pageSize : Nat := 4096

/-- `RESET_VECTOR_ADDR` (00_scope.md section 3). -/
def Config.resetVectorAddr : Word := 4

/-- `RTE_FORMATS`: the frame formats RTE accepts (00_scope.md section 3). -/
def Config.rteFormats : List (BitVec 4) := [0]

/-- The configuration the reset state carries. DESIGN CHOICE, log entry 3: the spec leaves these parameters open; no
statement rests on their values here. -/
def Config.initial : Config where
  features := []
  initialSr := Config.defaultInitialSr
  resetLoadsSsp := true
  fpBits := 80
  romBase := 0x40000000
  romSize := 0x00100000
  romWrite := .ignore
  access := []
  xlate := []
  hostAlloc := [⟨0, 0xFFFFFFFF⟩]
  profile :=
    { machineType := 0, fpuType := 0, mmuType := 0, cpuType := 0, platformCpuId := 0, platformModelId := 0,
      videoAddr := 0, videoDepth := 0, videoWidth := 0, videoHeight := 0, videoRowStride := none, serialBase := 0 }
  tags := { last := 0x0000 }
  loader := { executables := [], imageSizes := [], rawImages := [] }
  kernelPath := none
  cmdline := none
  initrdPath := none
  romPath := []

/-- The setup the reset state is constructed from: a model table of one classic model with FPU and MMU, chosen by
default. DESIGN CHOICE, log entry 3. -/
def Setup.initial : Setup where
  cpuModel := none
  defaultCpuModel := []
  models := [{ name := [], features := [.m68000, .fpu, .mmu], initialSr := none }]
  machine := Config.initial

/-- FREE VALUE (log entry 6): what the platform answers for the byte at an address outside RAM and ROM in the `draw`-th
memory read of the machine, when it accepts the access (20_memory.md rule R79: the block fixes nothing about it). -/
opaque Config.platformByte : (draw : Nat) → (addr : Word) → Byte

end Sys2Proof
end

