-- ==== Sys2Proof/Syntax.lean ====
section
/-! DEFINITION. The commands of the block as syntax: one constructor of `Instr` for each row of the opcode map
(30_encoding.md rule R104), and the closed sets its fields range over. -/

namespace Sys2Proof

/-- The operand widths of the condition-code kinds (41_condition_codes.md rule R150). -/
inductive Width where
  | byte | word | long
  deriving DecidableEq, Repr

/-- The kinds of condition-code derivation (41_condition_codes.md rule R150). -/
inductive CcKind where
  | flags
  | logic (w : Width)
  | add (w : Width)
  | sub (w : Width)
  | addx (w : Width)
  | subx (w : Width)
  | shift (w : Width)
  deriving DecidableEq, Repr

/-- The exception kinds that have a code (60_exceptions.md rule R280); the interrupt, which RAISE cannot name, is not one of
them. -/
inductive Kind where
  | reset | access | address | illegal | div0 | chk | privilege | trace | lineA | lineF | format | uninitialized
  | trap (n : Fin 16)
  | unsupported
  deriving DecidableEq, Repr

/-- The three saved stack-pointer slots (10_state.md rule R33). -/
inductive SpSlot where
  | supervisor | user | interrupt
  deriving DecidableEq, Repr

/-- The commands (30_encoding.md rule R104). A `urid` or a `crid` is any 16-bit number: one that names no register still
spells a command, which raises ILLEGAL (rule R109). `wrFp` carries the value of its operand words, `wrUr` the value of its
one or two operand words. -/
inductive Instr where
  | rdD (n : Fin 8)
  | wrD (n : Fin 8) (v : Word)
  | rdA (n : Fin 8)
  | wrA (n : Fin 8) (v : Word)
  | rdPc
  | wrPc (v : Word)
  | rdSr
  | wrSr (v : Word)
  | rdCcr
  | wrCcr (v : Word)
  | rdSp (k : SpSlot)
  | wrSp (k : SpSlot) (v : Word)
  | rdFp (n : Fin 8)
  | wrFp (n : Fin 8) (v : Nat)
  | rdUr (urid : Half)
  | wrUr (urid : Half) (v : Acc)
  | ccSet (kind : CcKind) (x : Bool) (dest src : Word)
  | ccFlags
  | ctx
  | rdCr (crid : Half)
  | wrCr (crid : Half) (v : Word)
  | intPend (level : BitVec 3) (vector : Byte)
  | intCheck
  | raise (kind : Kind) (retpc : Word)
  | rte
  | mapRam (size : Word)
  | bootKernel
  | bootRom
  | coldStart
  deriving DecidableEq, Repr

/-! ## Pseudo-commands (30_encoding.md rule R113): other spellings of commands, not commands of their own -/

/-- `RD_USP`. -/
abbrev Instr.rdUsp : Instr := .rdSp .user

/-- `WR_USP v`. -/
abbrev Instr.wrUsp (v : Word) : Instr := .wrSp .user v

/-- `RD_VBR`. -/
abbrev Instr.rdVbr : Instr := .rdCr 0x002

/-- `WR_VBR v`. -/
abbrev Instr.wrVbr (v : Word) : Instr := .wrCr 0x002 v

/-- `TRAP n, retpc`. -/
abbrev Instr.trap (n : Fin 16) (retpc : Word) : Instr := .raise (.trap n) retpc

/-- `CLR_PENDING`. -/
abbrev Instr.clrPending : Instr := .intPend 0 0

/-- `MOVE_TO_CCR v`. -/
abbrev Instr.moveToCcr (v : Word) : Instr := .wrCcr v

end Sys2Proof
end

