-- ==== Sys2Proof/WellFormed.lean ====
section
/-! DEFINITION. The checks on a command that its fields' types do not make (30_encoding.md rules R102, R108 (f) and
R111). -/

namespace Sys2Proof

/-- Whether a unit-register number names an accumulator, whose value is two words (30_encoding.md rule R111). -/
def isAccNumber (urid : Half) : Bool :=
  decide (0x18 ≤ urid.toNat) && decide (urid.toNat ≤ 0x1B)

/-- A command is well-formed on a machine whose floating-point registers are `fpBits` wide when a WR_FP value fits in them
(rule R108 (f)) and a WR_UR value of a register that takes one operand word fits in that word (rule R111). -/
def Instr.wellFormed (fpBits : Nat) : Instr → Bool
  | .wrFp _ v => decide (v < 2 ^ fpBits)
  | .wrUr urid v => isAccNumber urid || decide (v.toNat < 2 ^ 32)
  | .rdD _ | .wrD _ _ | .rdA _ | .wrA _ _ | .rdPc | .wrPc _ | .rdSr | .wrSr _ | .rdCcr | .wrCcr _ | .rdSp _ | .wrSp _ _
  | .rdFp _ | .rdUr _ | .ccSet _ _ _ _ | .ccFlags | .ctx | .rdCr _ | .wrCr _ _ | .intPend _ _ | .intCheck | .raise _ _
  | .rte | .mapRam _ | .bootKernel | .bootRom | .coldStart => true

end Sys2Proof
end

