-- ==== Sys2Proof/Decode.lean ====
section
/-! DEFINITION. The command encoding (30_encoding.md): the fields of a command word, the decoder (total on any list of
words, rejecting by name), the encoder written from the same tables, and the reading of a word as spec/opcode_table.json
numbers its bits. Here too stand the byte-order helpers: a value as digits, the most significant first. -/

namespace Sys2Proof

/-- The low `k * w` bits of `v` as `k` digits of `w` bits, the most significant first (20_memory.md rule R72 for bytes,
30_encoding.md rule R102 for words). -/
def splitDigits (w : Nat) : Nat → Nat → List (BitVec w)
  | 0, _ => []
  | k + 1, v => BitVec.ofNat w (v >>> (w * k)) :: splitDigits w k v

/-- The number whose digits are `ds`, the most significant first. -/
def joinDigits (w : Nat) : List (BitVec w) → Nat
  | [] => 0
  | d :: ds => d.toNat * 2 ^ (w * ds.length) + joinDigits w ds

/-- `F`, the words of one floating-point register (30_encoding.md rule R104). -/
def fpWords (fpBits : Nat) : Nat := (fpBits + 31) / 32

/-! ## Fields of a command word (rule R101) -/

/-- The `OP` field, bits 31:24. -/
def opField (w : Word) : Byte := w.extractLsb' 24 8

/-- The `A` field, bits 23:16. -/
def aField (w : Word) : Byte := w.extractLsb' 16 8

/-- The `B` field, bits 15:0. -/
def bField (w : Word) : Half := w.extractLsb' 0 16

/-- The command word with the given fields: `OP || A || B`. -/
def commandWord (op a : Byte) (b : Half) : Word := op ++ a ++ b

/-! ## Codes of the closed sets -/

/-- The position of a width in its group of condition-code kinds (41_condition_codes.md rule R150). -/
def Width.index : Width → Nat
  | .byte => 0
  | .word => 1
  | .long => 2

/-- The kind code (41_condition_codes.md rule R150). -/
def CcKind.code : CcKind → Nat
  | .flags => 0
  | .logic w => 1 + w.index
  | .add w => 4 + w.index
  | .sub w => 7 + w.index
  | .addx w => 10 + w.index
  | .subx w => 13 + w.index
  | .shift w => 16 + w.index

/-- The kind with a code; the codes 19 to 255 are reserved (41_condition_codes.md rule R167). -/
def CcKind.ofCode : Nat → Option CcKind
  | 0 => some .flags
  | 1 => some (.logic .byte)
  | 2 => some (.logic .word)
  | 3 => some (.logic .long)
  | 4 => some (.add .byte)
  | 5 => some (.add .word)
  | 6 => some (.add .long)
  | 7 => some (.sub .byte)
  | 8 => some (.sub .word)
  | 9 => some (.sub .long)
  | 10 => some (.addx .byte)
  | 11 => some (.addx .word)
  | 12 => some (.addx .long)
  | 13 => some (.subx .byte)
  | 14 => some (.subx .word)
  | 15 => some (.subx .long)
  | 16 => some (.shift .byte)
  | 17 => some (.shift .word)
  | 18 => some (.shift .long)
  | _ => none

/-- The code of an exception kind, which is its vector number (60_exceptions.md rule R280). -/
def Kind.code : Kind → Nat
  | .reset => 0
  | .access => 2
  | .address => 3
  | .illegal => 4
  | .div0 => 5
  | .chk => 6
  | .privilege => 8
  | .trace => 9
  | .lineA => 10
  | .lineF => 11
  | .format => 14
  | .uninitialized => 15
  | .trap n => 32 + n.val
  | .unsupported => 61

/-- The kind RAISE names by a code (30_encoding.md rule R106). -/
def Kind.ofCode (c : Nat) : Option Kind :=
  match c with
  | 0 => some .reset
  | 2 => some .access
  | 3 => some .address
  | 4 => some .illegal
  | 5 => some .div0
  | 6 => some .chk
  | 8 => some .privilege
  | 9 => some .trace
  | 10 => some .lineA
  | 11 => some .lineF
  | 14 => some .format
  | 15 => some .uninitialized
  | 61 => some .unsupported
  | c => if h : c - 32 < 16 then (if 32 ≤ c then some (.trap ⟨c - 32, h⟩) else none) else none

/-- The number of a stack-pointer slot (10_state.md rule R33). -/
def SpSlot.code : SpSlot → Nat
  | .supervisor => 0
  | .user => 1
  | .interrupt => 2

/-- The slot with a number; there is no slot 3 (30_encoding.md rule R104). -/
def SpSlot.ofCode : Nat → Option SpSlot
  | 0 => some .supervisor
  | 1 => some .user
  | 2 => some .interrupt
  | _ => none

/-! ## Decoding -/

/-- Why a list of words spells no command. `noWord` and `missingOperands` say that the words end too early; the others are
the cases of 30_encoding.md rule R108 that the words alone decide. -/
inductive DecodeError where
  /-- There is no command word. -/
  | noWord
  /-- The list ends before the last operand word. -/
  | missingOperands
  /-- (a) `OP` is not in the table. -/
  | unassignedOp
  /-- (b) `A` is outside its range, or not 0 where the command uses no `A`. -/
  | badA
  /-- (c) `B` is not 0 where the command uses none, or has a bit that must be 0 set. -/
  | badB
  /-- (b) `A` of CC_SET is a reserved kind code (41_condition_codes.md rule R167). -/
  | reservedCcKind
  /-- (d) `A` of RAISE is no kind code. -/
  | badRaiseKind
  /-- (f) A bit of a WR_FP operand above the register is set. -/
  | fpHighBits
  deriving DecidableEq, Repr

/-- A register index: `A` in 0..7. -/
def regIndex (a : Byte) : Except DecodeError (Fin 8) :=
  if h : a.toNat < 8 then .ok ⟨a.toNat, h⟩ else .error .badA

/-- `A` unused. -/
def noA (a : Byte) : Except DecodeError Unit := if a = 0 then .ok () else .error .badA

/-- `B` unused. -/
def noB (b : Half) : Except DecodeError Unit := if b = 0 then .ok () else .error .badB

/-- One operand word, used whole (rule R102). -/
def operand : List Word → Except DecodeError (Word × List Word)
  | [] => .error .missingOperands
  | v :: rest => .ok (v, rest)

/-- `k` operand words, the most significant first, as one number (rule R102). -/
def operands (k : Nat) (ws : List Word) : Except DecodeError (Nat × List Word) :=
  if k ≤ ws.length then .ok (joinDigits 32 (ws.take k), ws.drop k) else .error .missingOperands

/-- The number of operand words of WR_UR (rule R111). -/
def unitWords (urid : Half) : Nat := if isAccNumber urid then 2 else 1

/-- A command that uses neither field and has no operand. -/
def plain (i : Instr) (a : Byte) (b : Half) (rest : List Word) : Except DecodeError (Instr × List Word) := do
  noA a
  noB b
  .ok (i, rest)

/-- A command that uses neither field and has one operand word. -/
def plainOperand (i : Word → Instr) (a : Byte) (b : Half) (rest : List Word) :
    Except DecodeError (Instr × List Word) := do
  noA a
  noB b
  let (v, rest) ← operand rest
  .ok (i v, rest)

/-- The slot number in `A`. -/
def slotField (a : Byte) : Except DecodeError SpSlot :=
  match SpSlot.ofCode a.toNat with
  | some k => .ok k
  | none => .error .badA

/-- The opcode map (rule R104): the command that the fields and the words after them spell, and the words left. -/
def decodeFields (fpBits : Nat) (op a : Byte) (b : Half) (rest : List Word) : Except DecodeError (Instr × List Word) :=
  match op.toNat with
  | 0x01 => do
    let n ← regIndex a
    noB b
    .ok (.rdD n, rest)
  | 0x02 => do
    let n ← regIndex a
    noB b
    let (v, rest) ← operand rest
    .ok (.wrD n v, rest)
  | 0x03 => do
    let n ← regIndex a
    noB b
    .ok (.rdA n, rest)
  | 0x04 => do
    let n ← regIndex a
    noB b
    let (v, rest) ← operand rest
    .ok (.wrA n v, rest)
  | 0x05 => plain .rdPc a b rest
  | 0x06 => plainOperand .wrPc a b rest
  | 0x07 => plain .rdSr a b rest
  | 0x08 => plainOperand .wrSr a b rest
  | 0x09 => plain .rdCcr a b rest
  | 0x0A => plainOperand .wrCcr a b rest
  | 0x0B => do
    let k ← slotField a
    noB b
    .ok (.rdSp k, rest)
  | 0x0C => do
    let k ← slotField a
    noB b
    let (v, rest) ← operand rest
    .ok (.wrSp k v, rest)
  | 0x0D => do
    let n ← regIndex a
    noB b
    .ok (.rdFp n, rest)
  | 0x0E => do
    let n ← regIndex a
    noB b
    let (v, rest) ← operands (fpWords fpBits) rest
    if v < 2 ^ fpBits then .ok (.wrFp n v, rest) else .error .fpHighBits
  | 0x0F => do
    noA a
    .ok (.rdUr b, rest)
  | 0x10 => do
    noA a
    let (v, rest) ← operands (unitWords b) rest
    .ok (.wrUr b (BitVec.ofNat 64 v), rest)
  | 0x20 =>
    match CcKind.ofCode a.toNat with
    | none => .error .reservedCcKind
    | some kind =>
      if b.toNat < 2 then do
        let (dest, rest) ← operand rest
        let (src, rest) ← operand rest
        .ok (.ccSet kind (b.getLsbD 0) dest src, rest)
      else .error .badB
  | 0x21 => plain .ccFlags a b rest
  | 0x30 => plain .ctx a b rest
  | 0x31 => do
    noA a
    .ok (.rdCr b, rest)
  | 0x32 => do
    noA a
    let (v, rest) ← operand rest
    .ok (.wrCr b v, rest)
  | 0x40 =>
    if a.toNat < 8 then
      if b.toNat < 256 then .ok (.intPend (a.setWidth 3) (b.setWidth 8), rest) else .error .badB
    else .error .badA
  | 0x41 => plain .intCheck a b rest
  | 0x42 =>
    match Kind.ofCode a.toNat with
    | none => .error .badRaiseKind
    | some kind => do
      noB b
      let (v, rest) ← operand rest
      .ok (.raise kind v, rest)
  | 0x43 => plain .rte a b rest
  | 0x50 => plainOperand .mapRam a b rest
  | 0x51 => plain .bootKernel a b rest
  | 0x52 => plain .bootRom a b rest
  | 0x53 => plain .coldStart a b rest
  | _ => .error .unassignedOp

/-- The decoder: the command that the first words of a list spell, and the words after it (rule R111). -/
def decode (fpBits : Nat) : List Word → Except DecodeError (Instr × List Word)
  | [] => .error .noWord
  | w :: rest => decodeFields fpBits (opField w) (aField w) (bField w) rest

/-! ## Encoding -/

/-- The `OP` code of a command (rule R104). -/
def Instr.op : Instr → Byte
  | .rdD _ => 0x01
  | .wrD _ _ => 0x02
  | .rdA _ => 0x03
  | .wrA _ _ => 0x04
  | .rdPc => 0x05
  | .wrPc _ => 0x06
  | .rdSr => 0x07
  | .wrSr _ => 0x08
  | .rdCcr => 0x09
  | .wrCcr _ => 0x0A
  | .rdSp _ => 0x0B
  | .wrSp _ _ => 0x0C
  | .rdFp _ => 0x0D
  | .wrFp _ _ => 0x0E
  | .rdUr _ => 0x0F
  | .wrUr _ _ => 0x10
  | .ccSet _ _ _ _ => 0x20
  | .ccFlags => 0x21
  | .ctx => 0x30
  | .rdCr _ => 0x31
  | .wrCr _ _ => 0x32
  | .intPend _ _ => 0x40
  | .intCheck => 0x41
  | .raise _ _ => 0x42
  | .rte => 0x43
  | .mapRam _ => 0x50
  | .bootKernel => 0x51
  | .bootRom => 0x52
  | .coldStart => 0x53

/-- The `A` field of a command (rule R104); 0 where it uses none. -/
def Instr.a : Instr → Byte
  | .rdD n | .wrD n _ | .rdA n | .wrA n _ | .rdFp n | .wrFp n _ => BitVec.ofNat 8 n.val
  | .rdSp k | .wrSp k _ => BitVec.ofNat 8 k.code
  | .ccSet kind _ _ _ => BitVec.ofNat 8 kind.code
  | .intPend level _ => level.setWidth 8
  | .raise kind _ => BitVec.ofNat 8 kind.code
  | .rdPc | .wrPc _ | .rdSr | .wrSr _ | .rdCcr | .wrCcr _ | .rdUr _ | .wrUr _ _ | .ccFlags | .ctx | .rdCr _ | .wrCr _ _
  | .intCheck | .rte | .mapRam _ | .bootKernel | .bootRom | .coldStart => 0

/-- The `B` field of a command (rule R104); 0 where it uses none. -/
def Instr.b : Instr → Half
  | .rdUr urid | .wrUr urid _ => urid
  | .rdCr crid | .wrCr crid _ => crid
  | .ccSet _ x _ _ => (BitVec.ofBool x).setWidth 16
  | .intPend _ vector => vector.setWidth 16
  | .rdD _ | .wrD _ _ | .rdA _ | .wrA _ _ | .rdPc | .wrPc _ | .rdSr | .wrSr _ | .rdCcr | .wrCcr _ | .rdSp _ | .wrSp _ _
  | .rdFp _ | .wrFp _ _ | .ccFlags | .ctx | .intCheck | .raise _ _ | .rte | .mapRam _ | .bootKernel | .bootRom
  | .coldStart => 0

/-- The operand words of a command (rules R102 and R104). -/
def Instr.operandWords (fpBits : Nat) : Instr → List Word
  | .wrD _ v | .wrA _ v | .wrPc v | .wrSr v | .wrCcr v | .wrSp _ v | .wrCr _ v | .raise _ v | .mapRam v => [v]
  | .wrFp _ v => splitDigits 32 (fpWords fpBits) v
  | .wrUr urid v => splitDigits 32 (unitWords urid) v.toNat
  | .ccSet _ _ dest src => [dest, src]
  | .rdD _ | .rdA _ | .rdPc | .rdSr | .rdCcr | .rdSp _ | .rdFp _ | .rdUr _ | .ccFlags | .ctx | .rdCr _ | .intPend _ _
  | .intCheck | .rte | .bootKernel | .bootRom | .coldStart => []

/-- The words of a command: its command word, then its operand words (rule R101). -/
def encode (fpBits : Nat) (i : Instr) : List Word :=
  commandWord i.op i.a i.b :: i.operandWords fpBits

/-! ## The opcode table's numbering -/

/-- The number of operand words that follow a command word (rule R111); none for a word that is in no row of rule R104. -/
def operandCount (fpBits : Nat) (w : Word) : Nat :=
  match (opField w).toNat with
  | 0x02 | 0x04 | 0x06 | 0x08 | 0x0A | 0x0C | 0x32 | 0x42 | 0x50 => 1
  | 0x0E => fpWords fpBits
  | 0x10 => unitWords (bField w)
  | 0x20 => 2
  | _ => 0

/-- The words of the command whose bits are `w`, numbered as the opcode table numbers them: bit 0 is the least significant
bit of the command word, each later word's bits count on, and every bit from `nbits` up is 0. -/
def tableWords (fpBits nbits w : Nat) : List Word :=
  let v := w % 2 ^ nbits
  let head := BitVec.ofNat 32 v
  head :: (List.range (operandCount fpBits head)).map fun k => BitVec.ofNat 32 (v >>> (32 * (k + 1)))

/-- The command the decoder reads from an instruction whose bits are `w`, on the machine the reset state carries. -/
def decodeTableWord (nbits w : Nat) : Option Instr :=
  match decode Config.initial.fpBits (tableWords Config.initial.fpBits nbits w) with
  | .ok (i, _) => some i
  | .error _ => none

end Sys2Proof
end

