-- ==== Sys2Proof/Machine/State.lean ====
section
/-! DEFINITION. The state of the block (10_state.md rule R20) as plain data, the reasons a command has no next state, and
the state construction leaves (rules R48 and R51). -/

namespace Sys2Proof.Machine

/-- The memory: the bytes that are not `blankByte`, at strictly rising addresses. -/
abbrev Memory := List Host.Cell

/-- What an address that `Memory` does not list holds. DESIGN CHOICE, log entry 7: the initial contents are a draw
(20_memory.md rule R82), and the draw is the memory construction is given. -/
def blankByte : Byte := 0

/-- The canonical form of a memory: addresses below 2^32 (20_memory.md rule R70), strictly rising, and no entry equal to
what an unlisted address holds. -/
def Memory.wf : Memory → Bool
  | [] => true
  | (k, v) :: m =>
    decide (k < 2 ^ 32) && decide (v ≠ blankByte) &&
      (match m with
        | [] => true
        | (k', _) :: _ => decide (k < k')) && Memory.wf m

/-- RAM or ROM (44_boot.md rule R232). -/
inductive RegionKind where
  | ram | rom
  deriving DecidableEq, Repr

/-- One mapped region: `size` bytes from `base`; `readOnly` is set by `setReadOnly` (44_boot.md rule R232). -/
structure Region where
  kind     : RegionKind
  base     : Word
  size     : Nat
  readOnly : Bool
  deriving DecidableEq, Repr

/-- The states of the boot sequencer (10_state.md rule R47). -/
inductive BootState where
  | idle | ramMapped | kernelBootPrepared | romMapped | ready | running
  deriving DecidableEq, Repr

/-- The fatal reasons (44_boot.md rule R250). -/
inductive FatalReason where
  | unknownModel (name : Bytes)
  | ramAllocation (size : Word)
  | kernelLoad (path : Bytes)
  | initrdLoad (path : Bytes)
  | romLoad (path : Bytes)
  | bootWrite (addr : Word)
  deriving DecidableEq, Repr

/-- The outcome of the last command that had a step (00_scope.md rule R11), kept in the state because a step answers only
a state: the result words, the exception taken, a fatal error, or a halt. Log entry 2. -/
inductive Reply where
  | done (results : List Word)
  | exception (vector : Byte)
  | fatal (reason : FatalReason)
  | halted
  deriving DecidableEq, Repr

/-- The stack-pointer slots (10_state.md rule R33). -/
structure SpSlots where
  supervisor : Word
  user       : Word
  interrupt  : Word
  deriving DecidableEq, Repr

/-- The state: the components of 10_state.md rule R20, then the model's own fields (the configuration, log entry 3; the
commands issued and not yet performed, log entry 1; the last outcome, log entry 2; the count of memory reads, log
entry 6). -/
structure State where
  /-- `D[0..7]` (rule R22). -/
  d : Vector Word 8
  /-- `A[0..7]`; `A[7]` is the live stack pointer (rule R23). -/
  a : Vector Word 8
  /-- `PC` (rule R24). -/
  pc : Word
  /-- Bits 15:8 of the status register (rule R26). -/
  srHi : Byte
  /-- The condition-code record (rule R32). -/
  ccOp : CcKind
  ccDest : Word
  ccSrc : Word
  ccX : Bool
  /-- `SPslot[0..2]`; the live one is stale (rules R33 and R35). -/
  spSlots : SpSlots
  /-- The live slot (rule R34). -/
  currentSp : SpSlot
  /-- The function-code registers (rule R40). -/
  sfc : BitVec 3
  dfc : BitVec 3
  /-- The vector base register (rule R41). -/
  vbr : Word
  /-- `FP[0..7]` as bit patterns (rule R42). -/
  fp : Vector Nat 8
  fpcr : Word
  fpsr : Word
  /-- The MAC unit's registers (rule R43). -/
  acc : Vector Acc 4
  macMask : Word
  macsr : Word
  /-- The pending interrupt (rule R44). -/
  pendingLevel : BitVec 3
  pendingVector : Byte
  /-- The MMU registers: `ROOT[c]`, `TTR[c][j]`, `TCR`, `MMUSR` (rule R45). -/
  root : Vector Word 2
  ttr : Vector (Vector Word 4) 2
  tcr : Word
  mmusr : Word
  /-- Set by a double fault (rule R46). -/
  halted : Bool
  /-- The boot sequencer's state and its fatal error (rule R47). -/
  bootState : BootState
  fatal : Option FatalReason
  /-- The memory and its address map, the latest mapping first (20_memory.md rules R77 and R78). -/
  mem : Memory
  regions : List Region
  ramSize : Word
  /-- The machine's configuration; no command writes it (rule R21). -/
  cfg : Config
  /-- The words of the commands issued and not yet performed, in the order issued (30_encoding.md rule R100). -/
  inbox : List Word
  /-- The outcome of the last command (00_scope.md rule R11). -/
  reply : Reply
  /-- How many memory reads the block has made; it selects the free value of a platform read. -/
  reads : Nat
  deriving DecidableEq, Repr

/-- Why the block has no step. -/
inductive Fault where
  /-- Raised by every command once `fatal` is set: the outcome is `Fatal` (10_state.md rule R47). Safe. -/
  | fatal (reason : FatalReason)
  /-- Raised by every command but COLD_START and INT_PEND while the block is halted (rule R46). Safe. -/
  | halted
  /-- Raised by every command of the engine before COLD_START (40_register_file.md rule R138 check 2). Safe. -/
  | notRunning (state : BootState)
  /-- Raised by the step when no command has been issued (70_reset_and_hazards.md rule R341). Safe. -/
  | noCommand
  /-- Raised by the step when the words issued end inside a command (30_encoding.md rule R111). Safe. -/
  | awaitingOperands
  deriving DecidableEq, Repr

/-- Why a command is refused (00_scope.md rule R11 (e)): the model has no meaning for it. What becomes of its words is log
entry 24. -/
inductive Refusal where
  /-- Raised by the dispatch for an instruction that has no meaning yet. Safe. -/
  | notModelled (mnemonic : String)
  /-- Raised by the step for words that spell no command (30_encoding.md rule R108 (a) to (d), (f)). Safe. -/
  | encoding (reason : DecodeError)
  /-- Raised by a boot command in a boot state that does not accept it (30_encoding.md rule R108 (e)). Safe. -/
  | bootState (state : BootState)
  /-- Raised by BOOT_KERNEL without a kernel path and by BOOT_ROM with one (44_boot.md rules R234 and R247). Safe. -/
  | bootPath
  deriving DecidableEq, Repr

/-- Every component at its construction value (10_state.md rules R48 and R51), with the given configuration and memory
contents. -/
def State.zeroed (cfg : Config) (mem : Memory) : State where
  d := Vector.replicate 8 0
  a := Vector.replicate 8 0
  pc := 0
  srHi := 0
  ccOp := .flags
  ccDest := 0
  ccSrc := 0
  ccX := false
  spSlots := ⟨0, 0, 0⟩
  currentSp := .user
  sfc := 0
  dfc := 0
  vbr := 0
  fp := Vector.replicate 8 0
  fpcr := 0
  fpsr := 0
  acc := Vector.replicate 4 0
  macMask := 0
  macsr := 0
  pendingLevel := 0
  pendingVector := 0
  root := Vector.replicate 2 0
  ttr := Vector.replicate 2 (Vector.replicate 4 0)
  tcr := 0
  mmusr := 0
  halted := false
  bootState := .idle
  fatal := none
  mem := mem
  regions := []
  ramSize := 0
  cfg := cfg
  inbox := []
  reply := .done []
  reads := 0

/-- Construction (70_reset_and_hazards.md rule R330): the CPU model is resolved (44_boot.md rule R252), and an unknown name
is fatal (10_state.md rule R49). The memory's contents are the draw of 20_memory.md rule R82. -/
def State.construct (setup : Setup) (draw : Memory) : State :=
  let name := setup.cpuModel.getD setup.defaultCpuModel
  match setup.models.find? (fun m => m.name == name) with
  | some m =>
    State.zeroed { setup.machine with
      features := m.features
      initialSr := m.initialSr.getD Config.defaultInitialSr } draw
  | none =>
    { State.zeroed setup.machine draw with
      fatal := some (.unknownModel name)
      reply := .fatal (.unknownModel name) }

/-- The state right after construction of the machine of `Setup.initial`, with nothing listed in memory (log entries 3
and 7). -/
def State.reset : State := State.construct Setup.initial []

end Sys2Proof.Machine
end

