-- ==== Sys2Proof/Machine/Flags.lean ====
section
/-! DEFINITION. The condition-code engine (41_condition_codes.md): the derivation of N, Z, V and C from the record, kind
by kind, and the five-bit value `Flags()`. -/

namespace Sys2Proof.Machine

/-- The width W of a kind in bits (rule R150). -/
def widthBits : Width → Nat
  | .byte => 8
  | .word => 16
  | .long => 32

/-- The four derived flags. -/
structure Nzvc where
  n : Bool
  z : Bool
  v : Bool
  c : Bool
  deriving DecidableEq, Repr

/-- FLAGS: the flags stand in bits 3:0 of the record's destination field (rule R154). -/
def flagsKnown (dest : Word) : Nzvc where
  n := dest.getLsbD 3
  z := dest.getLsbD 2
  v := dest.getLsbD 1
  c := dest.getLsbD 0

/-- LOGIC kinds, result `r` (rule R155). -/
def flagsLogic {w : Nat} (r : BitVec w) : Nzvc where
  n := r.msb
  z := r == 0
  v := false
  c := false

/-- ADD kinds, `r = a + s` (rule R156). -/
def flagsAdd {w : Nat} (r s : BitVec w) : Nzvc :=
  let a := r - s
  { n := r.msb
    z := r == 0
    v := (a.msb == s.msb) && (r.msb != s.msb)
    c := r.ult s }

/-- SUB kinds, `r = a - s` (rule R157). -/
def flagsSub {w : Nat} (r s : BitVec w) : Nzvc :=
  let a := r + s
  { n := r.msb
    z := r == 0
    v := (a.msb != s.msb) && (r.msb != a.msb)
    c := a.ult s }

/-- ADDX kinds, `r = a + s + 1` (rule R158). -/
def flagsAddx {w : Nat} (r s : BitVec w) : Nzvc :=
  let a := r - s - 1
  { n := r.msb
    z := r == 0
    v := (a.msb == s.msb) && (r.msb != s.msb)
    c := r.ule s }

/-- SUBX kinds, `r = a - s - 1` (rule R159). -/
def flagsSubx {w : Nat} (r s : BitVec w) : Nzvc :=
  let a := r + s + 1
  { n := r.msb
    z := r == 0
    v := (a.msb != s.msb) && (r.msb != a.msb)
    c := a.ule s }

/-- SHIFT kinds: C tests all 32 bits of the source field (rule R160). -/
def flagsShift {w : Nat} (r : BitVec w) (src : Word) : Nzvc where
  n := r.msb
  z := r == 0
  v := false
  c := src != 0

/-- The four flags of a record: both fields are cut to the kind's width first (rule R152), then the kind's rule applies. -/
def deriveNzvc (kind : CcKind) (dest src : Word) : Nzvc :=
  match kind with
  | .flags => flagsKnown dest
  | .logic w => flagsLogic (dest.setWidth (widthBits w))
  | .add w => flagsAdd (dest.setWidth (widthBits w)) (src.setWidth (widthBits w))
  | .sub w => flagsSub (dest.setWidth (widthBits w)) (src.setWidth (widthBits w))
  | .addx w => flagsAddx (dest.setWidth (widthBits w)) (src.setWidth (widthBits w))
  | .subx w => flagsSubx (dest.setWidth (widthBits w)) (src.setWidth (widthBits w))
  | .shift w => flagsShift (dest.setWidth (widthBits w)) src

/-- The five flags in the order X N Z V C (10_state.md rule R25, 41_condition_codes.md rule R153). -/
def packFlags (x : Bool) (f : Nzvc) : BitVec 5 :=
  BitVec.ofBool x ++ BitVec.ofBool f.n ++ BitVec.ofBool f.z ++ BitVec.ofBool f.v ++ BitVec.ofBool f.c

/-- `Flags()` (rule R153). -/
def State.flags (s : State) : BitVec 5 :=
  packFlags s.ccX (deriveNzvc s.ccOp s.ccDest s.ccSrc)

/-- `ReadSR()` (10_state.md rule R29). -/
def State.readSr (s : State) : Half :=
  (s.srHi.setWidth 16 <<< 8) ||| s.flags.setWidth 16

/-- `SetCCR(v)`: the record of kind FLAGS that holds `v[4:0]` (10_state.md rule R30). -/
def State.setCcr (s : State) (v : Byte) : State :=
  { s with
    ccOp := .flags
    ccDest := (v.extractLsb' 0 4).setWidth 32
    ccSrc := 0
    ccX := v.getLsbD 4 }

/-- CC_SET's effect: the whole record is replaced and nothing is computed (rule R163). -/
def State.setRecord (s : State) (kind : CcKind) (x : Bool) (dest src : Word) : State :=
  { s with ccOp := kind, ccDest := dest, ccSrc := src, ccX := x }

end Sys2Proof.Machine
end

