-- ==== Sys2Proof/Machine/Operands.lean ====
section
/-! DEFINITION. The register accessors: the features that gate them, the numbered registers and the words they move,
the stack-pointer slots behind their live one, and the fields of the status register. -/

namespace Sys2Proof.Machine

/-! ## Features -/

/-- `has(f)` (00_scope.md rule R2). -/
def State.has (s : State) (f : Feature) : Bool := s.cfg.features.contains f

/-- Whether the MAC unit's registers are meaningful (10_state.md rule R43). -/
def State.hasMac (s : State) : Bool := s.has .mac || s.has .emac

/-- `N_ACC` (00_scope.md section 3). -/
def State.nAcc (s : State) : Nat := if s.has .emac then 4 else if s.has .mac then 1 else 0

/-! ## Status-register fields (10_state.md rule R27) -/

/-- `S`: supervisor mode. -/
def State.supervisor (s : State) : Bool := s.srHi.getLsbD 5

/-- `M`: the stack-mode bit. -/
def State.stackMode (s : State) : Bool := s.srHi.getLsbD 4

/-- `I`: the interrupt mask level. -/
def State.mask (s : State) : BitVec 3 := s.srHi.extractLsb' 0 3

/-- `ActiveContext(sr)`: 0 kernel, 1 user (42_mmu_privilege.md rule R190). -/
def activeContext (sr : Half) : Word := if sr.getLsbD 13 then 0 else 1

/-! ## Stack-pointer slots -/

/-- `SPslot[k]`, whether or not it is live. -/
def SpSlots.get (t : SpSlots) : SpSlot → Word
  | .supervisor => t.supervisor
  | .user => t.user
  | .interrupt => t.interrupt

/-- `SPslot[k] <- v`. -/
def SpSlots.set (t : SpSlots) (k : SpSlot) (v : Word) : SpSlots :=
  match k with
  | .supervisor => { t with supervisor := v }
  | .user => { t with user := v }
  | .interrupt => { t with interrupt := v }

/-- `SEL(sr)` (10_state.md rules R36 and R37): classic models choose by S and M, the others by S alone. -/
def selectSlot (classic : Bool) (sr : Half) : SpSlot :=
  if sr.getLsbD 13 then
    if classic then (if sr.getLsbD 12 then .supervisor else .interrupt) else .supervisor
  else .user

/-- `SEL` on this machine. -/
def State.sel (s : State) (sr : Half) : SpSlot := selectSlot (s.has .m68000) sr

/-- `GetSPSlot(k)`: the live slot is `A[7]` (10_state.md rule R38). -/
def State.getSpSlot (s : State) (k : SpSlot) : Word :=
  if k = s.currentSp then s.a[7] else s.spSlots.get k

/-- `SetSPSlot(k, v)` (10_state.md rule R38). -/
def State.setSpSlot (s : State) (k : SpSlot) (v : Word) : State :=
  if k = s.currentSp then { s with a := s.a.set 7 v } else { s with spSlots := s.spSlots.set k v }

/-- `SwitchSP()`: save the outgoing pointer, load the incoming one (10_state.md rule R39). -/
def State.switchSp (s : State) : State :=
  let new := s.sel s.readSr
  let saved := s.spSlots.set s.currentSp s.a[7]
  { s with spSlots := saved, a := s.a.set 7 (saved.get new), currentSp := new }

/-- `SetSR(v)` (10_state.md rule R31). -/
def State.setSr (s : State) (v : Half) : State :=
  ({ s with srHi := v.extractLsb' 8 8 }.setCcr (v.extractLsb' 0 8)).switchSp

/-! ## Floating-point registers -/

/-- A value of a floating-point register as its words, the most significant first (40_register_file.md rule R132). -/
def State.fpResult (s : State) (n : Fin 8) : List Word :=
  splitDigits 32 (fpWords s.cfg.fpBits) s.fp[n]

/-- `FP[n] <- v`, the `FP_BITS` low bits (40_register_file.md rule R133). -/
def State.setFp (s : State) (n : Fin 8) (v : Nat) : State :=
  { s with fp := s.fp.set n (v % 2 ^ s.cfg.fpBits) }

/-! ## Unit registers (40_register_file.md rule R136) -/

/-- The unit registers. -/
inductive UnitReg where
  | fpcr | fpsr | macsr | macMask
  | acc (i : Fin 4)
  deriving DecidableEq, Repr

/-- The register a `urid` names. -/
def unitRegOf (urid : Half) : Option UnitReg :=
  match urid.toNat with
  | 0x00 => some .fpcr
  | 0x01 => some .fpsr
  | 0x10 => some .macsr
  | 0x11 => some .macMask
  | 0x18 => some (.acc 0)
  | 0x19 => some (.acc 1)
  | 0x1A => some (.acc 2)
  | 0x1B => some (.acc 3)
  | _ => none

/-- The "needs" column of rule R136. -/
def State.unitPresent (s : State) : UnitReg → Bool
  | .fpcr | .fpsr => s.has .fpu
  | .macsr | .macMask => s.hasMac
  | .acc i => s.hasMac && decide (i.val < s.nAcc)

/-- The result words of a read: one, or two for an accumulator, the high one first (rule R134). -/
def State.readUnit (s : State) : UnitReg → List Word
  | .fpcr => [s.fpcr]
  | .fpsr => [s.fpsr]
  | .macsr => [s.macsr]
  | .macMask => [s.macMask]
  | .acc i => [s.acc[i].extractLsb' 32 32, s.acc[i].extractLsb' 0 32]

/-- The effect of a write: every bit is stored (rule R135). -/
def State.writeUnit (s : State) (r : UnitReg) (v : Acc) : State :=
  match r with
  | .fpcr => { s with fpcr := v.setWidth 32 }
  | .fpsr => { s with fpsr := v.setWidth 32 }
  | .macsr => { s with macsr := v.setWidth 32 }
  | .macMask => { s with macMask := v.setWidth 32 }
  | .acc i => { s with acc := s.acc.set i v }

/-! ## Control registers (42_mmu_privilege.md rule R193) -/

/-- The control registers. -/
inductive CtrlReg where
  | sfc | dfc | vbr | tcr | mmusr
  | root (c : Fin 2)
  | ttr (c : Fin 2) (j : Fin 4)
  deriving DecidableEq, Repr

/-- The register a `crid` names. -/
def ctrlRegOf (crid : Half) : Option CtrlReg :=
  match crid.toNat with
  | 0x000 => some .sfc
  | 0x001 => some .dfc
  | 0x002 => some .vbr
  | 0x003 => some .tcr
  | 0x004 => some .mmusr
  | 0x010 => some (.root 0)
  | 0x011 => some (.root 1)
  | 0x020 => some (.ttr 0 0)
  | 0x021 => some (.ttr 0 1)
  | 0x022 => some (.ttr 0 2)
  | 0x023 => some (.ttr 0 3)
  | 0x024 => some (.ttr 1 0)
  | 0x025 => some (.ttr 1 1)
  | 0x026 => some (.ttr 1 2)
  | 0x027 => some (.ttr 1 3)
  | _ => none

/-- The "needs" column of rule R193. -/
def State.ctrlPresent (s : State) : CtrlReg → Bool
  | .sfc | .dfc | .vbr => true
  | .tcr | .mmusr | .root _ | .ttr _ _ => s.has .mmu

/-- The value of a control register, zero-extended (rule R194). -/
def State.readCtrl (s : State) : CtrlReg → Word
  | .sfc => s.sfc.setWidth 32
  | .dfc => s.dfc.setWidth 32
  | .vbr => s.vbr
  | .tcr => s.tcr
  | .mmusr => s.mmusr
  | .root c => s.root[c]
  | .ttr c j => s.ttr[c][j]

/-- The effect of a write, with the "write keeps" column of rule R193 (rule R195). -/
def State.writeCtrl (s : State) (r : CtrlReg) (v : Word) : State :=
  match r with
  | .sfc => { s with sfc := v.setWidth 3 }
  | .dfc => { s with dfc := v.setWidth 3 }
  | .vbr => { s with vbr := v }
  | .tcr => { s with tcr := v }
  | .mmusr => { s with mmusr := v }
  | .root c => { s with root := s.root.set c v }
  | .ttr c j => { s with ttr := s.ttr.set c (s.ttr[c].set j v) }

end Sys2Proof.Machine
end

