-- ==== Sys2Proof/Machine/Ops.lean ====
section
/-! DEFINITION. The shared operations: memory and its address map, exception entry and return, cold start, the checks
every command makes first, and the way commands reach the block. -/

namespace Sys2Proof.Machine

/-! ## Memory as data -/

/-- The byte `m` holds at an address. -/
def Memory.read : Memory → Nat → Byte
  | [], _ => blankByte
  | (k, v) :: m, a => if k = a then v else Memory.read m a

/-- `mem[a] <- v`, in canonical form. -/
def Memory.write : Memory → Nat → Byte → Memory
  | [], a, v => if v = blankByte then [] else [(a, v)]
  | (k, x) :: m, a, v =>
    if a < k then (if v = blankByte then (k, x) :: m else (a, v) :: (k, x) :: m)
    else if a = k then (if v = blankByte then m else (a, v) :: m)
    else (k, x) :: Memory.write m a v

/-! ## The address map -/

/-- Whether a region holds an address; addresses wrap modulo 2^32 (00_scope.md rule R7). -/
def Region.holds (r : Region) (a : Word) : Bool := decide ((a - r.base).toNat < r.size)

/-- The region an address belongs to: of the regions that hold it, the one mapped last (44_boot.md rule R247). -/
def State.regionAt (s : State) (a : Word) : Option Region := s.regions.find? fun r => r.holds a

/-- Whether a number lies in a span. -/
def inSpan (sp : Span) (k : Nat) : Bool := decide (sp.lo ≤ k) && decide (k ≤ sp.hi)

/-- The platform's part of `MemAccessOK`, for the accesses that the regions do not decide (20_memory.md rule R76, log
entry 4). -/
def State.platformOk (s : State) (a : Word) (n : Nat) (dir : Dir) : Bool :=
  s.cfg.access.any fun r => inSpan r.span a.toNat && r.width == n && r.dir == dir

/-- The regions the `n` bytes from `a` belong to. -/
def State.regionsOf (s : State) (a : Word) (n : Nat) : List (Option Region) :=
  (List.range n).map fun i => s.regionAt (a + BitVec.ofNat 32 i)

/-- Whether a write of a byte that belongs to this region is reported as an error: a read-only region when `ROM_WRITE` is
`access_error` (20_memory.md rule R78). -/
def State.writeForbidden (s : State) (r : Option Region) : Bool :=
  match r with
  | some r => r.readOnly && s.cfg.romWrite == .accessError
  | none => false

/-- `MemAccessOK(a, n, dir)` (20_memory.md rule R76): true inside RAM and, for reads, inside ROM; a write that touches a
protected ROM follows `ROM_WRITE` (rule R78); an access that touches an address outside the regions is the platform's.
Beyond the rules: a write across a border of a protected ROM (DEDUCED, log entry 5); an access that lies partly outside the
regions is the platform's as a whole (DESIGN CHOICE, log entry 4); an access whose bytes lie partly in RAM and partly in ROM
succeeds, but for a write that `ROM_WRITE` reports, and the platform is not asked (DESIGN CHOICE, log entry 21); a write into
a ROM region before `setReadOnly` succeeds, and the platform is not asked (DEDUCED, log entry 22). -/
def State.memAccessOk (s : State) (a : Word) (n : Nat) (dir : Dir) : Bool :=
  let owners := s.regionsOf a n
  !(dir == .write && owners.any s.writeForbidden) && (owners.all Option.isSome || s.platformOk a n dir)

/-! ## Memory accesses (20_memory.md rules R72 and R9) -/

/-- The byte a read finds at an address: memory inside a region, the platform's free value outside (rules R79 and R85, log
entry 6). -/
def State.loadByte (s : State) (a : Word) : Byte :=
  if (s.regionAt a).isSome then Memory.read s.mem a.toNat else Config.platformByte s.reads a

/-- `mem[a] <- v`; a write into a read-only region does not change it (rule R78). -/
def State.storeByte (s : State) (a : Word) (v : Byte) : State :=
  if (s.regionAt a).any Region.readOnly then s else { s with mem := Memory.write s.mem a.toNat v }

/-- Bytes at consecutive addresses, in order. -/
def State.storeBytes (s : State) (a : Word) : Bytes → State
  | [] => s
  | v :: vs => (s.storeByte a v).storeBytes (a + 1) vs

/-- The `n` bytes from `a`, in order. -/
def State.loadBytes (s : State) (a : Word) (n : Nat) : Bytes :=
  (List.range n).map fun i => s.loadByte (a + BitVec.ofNat 32 i)

/-- `MemRead(a, n)`, big-endian: the value and the state after the read, or nothing when the access fails. -/
def State.memRead (s : State) (a : Word) (n : Nat) : Option (Nat × State) :=
  if s.memAccessOk a n .read then
    some (joinDigits 8 (s.loadBytes a n), { s with reads := s.reads + 1 })
  else none

/-- `MemWrite(a, n, v)`, big-endian: the state after the write, or nothing when the access fails. -/
def State.memWrite (s : State) (a : Word) (n : Nat) (v : Nat) : Option State :=
  if s.memAccessOk a n .write then some (s.storeBytes a (splitDigits 8 n v)) else none

/-! ## Outcomes -/

/-- The command ends with result words (00_scope.md rule R11 (a)). -/
def State.done (s : State) (results : List Word) : State := { s with reply := .done results }

/-- The block is stuck (60_exceptions.md rule R296). -/
def State.halt (s : State) : State := { s with halted := true, reply := .halted }

/-- A boot-time fatal error (44_boot.md rule R250). -/
def State.die (s : State) (r : FatalReason) : State := { s with fatal := some r, reply := .fatal r }

/-! ## Exception entry (60_exceptions.md section 2) -/

/-- `XlateS(a)`: the physical address of a supervisor data access; the identity without an MMU (20_memory.md rule R84, log
entry 12). -/
def State.xlateS (s : State) (a : Word) : Word :=
  if s.has .mmu then
    match s.cfg.xlate.find? fun r => inSpan r.span a.toNat with
    | some r => r.target + (a - BitVec.ofNat 32 r.span.lo)
    | none => a
  else a

/-- The kinds `Enter` takes: a synchronous kind, or the interrupt. -/
inductive Cause where
  | sync (kind : Kind)
  | interrupt
  deriving DecidableEq, Repr

/-- `FRAME_FORMAT(kind)` is 0 for every kind (rule R288). -/
def frameFormat (_ : Cause) : BitVec 4 := 0

/-- `Vector(kind)` of a synchronous kind (rule R281). -/
def vectorOf (kind : Kind) : Byte := BitVec.ofNat 8 kind.code

/-- The vector-table offset of a vector (rule R282). -/
def vectorOffset (v : Byte) : BitVec 12 := v.setWidth 12 <<< 2

/-- The format and vector-offset word of the frame (rule R288). -/
def frameWord (cause : Cause) (v : Byte) : Half := frameFormat cause ++ vectorOffset v

/-- The address of the entry of a vector in the table at `VBR` (rule R282). -/
def State.vectorAddress (s : State) (v : Byte) : Word := s.vbr + (vectorOffset v).setWidth 32

/-- The status at entry: S = 1, T1 = T0 = 0, M kept, the given interrupt mask (rule R286). -/
def entryStatus (old : Half) (newI : BitVec 3) : Half :=
  (((old ||| 0x2000) &&& ~~~(0xC000 : Half)) &&& ~~~(0x0700 : Half)) ||| (newI.setWidth 16 <<< 8)

/-- The last step of entry: the handler's address from the vector table (rule R289). -/
def State.takeVector (s : State) (v : Byte) : State :=
  match s.memRead (s.xlateS (s.vectorAddress v)) 4 with
  | none => s.halt
  | some (handler, s) => { s with pc := BitVec.ofNat 32 handler, reply := .exception v }

/-- `Enter(kind, v, retpc, newI)`: TAKING AN EXCEPTION (rule R285). A failed access halts the block and leaves what was
written before it (rule R296). -/
def State.enter (s : State) (cause : Cause) (v : Byte) (retpc : Word) (newI : BitVec 3) : State :=
  let old := s.readSr
  let s := s.setSr (entryStatus old newI)
  let sp := s.a[7]
  match s.memWrite (s.xlateS (sp - 2)) 2 (frameWord cause v).toNat with
  | none => s.halt
  | some s =>
    match s.memWrite (s.xlateS (sp - 6)) 4 retpc.toNat with
    | none => s.halt
    | some s =>
      match s.memWrite (s.xlateS (sp - 8)) 2 old.toNat with
      | none => s.halt
      | some s => { s with a := s.a.set 7 (sp - 8) }.takeVector v

/-- `raise kind(retpc)`: a synchronous exception leaves the interrupt mask alone (rules R10 of 00_scope.md and R285). -/
def State.raiseSync (s : State) (kind : Kind) (retpc : Word) : State :=
  s.enter (.sync kind) (vectorOf kind) retpc s.mask

/-! ## Return (60_exceptions.md rule R297) -/

/-- The pop of a frame whose three items have been read. -/
def State.popFrame (s : State) (sr : Half) (pc : Word) : State :=
  let s := { s with a := s.a.set 7 (s.a[7] + 8) }.setSr sr
  { s with pc := pc, reply := .done [] }

/-- `Return()`: a failed read raises ACCESS, a format that is not accepted raises FORMAT, each from the state before the
pop. -/
def State.returnFrom (s : State) : State :=
  let sp := s.a[7]
  match s.memRead (s.xlateS sp) 2 with
  | none => s.raiseSync .access s.pc
  | some (sr, s) =>
    match s.memRead (s.xlateS (sp + 2)) 4 with
    | none => s.raiseSync .access s.pc
    | some (pc, s) =>
      match s.memRead (s.xlateS (sp + 6)) 2 with
      | none => s.raiseSync .access s.pc
      | some (fv, s) =>
        if (BitVec.ofNat 16 fv).extractLsb' 12 4 ∈ Config.rteFormats then
          s.popFrame (BitVec.ofNat 16 sr) (BitVec.ofNat 32 pc)
        else s.raiseSync .format s.pc

/-! ## Cold start (70_reset_and_hazards.md rule R331) -/

/-- The last step of the reset sequence: the initial PC from the reset vector. When it succeeds, the outcome of RAISE RESET is
`done []` as that of COLD_START, and no exception taken: DESIGN CHOICE, log entry 23. -/
def State.loadResetPc (s : State) : State :=
  match s.memRead Config.resetVectorAddr 4 with
  | none => { s with bootState := .running }.halt
  | some (pc, s) => { s with pc := BitVec.ofNat 32 pc, bootState := .running, reply := .done [] }

/-- `ColdStart()`. -/
def State.coldStart (s : State) : State :=
  let s := { s with halted := false, vbr := 0 }.setSr s.cfg.initialSr
  if s.cfg.resetLoadsSsp then
    match s.memRead 0 4 with
    | none => { s with bootState := .running }.halt
    | some (ssp, s) => { s with a := s.a.set 7 (BitVec.ofNat 32 ssp) }.loadResetPc
  else s.loadResetPc

/-! ## The checks of 40_register_file.md rule R138 -/

/-- Check 2: why the block has no step for a command of the engine, if it has none. -/
def State.stopped (s : State) : Option Fault :=
  match s.fatal with
  | some r => some (.fatal r)
  | none =>
    if s.halted then some .halted
    else if s.bootState = .running then none
    else some (.notRunning s.bootState)

/-- A command of class U: check 2, then its effect. -/
def State.engine (s : State) (effect : State) : Host.Outcome State Fault Refusal :=
  match s.stopped with
  | some f => .fault f
  | none => .next effect

/-- A command of class S: check 2, then check 3 (PRIVILEGE when S = 0), then its effect. -/
def State.privileged (s : State) (effect : State) : Host.Outcome State Fault Refusal :=
  s.engine (if s.supervisor then effect else s.raiseSync .privilege s.pc)

/-- Checks 4 and 5 on a register number: ILLEGAL when it names no register, UNSUPPORTED when the machine lacks the register,
then the effect on the register it names. -/
def State.withRegister {R : Type} (s : State) (reg : Option R) (present : R → Bool) (effect : R → State) : State :=
  match reg with
  | none => s.raiseSync .illegal s.pc
  | some r => if present r then effect r else s.raiseSync .unsupported s.pc

/-- The checks of a boot command (44_boot.md rule R230): once `fatal` is set the outcome is `Fatal`; then the boot state. -/
def State.boot (s : State) (accepted : Bool) (otherwise : Refusal) (effect : Host.Outcome State Fault Refusal) :
    Host.Outcome State Fault Refusal :=
  match s.fatal with
  | some r => .fault (.fatal r)
  | none => if accepted then effect else .refused otherwise

/-! ## How commands reach the block -/

/-- The outcome when the words issued spell no command: the block waits for words that have not been issued, or refuses
(30_encoding.md rule R108). Neither takes a word from the list (DESIGN CHOICE, log entries 9 and 24). -/
def refuse : DecodeError → Host.Outcome State Fault Refusal
  | .noWord => .fault .noCommand
  | .missingOperands => .fault .awaitingOperands
  | e => .refused (.encoding e)

/-- The state with the boot state in which the command with this `OP` has a step (40_register_file.md rule R138 check 2,
44_boot.md rule R230), no stop, and the kernel path present or absent as BOOT_KERNEL and BOOT_ROM ask (rule R249). It is
no behaviour of the block: it stands for the host's part in bringing the command about (log entry 1). -/
def State.acceptingState (s : State) (op : Byte) : State :=
  let live := { s with halted := false, fatal := none }
  match op.toNat with
  | 0x40 => { s with fatal := none }
  | 0x50 => { live with bootState := .idle }
  | 0x51 =>
    { live with bootState := .ramMapped, cfg := { s.cfg with kernelPath := some (s.cfg.kernelPath.getD []) } }
  | 0x52 => { live with bootState := .ramMapped, cfg := { s.cfg with kernelPath := none } }
  | 0x53 => { live with bootState := .ready }
  | _ => { live with bootState := .running }

/-- The words issued before any other. -/
def State.issueFirst (s : State) (ws : List Word) : State := { s with inbox := ws ++ s.inbox }

end Sys2Proof.Machine
end

