-- ==== Sys2Proof/Machine/Boot.lean ====
section
/-! DEFINITION. The boot sequencer (44_boot.md): the boot-parameter records and how they are written, and the meanings of
the four boot commands. A boot-time write that fails ends the command with the state it leaves, `fatal` set. -/

namespace Sys2Proof.Machine

open Host (Outcome)

/-! ## Boot-time writes -/

/-- `MemWrite` at boot: a failure is `Fatal(BootWrite)` (rule R250). -/
def State.bootWrite (s : State) (a : Word) (n : Nat) (v : Nat) : Except State State :=
  match s.memWrite a n v with
  | some s => .ok s
  | none => .error (s.die (.bootWrite a))

/-- `MemWriteBytes` at boot: byte writes at consecutive addresses, in order (log entry 11). -/
def State.bootWriteBytes (s : State) (a : Word) : Bytes → Except State State
  | [] => .ok s
  | v :: vs => do
    let s ← s.bootWrite a 1 v.toNat
    s.bootWriteBytes (a + 1) vs

/-- `loadRawImage(path, a, max)` (rule R231): nothing is written when the loader has no image, the image is longer than
`max`, or a byte of it falls where a write fails. -/
def State.loadRawImage (s : State) (path : Bytes) (a : Word) (max : Nat) : Option State :=
  match s.cfg.loader.rawImages.lookup path with
  | none => none
  | some image =>
    if image.length ≤ max &&
        (List.range image.length).all fun i => s.memAccessOk (a + BitVec.ofNat 32 i) 1 .write then
      some (s.storeBytes a image)
    else none

/-! ## Boot records (rules R238 to R242) -/

/-- A boot-parameter record. -/
inductive BootRecord where
  | single (tag : Half) (value : Word)
  | dual (tag : Half) (base size : Word)
  | string (tag : Half) (text : Bytes)
  | last (tag : Half)
  deriving DecidableEq, Repr

/-- The total size of a record, header included. -/
def BootRecord.size : BootRecord → Nat
  | .single _ _ => 8
  | .dual _ _ _ => 12
  | .string _ text => (text.length + 6) / 2 * 2
  | .last _ => 4

/-- The tag of a record. -/
def BootRecord.tag : BootRecord → Half
  | .single t _ | .dual t _ _ | .string t _ | .last t => t

/-- The payload of a record at `p`, after its header; the padding byte of a string is not written. -/
def State.writePayload (s : State) (p : Word) : BootRecord → Except State State
  | .single _ v => s.bootWrite (p + 4) 4 v.toNat
  | .dual _ b z => do
    let s ← s.bootWrite (p + 4) 4 b.toNat
    s.bootWrite (p + 8) 4 z.toNat
  | .string _ text => do
    let s ← s.bootWriteBytes (p + 4) text
    s.bootWrite (p + 4 + BitVec.ofNat 32 text.length) 1 0
  | .last _ => .ok s

/-- A record at `p`: its tag, its size (cut to 16 bits, rule R241), its payload. -/
def State.writeRecord (s : State) (p : Word) (r : BootRecord) : Except State State := do
  let s ← s.bootWrite p 2 r.tag.toNat
  let s ← s.bootWrite (p + 2) 2 r.size
  s.writePayload p r

/-- Records one after the other from `p`, and the address where the last one ended. -/
def State.writeRecords (s : State) (p : Word) : List BootRecord → Except State (Word × State)
  | [] => .ok (p, s)
  | r :: rs => do
    let s ← s.writeRecord p r
    s.writeRecords (p + BitVec.ofNat 32 r.size) rs

/-- `VIDEO_ROW_STRIDE` (rule R243). -/
def videoRowPayload (b : BootProfile) : Word :=
  b.videoRowStride.getD (BitVec.ofNat 32 ((b.videoWidth.toNat * b.videoDepth.toNat + 7) / 8))

/-- The payload of VIDEO_DIM (rule R238). -/
def videoDimPayload (b : BootProfile) : Word := b.videoHeight.setWidth 16 ++ b.videoWidth.setWidth 16

/-- Records 1 to 14 of rule R238, in their order. -/
def leadingRecords (cfg : Config) (ramSize : Word) : List BootRecord :=
  let t := cfg.tags
  let b := cfg.profile
  [ .single t.machType b.machineType,
    .single t.fpuType b.fpuType,
    .single t.mmuType b.mmuType,
    .single t.cpuType b.cpuType,
    .single t.platformCpuId b.platformCpuId,
    .single t.platformModel b.platformModelId,
    .single t.memSizeMb (BitVec.ofNat 32 (ramSize.toNat / 2 ^ 20)),
    .dual t.memChunk 0 ramSize,
    .single t.videoAddr b.videoAddr,
    .single t.videoDepth b.videoDepth,
    .single t.videoDim (videoDimPayload b),
    .single t.videoRow (videoRowPayload b),
    .single t.serialBase b.serialBase ] ++
  (match cfg.cmdline with
    | some text => [.string t.commandLine text]
    | none => [])

/-- `parametersBase` (rule R237). -/
def parametersBase (highest : Word) : Word := (highest + 1) &&& ~~~(1 : Word)

/-- Where an initrd of `size` bytes goes (rule R244); the subtraction wraps. -/
def initrdBase (ramSize : Word) (size : Nat) : Word :=
  (ramSize - BitVec.ofNat 32 size) &&& ~~~(BitVec.ofNat 32 (Config.pageSize - 1))

/-- The initrd, when there is one: it is loaded, and its record is written at `p` (rules R244 and R245). -/
def State.bootInitrd (s : State) (p : Word) : Except State (Word × State) :=
  match s.cfg.initrdPath with
  | none => .ok (p, s)
  | some path =>
    match s.cfg.loader.imageSizes.lookup path with
    | none => .error (s.die (.initrdLoad path))
    | some size =>
      let base := initrdBase s.ramSize size
      match s.loadRawImage path base (s.ramSize - base).toNat with
      | none => .error (s.die (.initrdLoad path))
      | some s => s.writeRecords p [.dual s.cfg.tags.ramDisk base (BitVec.ofNat 32 size)]

/-- The segments of a kernel image, in list order (rule R235). -/
def State.bootSegments (s : State) : List (Word × Bytes) → Except State State
  | [] => .ok s
  | (a, bs) :: segs => do
    let s ← s.bootWriteBytes a bs
    s.bootSegments segs

/-- The body of BOOT_KERNEL after the image is loaded (rule R234). -/
def State.prepareKernel (s : State) (image : ExecImage) : Except State State := do
  let s ← s.bootSegments image.segs
  let s ← s.bootWrite Config.resetVectorAddr 4 image.entry.toNat
  let (p, s) ← s.writeRecords (parametersBase image.highest) (leadingRecords s.cfg s.ramSize)
  let (p, s) ← s.bootInitrd p
  let (_, s) ← s.writeRecords p [.last s.cfg.tags.last]
  .ok s

/-! ## The commands -/

/-- The end of a boot command: a failed write answers the state it left, a success goes to `Ready` (rule R230). -/
def bootEnd : Except State State → State
  | .ok s => { s with bootState := .ready }.done []
  | .error s => s

/-- MAP_RAM (rule R233). -/
def execMapRam (size : Word) (s : State) : Outcome State Fault Refusal :=
  s.boot (s.bootState == .idle) (.bootState s.bootState) <|
    if s.halted then .fault .halted
    else if s.cfg.hostAlloc.any fun sp => inSpan sp size.toNat then
      .next ({ s with
        regions := { kind := .ram, base := 0, size := size.toNat, readOnly := false } :: s.regions
        ramSize := size
        bootState := .ramMapped }.done [])
    else .next (s.die (.ramAllocation size))

/-- BOOT_KERNEL (rule R234). -/
def execBootKernel (s : State) : Outcome State Fault Refusal :=
  s.boot (s.bootState == .ramMapped) (.bootState s.bootState) <|
    match s.cfg.kernelPath with
    | none => .refused .bootPath
    | some path =>
      if s.halted then .fault .halted
      else
        match s.cfg.loader.executables.lookup path with
        | none => .next (s.die (.kernelLoad path))
        | some image => .next (bootEnd ({ s with bootState := .kernelBootPrepared }.prepareKernel image))

/-- `createRegion` and `mapRegion` for the firmware (rule R247). -/
def State.mapRom (s : State) : State :=
  { s with
    regions := { kind := .rom, base := s.cfg.romBase, size := s.cfg.romSize, readOnly := false } :: s.regions
    bootState := .romMapped }

/-- `setReadOnly(rom)` (rule R232). -/
def State.protectRom (s : State) : State :=
  { s with regions := s.regions.map fun r => if r.kind = .rom then { r with readOnly := true } else r }

/-- BOOT_ROM (rules R247 and R248). The writes of the load into the region, which is not read-only yet, succeed (DEDUCED, log
entry 22). -/
def execBootRom (s : State) : Outcome State Fault Refusal :=
  s.boot (s.bootState == .ramMapped) (.bootState s.bootState) <|
    match s.cfg.kernelPath with
    | some _ => .refused .bootPath
    | none =>
      if s.halted then .fault .halted
      else
        match s.mapRom.loadRawImage s.cfg.romPath s.cfg.romBase s.cfg.romSize with
        | none => .next (s.mapRom.die (.romLoad s.cfg.romPath))
        | some s => .next ({ s.protectRom with bootState := .ready }.done [])

/-- COLD_START (rule R251): accepted in `Ready`, and in `Running` when the block is halted. -/
def execColdStart (s : State) : Outcome State Fault Refusal :=
  s.boot (s.bootState == .ready || (s.bootState == .running && s.halted)) (.bootState s.bootState) <|
    .next s.coldStart

end Sys2Proof.Machine
end

