-- ==== Sys2Proof/Machine/ConditionCodes.lean ====
section
/-! DEFINITION. The meanings of the condition-code commands (41_condition_codes.md). -/

namespace Sys2Proof.Machine

open Host (Outcome)

/-- CC_SET (rule R163): the record is replaced; no flag is computed and the stack pointer does not switch. -/
def execCcSet (kind : CcKind) (x : Bool) (dest src : Word) (s : State) : Outcome State Fault Refusal :=
  s.engine ((s.setRecord kind x dest src).done [])

/-- CC_FLAGS (rule R164). -/
def execCcFlags (s : State) : Outcome State Fault Refusal :=
  s.engine (s.done [s.flags.setWidth 32])

end Sys2Proof.Machine
end

