-- ==== Sys2Proof/Machine/Exceptions.lean ====
section
/-! DEFINITION. The meanings of the exception and interrupt commands (43_exception_commands.md). -/

namespace Sys2Proof.Machine

open Host (Outcome)

/-- INT_PEND (rule R210): a step in every boot state and while halted; both fields in one step. -/
def execIntPend (level : BitVec 3) (vector : Byte) (s : State) : Outcome State Fault Refusal :=
  match s.fatal with
  | some r => .fault (.fatal r)
  | none => .next ({ s with pendingLevel := level, pendingVector := vector }.done [])

/-- INT_CHECK (rule R211): the interrupt is taken when its level exceeds the mask (60_exceptions.md rule R292). -/
def execIntCheck (s : State) : Outcome State Fault Refusal :=
  s.engine (if s.mask < s.pendingLevel then s.enter .interrupt s.pendingVector s.pc s.pendingLevel else s.done [])

/-- RAISE (rule R212): RESET runs the cold start, every other kind is entered. The outcome of a successful RAISE RESET is log
entry 23. -/
def execRaise (kind : Kind) (retpc : Word) (s : State) : Outcome State Fault Refusal :=
  s.engine (if kind = .reset then s.coldStart else s.raiseSync kind retpc)

/-- RTE (rule R213): class S. -/
def execRte (s : State) : Outcome State Fault Refusal :=
  s.privileged s.returnFrom

end Sys2Proof.Machine
end

