-- ==== Sys2Proof/Machine/MmuPrivilege.lean ====
section
/-! DEFINITION. The meanings of the MMU and privilege commands (42_mmu_privilege.md). -/

namespace Sys2Proof.Machine

open Host (Outcome)

/-- CTX (rule R192): needs neither privilege nor an MMU. -/
def execCtx (s : State) : Outcome State Fault Refusal :=
  s.engine (s.done [activeContext s.readSr])

/-- RD_CR (rule R194): PRIVILEGE, then ILLEGAL, then UNSUPPORTED. -/
def execRdCr (crid : Half) (s : State) : Outcome State Fault Refusal :=
  s.privileged (s.withRegister (ctrlRegOf crid) s.ctrlPresent fun r => s.done [s.readCtrl r])

/-- WR_CR (rule R195): PRIVILEGE, then ILLEGAL, then UNSUPPORTED. -/
def execWrCr (crid : Half) (v : Word) (s : State) : Outcome State Fault Refusal :=
  s.privileged (s.withRegister (ctrlRegOf crid) s.ctrlPresent fun r => (s.writeCtrl r v).done [])

end Sys2Proof.Machine
end

