-- ==== Sys2Proof/Machine/RegisterFile.lean ====
section
/-! DEFINITION. The meanings of the Register File commands (40_register_file.md). -/

namespace Sys2Proof.Machine

open Host (Outcome)

/-- RD_D (rule R120). -/
def execRdD (n : Fin 8) (s : State) : Outcome State Fault Refusal :=
  s.engine (s.done [s.d[n]])

/-- WR_D (rule R121). -/
def execWrD (n : Fin 8) (v : Word) (s : State) : Outcome State Fault Refusal :=
  s.engine ({ s with d := s.d.set n v }.done [])

/-- RD_A (rule R122). -/
def execRdA (n : Fin 8) (s : State) : Outcome State Fault Refusal :=
  s.engine (s.done [s.a[n]])

/-- WR_A (rule R123): `n = 7` changes the live stack pointer only. -/
def execWrA (n : Fin 8) (v : Word) (s : State) : Outcome State Fault Refusal :=
  s.engine ({ s with a := s.a.set n v }.done [])

/-- RD_PC (rule R124). -/
def execRdPc (s : State) : Outcome State Fault Refusal :=
  s.engine (s.done [s.pc])

/-- WR_PC (rule R125): no alignment check. -/
def execWrPc (v : Word) (s : State) : Outcome State Fault Refusal :=
  s.engine ({ s with pc := v }.done [])

/-- RD_SR (rule R126). -/
def execRdSr (s : State) : Outcome State Fault Refusal :=
  s.engine (s.done [s.readSr.setWidth 32])

/-- WR_SR (rule R127): class S; only `v[15:0]` is used. -/
def execWrSr (v : Word) (s : State) : Outcome State Fault Refusal :=
  s.privileged ((s.setSr (v.extractLsb' 0 16)).done [])

/-- RD_CCR (rule R128). -/
def execRdCcr (s : State) : Outcome State Fault Refusal :=
  s.engine (s.done [s.flags.setWidth 32])

/-- WR_CCR (rule R129): only `v[7:0]` is used. -/
def execWrCcr (v : Word) (s : State) : Outcome State Fault Refusal :=
  s.engine ((s.setCcr (v.extractLsb' 0 8)).done [])

/-- RD_SP (rule R130): class S. -/
def execRdSp (k : SpSlot) (s : State) : Outcome State Fault Refusal :=
  s.privileged (s.done [s.getSpSlot k])

/-- WR_SP (rule R131): class S. -/
def execWrSp (k : SpSlot) (v : Word) (s : State) : Outcome State Fault Refusal :=
  s.privileged ((s.setSpSlot k v).done [])

/-- RD_FP (rule R132): UNSUPPORTED without an FPU. -/
def execRdFp (n : Fin 8) (s : State) : Outcome State Fault Refusal :=
  s.engine (if s.has .fpu then s.done (s.fpResult n) else s.raiseSync .unsupported s.pc)

/-- WR_FP (rule R133): UNSUPPORTED without an FPU. -/
def execWrFp (n : Fin 8) (v : Nat) (s : State) : Outcome State Fault Refusal :=
  s.engine (if s.has .fpu then (s.setFp n v).done [] else s.raiseSync .unsupported s.pc)

/-- RD_UR (rule R134). -/
def execRdUr (urid : Half) (s : State) : Outcome State Fault Refusal :=
  s.engine (s.withRegister (unitRegOf urid) s.unitPresent fun r => s.done (s.readUnit r))

/-- WR_UR (rule R135). -/
def execWrUr (urid : Half) (v : Acc) (s : State) : Outcome State Fault Refusal :=
  s.engine (s.withRegister (unitRegOf urid) s.unitPresent fun r => (s.writeUnit r v).done [])

end Sys2Proof.Machine
end

