-- ==== Sys2Proof/Machine/Dispatch.lean ====
section
/-! DEFINITION. One arm for each command of the opcode map (30_encoding.md rule R104). -/

namespace Sys2Proof.Machine

def exec (i : Instr) (s : State) : Host.Outcome State Fault Refusal :=
  match i with
  | .rdD n => Sys2Proof.Machine.execRdD n s
  | .wrD n v => Sys2Proof.Machine.execWrD n v s
  | .rdA n => Sys2Proof.Machine.execRdA n s
  | .wrA n v => Sys2Proof.Machine.execWrA n v s
  | .rdPc => Sys2Proof.Machine.execRdPc s
  | .wrPc v => Sys2Proof.Machine.execWrPc v s
  | .rdSr => Sys2Proof.Machine.execRdSr s
  | .wrSr v => Sys2Proof.Machine.execWrSr v s
  | .rdCcr => Sys2Proof.Machine.execRdCcr s
  | .wrCcr v => Sys2Proof.Machine.execWrCcr v s
  | .rdSp k => Sys2Proof.Machine.execRdSp k s
  | .wrSp k v => Sys2Proof.Machine.execWrSp k v s
  | .rdFp n => Sys2Proof.Machine.execRdFp n s
  | .wrFp n v => Sys2Proof.Machine.execWrFp n v s
  | .rdUr urid => Sys2Proof.Machine.execRdUr urid s
  | .wrUr urid v => Sys2Proof.Machine.execWrUr urid v s
  | .ccSet kind x dest src => Sys2Proof.Machine.execCcSet kind x dest src s
  | .ccFlags => Sys2Proof.Machine.execCcFlags s
  | .ctx => Sys2Proof.Machine.execCtx s
  | .rdCr crid => Sys2Proof.Machine.execRdCr crid s
  | .wrCr crid v => Sys2Proof.Machine.execWrCr crid v s
  | .intPend level vector => Sys2Proof.Machine.execIntPend level vector s
  | .intCheck => Sys2Proof.Machine.execIntCheck s
  | .raise kind retpc => Sys2Proof.Machine.execRaise kind retpc s
  | .rte => Sys2Proof.Machine.execRte s
  | .mapRam size => Sys2Proof.Machine.execMapRam size s
  | .bootKernel => Sys2Proof.Machine.execBootKernel s
  | .bootRom => Sys2Proof.Machine.execBootRom s
  | .coldStart => Sys2Proof.Machine.execColdStart s

end Sys2Proof.Machine
end

