-- ==== Sys2Proof/Machine/Step.lean ====
section
/-! DEFINITION. One step: the next command issued is decoded and performed to completion (30_encoding.md rule R100). -/

namespace Sys2Proof.Machine

/-- One step: the words of the next command leave the inbox, and the command is performed. The encoding is checked before
anything else (40_register_file.md rule R138 check 1). A fault or a refusal has no next state, so the words of that command are
not taken from the inbox: it is the host that takes them away, and the commands behind them have no step before that (DESIGN
CHOICE, log entries 9 and 24). -/
def step (s : State) : Host.Outcome State Fault Refusal :=
  match decode s.cfg.fpBits s.inbox with
  | .ok (i, rest) => exec i { s with inbox := rest }
  | .error e => refuse e

/-- `s` with the command whose bits are `w` (in the opcode table's numbering) issued before any other, in a boot state in
which that command has a step (log entry 1). -/
def State.withFetchWord (s : State) (nbits w : Nat) : State :=
  (s.acceptingState (opField (BitVec.ofNat 32 (w % 2 ^ nbits)))).issueFirst (tableWords s.cfg.fpBits nbits w)

end Sys2Proof.Machine
end

