-- ==== Sys2Proof/Safety.lean ====
section
/-! DEFINITION. What holds of every state a run of the block reaches: the invariants of 10_state.md, 20_memory.md and
44_boot.md, in the terms the statements use. -/

namespace Sys2Proof

/-- The privilege classes of 30_encoding.md rule R104. -/
inductive PrivClass where
  | unchecked | supervisor | host
  deriving DecidableEq, Repr

/-- The "Priv" column of 30_encoding.md rule R104. -/
def Instr.privClass : Instr → PrivClass
  | .wrSr _ | .rdSp _ | .wrSp _ _ | .rdCr _ | .wrCr _ _ | .rte => .supervisor
  | .intPend _ _ | .mapRam _ | .bootKernel | .bootRom | .coldStart => .host
  | .rdD _ | .wrD _ _ | .rdA _ | .wrA _ _ | .rdPc | .wrPc _ | .rdSr | .rdCcr | .wrCcr _ | .rdFp _ | .wrFp _ _ | .rdUr _
  | .wrUr _ _ | .ccSet _ _ _ _ | .ccFlags | .ctx | .intCheck | .raise _ _ => .unchecked

end Sys2Proof

namespace Sys2Proof.Machine

/-! ## The invariant -/

/-- The live slot is the one the status register selects (10_state.md rule R35). -/
def State.SpLive (s : State) : Prop := s.currentSp = s.sel s.readSr

/-- Every floating-point register is `FP_BITS` wide (rule R42). -/
def State.FpBounded (s : State) : Prop := ∀ n : Fin 8, s.fp[n] < 2 ^ s.cfg.fpBits

/-- The registers of an absent unit hold 0 (rule R50). -/
def State.AbsentZero (s : State) : Prop :=
  (s.has .fpu = false → (∀ n : Fin 8, s.fp[n] = 0) ∧ s.fpcr = 0 ∧ s.fpsr = 0) ∧
  (s.hasMac = false → s.macsr = 0 ∧ s.macMask = 0) ∧
  (∀ i : Fin 4, s.nAcc ≤ i.val → s.acc[i] = 0) ∧
  (s.has .mmu = false →
    s.tcr = 0 ∧ s.mmusr = 0 ∧ (∀ c : Fin 2, s.root[c] = 0) ∧ ∀ c : Fin 2, ∀ j : Fin 4, s.ttr[c][j] = 0)

/-- The RAM region that MAP_RAM of `ramSize` creates (20_memory.md rule R77). -/
def State.ramRegion (s : State) : Region :=
  { kind := .ram, base := 0, size := s.ramSize.toNat, readOnly := false }

/-- The address map is the one the boot state says (44_boot.md rules R230, R233 and R247): nothing before MAP_RAM, the RAM
region after it, and a protected ROM region above it only when there is no kernel path. -/
def State.MapMatchesBoot (s : State) : Prop :=
  match s.bootState with
  | .idle => s.regions = [] ∧ s.ramSize = 0
  | .ramMapped | .kernelBootPrepared => s.regions = [s.ramRegion]
  | .romMapped =>
    s.regions = [{ kind := .rom, base := s.cfg.romBase, size := s.cfg.romSize, readOnly := false }, s.ramRegion]
  | .ready | .running =>
    if s.cfg.kernelPath.isSome then s.regions = [s.ramRegion]
    else s.regions = [{ kind := .rom, base := s.cfg.romBase, size := s.cfg.romSize, readOnly := true }, s.ramRegion]

/-- The boot sequencer's states between commands, the place of a fatal error, and of a halt (44_boot.md rules R230 and R250,
10_state.md rule R46). -/
def State.BootOrder (s : State) : Prop :=
  (s.fatal = none → s.bootState ≠ .kernelBootPrepared ∧ s.bootState ≠ .romMapped) ∧
  (s.bootState = .ready ∨ s.bootState = .running → s.fatal = none) ∧
  (s.halted = true → s.bootState = .running)

/-- The invariant of the block. -/
structure State.Inv (s : State) : Prop where
  memory : Memory.wf s.mem = true
  spLive : s.SpLive
  fpBounded : s.FpBounded
  absentZero : s.AbsentZero
  map : s.MapMatchesBoot
  order : s.BootOrder

/-! ## The terms of the statements -/

/-- Check 2 of 40_register_file.md rule R138: the block steps for the engine's commands. -/
abbrev State.Running (s : State) : Prop := s.fatal = none ∧ s.halted = false ∧ s.bootState = .running

/-- Address `b` is one of the `n` bytes from `a`; addresses wrap (00_scope.md rule R7). -/
abbrev Within (b a : Word) (n : Nat) : Prop := (b - a).toNat < n

/-- A write of the byte at `a` changes it: it belongs to RAM, or to a ROM that is not yet protected. -/
abbrev State.Writable (s : State) (a : Word) : Prop := (s.regionAt a).map Region.readOnly = some false

/-- The components of the state that a frame names. -/
inductive Part where
  | d | a | pc | srHi | record | spSlots | currentSp | sfc | dfc | vbr | fp | fpcr | fpsr | acc | macMask | macsr | pending
  | root | ttr | tcr | mmusr | halted | bootState | fatal | mem | regions | ramSize | cfg | inbox | reply | reads
  deriving DecidableEq, Repr

/-- Two states agree on a component; on the memory, every byte reads the same. -/
def Part.Same (s t : State) : Part → Prop
  | .d => t.d = s.d
  | .a => t.a = s.a
  | .pc => t.pc = s.pc
  | .srHi => t.srHi = s.srHi
  | .record => t.ccOp = s.ccOp ∧ t.ccDest = s.ccDest ∧ t.ccSrc = s.ccSrc ∧ t.ccX = s.ccX
  | .spSlots => t.spSlots = s.spSlots
  | .currentSp => t.currentSp = s.currentSp
  | .sfc => t.sfc = s.sfc
  | .dfc => t.dfc = s.dfc
  | .vbr => t.vbr = s.vbr
  | .fp => t.fp = s.fp
  | .fpcr => t.fpcr = s.fpcr
  | .fpsr => t.fpsr = s.fpsr
  | .acc => t.acc = s.acc
  | .macMask => t.macMask = s.macMask
  | .macsr => t.macsr = s.macsr
  | .pending => t.pendingLevel = s.pendingLevel ∧ t.pendingVector = s.pendingVector
  | .root => t.root = s.root
  | .ttr => t.ttr = s.ttr
  | .tcr => t.tcr = s.tcr
  | .mmusr => t.mmusr = s.mmusr
  | .halted => t.halted = s.halted
  | .bootState => t.bootState = s.bootState
  | .fatal => t.fatal = s.fatal
  | .mem => ∀ b : Word, Memory.read t.mem b.toNat = Memory.read s.mem b.toNat
  | .regions => t.regions = s.regions
  | .ramSize => t.ramSize = s.ramSize
  | .cfg => t.cfg = s.cfg
  | .inbox => t.inbox = s.inbox
  | .reply => t.reply = s.reply
  | .reads => t.reads = s.reads

/-- Every component but the listed ones is unchanged from `s` to `t`. -/
def Unchanged (but : List Part) (s t : State) : Prop := ∀ p : Part, p ∉ but → p.Same s t

/-- The command word with fields `op`, `a`, `b` and then the operand words spell a command, on every machine and whatever
words follow (30_encoding.md rule R101). -/
def Spells (op a : Byte) (b : Half) (ops : List Word) (i : Instr) : Prop :=
  ∀ (fpBits : Nat) (rest : List Word), decode fpBits (commandWord op a b :: (ops ++ rest)) = .ok (i, rest)

/-- The slot exception entry switches to: S = 1 and M as it is (60_exceptions.md rule R287). -/
def State.entrySlot (s : State) : SpSlot := s.sel (s.readSr ||| 0x2000)

/-- The stack pointer exception entry pushes from. -/
def State.entrySp (s : State) : Word := s.getSpSlot s.entrySlot

/-- Every access of exception entry to vector `v` succeeds (60_exceptions.md rules R285 and R296). -/
abbrev State.EntryOk (s : State) (v : Byte) : Prop :=
  s.memAccessOk (s.xlateS (s.entrySp - 2)) 2 .write = true ∧
  s.memAccessOk (s.xlateS (s.entrySp - 6)) 4 .write = true ∧
  s.memAccessOk (s.xlateS (s.entrySp - 8)) 2 .write = true ∧
  s.memAccessOk (s.xlateS (s.vbr + BitVec.ofNat 32 (4 * v.toNat))) 4 .read = true

/-- The 32-bit word a read of address `a` finds when it is the `draw`-th read of the machine; inside RAM and ROM the draw does
not matter. -/
def State.wordAt (s : State) (draw : Nat) (a : Word) : Word :=
  BitVec.ofNat 32 (joinDigits 8 ({ s with reads := draw }.loadBytes a 4))

/-- The 16-bit word a read of address `a` finds. -/
def State.halfAt (s : State) (draw : Nat) (a : Word) : Half :=
  BitVec.ofNat 16 (joinDigits 8 ({ s with reads := draw }.loadBytes a 2))

/-! ## Legal fields -/

/-- Whether `A` is legal for this `OP` (30_encoding.md rules R104 and R106); no `A` is for an `OP` that is not in the table. -/
def legalA (op a : Byte) : Bool :=
  match op.toNat with
  | 0x01 | 0x02 | 0x03 | 0x04 | 0x0D | 0x0E | 0x40 => decide (a.toNat ≤ 7)
  | 0x0B | 0x0C => decide (a.toNat ≤ 2)
  | 0x20 => decide (a.toNat ≤ 18)
  | 0x42 =>
    [0, 2, 3, 4, 5, 6, 8, 9, 10, 11, 14, 15, 61].contains a.toNat || (decide (32 ≤ a.toNat) && decide (a.toNat ≤ 47))
  | 0x05 | 0x06 | 0x07 | 0x08 | 0x09 | 0x0A | 0x0F | 0x10 | 0x21 | 0x30 | 0x31 | 0x32 | 0x41 | 0x43 | 0x50 | 0x51 | 0x52
  | 0x53 => decide (a.toNat = 0)
  | _ => false

/-- Whether `B` is legal for this `OP` (30_encoding.md rule R104). -/
def legalB (op : Byte) (b : Half) : Bool :=
  match op.toNat with
  | 0x0F | 0x10 | 0x31 | 0x32 => true
  | 0x20 => decide (b.toNat ≤ 1)
  | 0x40 => decide (b.toNat ≤ 255)
  | _ => decide (b.toNat = 0)

/-! ## Exception entry -/

/-- The status register after entry with interrupt mask `newI`, field by field (60_exceptions.md rule R286). -/
structure EnteredStatus (s t : State) (newI : BitVec 3) : Prop where
  supervisor : t.supervisor = true
  noTrace1 : t.srHi.getLsbD 7 = false
  noTrace0 : t.srHi.getLsbD 6 = false
  stackMode : t.stackMode = s.stackMode
  reserved : t.srHi.getLsbD 3 = s.srHi.getLsbD 3
  mask : t.mask = newI
  flags : t.flags = s.flags
  known : t.ccOp = .flags

/-- What entry does to the stack pointers (60_exceptions.md rules R287 and R288): the supervisor slot is live and `pushed` bytes
lower, and no other slot and no other address register changes. -/
structure EnteredStack (s t : State) (pushed : Word) : Prop where
  live : t.currentSp = s.entrySlot
  pointer : t.a[7] = s.entrySp - pushed
  slots : ∀ k : SpSlot, k ≠ s.entrySlot → t.getSpSlot k = s.getSpSlot k
  others : ∀ n : Fin 8, n ≠ 7 → t.a[n] = s.a[n]

/-- `t` is the state after entry from `s` to vector `v` with interrupt mask `newI` (60_exceptions.md rules R285 to R289). The
memory is unchanged outside the three items of the frame. -/
structure Entered (s t : State) (v : Byte) (newI : BitVec 3) : Prop where
  status : EnteredStatus s t newI
  stack : EnteredStack s t 8
  handler : t.pc = t.wordAt s.reads (s.xlateS (s.vbr + BitVec.ofNat 32 (4 * v.toNat)))
  outcome : t.reply = .exception v
  memory : ∀ b : Word, ¬ Within b (s.xlateS (s.entrySp - 2)) 2 → ¬ Within b (s.xlateS (s.entrySp - 6)) 4 →
    ¬ Within b (s.xlateS (s.entrySp - 8)) 2 → Memory.read t.mem b.toNat = Memory.read s.mem b.toNat
  rest : Unchanged [.a, .pc, .srHi, .record, .spSlots, .currentSp, .mem, .reply, .reads] s t

/-- The three items of the frame entry pushes do not overlap where translation puts them. -/
abbrev State.FrameApart (s : State) : Prop := ∀ b : Word,
  (Within b (s.xlateS (s.entrySp - 2)) 2 → ¬ Within b (s.xlateS (s.entrySp - 6)) 4) ∧
  (Within b (s.xlateS (s.entrySp - 2)) 2 → ¬ Within b (s.xlateS (s.entrySp - 8)) 2) ∧
  (Within b (s.xlateS (s.entrySp - 6)) 4 → ¬ Within b (s.xlateS (s.entrySp - 8)) 2)

/-- The frame entry pushes lies on writable bytes, and its three items do not overlap. -/
structure State.FrameFits (s : State) : Prop where
  format : ∀ i < 2, s.Writable (s.xlateS (s.entrySp - 2) + BitVec.ofNat 32 i)
  pc : ∀ i < 4, s.Writable (s.xlateS (s.entrySp - 6) + BitVec.ofNat 32 i)
  status : ∀ i < 2, s.Writable (s.xlateS (s.entrySp - 8) + BitVec.ofNat 32 i)
  apart : s.FrameApart

/-! ## Cold start -/

/-- `t` is the state after a cold start from `s` (70_reset_and_hazards.md rule R331): the seeds, the word at 0 for the stack
pointer when `RESET_LOADS_SSP`, the word at 4 for `PC`, or a halt at the read that fails. -/
structure ColdStarted (s t : State) : Prop where
  running : t.bootState = .running
  vbr : t.vbr = 0
  status : t.readSr = s.cfg.initialSr &&& 0xFF1F
  known : t.ccOp = .flags
  live : t.currentSp = s.sel s.cfg.initialSr
  slots : ∀ k : SpSlot, k ≠ s.sel s.cfg.initialSr → t.getSpSlot k = s.getSpSlot k
  others : ∀ n : Fin 8, n ≠ 7 → t.a[n] = s.a[n]
  pointer : t.a[7] =
    if s.cfg.resetLoadsSsp && s.memAccessOk 0 4 .read then s.wordAt s.reads 0 else s.getSpSlot (s.sel s.cfg.initialSr)
  start : (s.cfg.resetLoadsSsp = true → s.memAccessOk 0 4 .read = true) → s.memAccessOk 4 4 .read = true →
    t.reply = .done [] ∧ t.halted = false ∧ t.pc = s.wordAt (if s.cfg.resetLoadsSsp then s.reads + 1 else s.reads) 4
  failure : (s.cfg.resetLoadsSsp = true ∧ s.memAccessOk 0 4 .read = false) ∨ s.memAccessOk 4 4 .read = false →
    t.reply = .halted ∧ t.halted = true ∧ t.pc = s.pc
  rest : Unchanged [.a, .pc, .srHi, .record, .spSlots, .currentSp, .vbr, .halted, .bootState, .reply, .reads] s t

/-! ## Kernel boot -/

/-- The bytes of a boot record, header first; a byte that is not written is absent (44_boot.md rules R239 to R242). -/
def BootRecord.bytes (r : BootRecord) : List (Option Byte) :=
  ((splitDigits 8 2 r.tag.toNat ++ splitDigits 8 2 r.size).map some) ++
    match r with
    | .single _ v => (splitDigits 8 4 v.toNat).map some
    | .dual _ b z => (splitDigits 8 4 b.toNat ++ splitDigits 8 4 z.toNat).map some
    | .string _ text => text.map some ++ [some 0] ++ (if text.length % 2 = 0 then [none] else [])
    | .last _ => []

/-- The initrd record, when there is an initrd of the given reported size (44_boot.md rules R238 and R245). -/
def ramdiskRecord (s : State) (size : Option Nat) : List BootRecord :=
  match size with
  | some n => [.dual s.cfg.tags.ramDisk (initrdBase s.ramSize n) (BitVec.ofNat 32 n)]
  | none => []

/-- Bytes at consecutive addresses; an absent byte is passed over. -/
def bytesAt (a : Word) : List (Option Byte) → List (Word × Byte)
  | [] => []
  | none :: vs => bytesAt (a + 1) vs
  | some v :: vs => (a, v) :: bytesAt (a + 1) vs

/-- The bytes of the segments of an image, in list order (44_boot.md rule R235). -/
def segmentBytes (segs : List (Word × Bytes)) : List (Word × Byte) :=
  segs.flatMap fun seg => bytesAt seg.1 (seg.2.map some)

/-- The initrd a boot loads, as its reported size and its bytes: none without an initrd path; with one, the loader must answer
and the bytes must fit between the base and the end of RAM (44_boot.md rules R244 and R245). -/
def State.InitrdIs (s : State) (initrd : Option (Nat × Bytes)) : Prop :=
  match s.cfg.initrdPath with
  | none => initrd = none
  | some path => ∃ size raw, s.cfg.loader.imageSizes.lookup path = some size ∧ s.cfg.loader.rawImages.lookup path = some raw ∧
      raw.length ≤ (s.ramSize - initrdBase s.ramSize size).toNat ∧ initrd = some (size, raw)

/-- The bytes of the initrd at its place. -/
def initrdBytes (ramSize : Word) (initrd : Option (Nat × Bytes)) : List (Word × Byte) :=
  match initrd with
  | none => []
  | some (size, raw) => bytesAt (initrdBase ramSize size) (raw.map some)

/-- Every byte BOOT_KERNEL writes, in order (44_boot.md rule R234): the segments, the entry point, the leading records, the
initrd, and the records after them. -/
def bootBytes (s : State) (image : ExecImage) (initrd : Option (Nat × Bytes)) : List (Word × Byte) :=
  let first := (leadingRecords s.cfg s.ramSize).flatMap BootRecord.bytes
  let p := parametersBase image.highest
  segmentBytes image.segs ++
  bytesAt Config.resetVectorAddr ((splitDigits 8 4 image.entry.toNat).map some) ++
  bytesAt p first ++
  initrdBytes s.ramSize initrd ++
  bytesAt (p + BitVec.ofNat 32 first.length)
    ((ramdiskRecord s (initrd.map Prod.fst) ++ [BootRecord.last s.cfg.tags.last]).flatMap BootRecord.bytes)

/-- What an address holds after byte writes in order: the last byte written there, else what it held. -/
def afterWrites (writes : List (Word × Byte)) (before : Byte) (b : Word) : Byte :=
  match (writes.filter fun w => w.1 = b).getLast? with
  | some w => w.2
  | none => before

/-! ## The writes of a kernel boot, as first address and width -/

/-- `n` one-byte writes from `a`. -/
def byteWrites (a : Word) (n : Nat) : List (Word × Nat) := (List.range n).map fun i => (a + BitVec.ofNat 32 i, 1)

/-- The writes of a record at `p`, in order (44_boot.md rules R239 to R242). -/
def BootRecord.writes (p : Word) (r : BootRecord) : List (Word × Nat) :=
  [(p, 2), (p + 2, 2)] ++
    match r with
    | .single _ _ => [(p + 4, 4)]
    | .dual _ _ _ => [(p + 4, 4), (p + 8, 4)]
    | .string _ text => byteWrites (p + 4) text.length ++ [(p + 4 + BitVec.ofNat 32 text.length, 1)]
    | .last _ => []

/-- The writes of records one after the other from `p`. -/
def recordWrites (p : Word) : List BootRecord → List (Word × Nat)
  | [] => []
  | r :: rs => r.writes p ++ recordWrites (p + BitVec.ofNat 32 r.size) rs

/-- The writes before the initrd: the segments, the entry point, the leading records (44_boot.md rule R234). -/
def leadingWrites (s : State) (image : ExecImage) : List (Word × Nat) :=
  (image.segs.flatMap fun seg => byteWrites seg.1 seg.2.length) ++ [(Config.resetVectorAddr, 4)] ++
    recordWrites (parametersBase image.highest) (leadingRecords s.cfg s.ramSize)

/-- The writes after the initrd: the RAMDISK record when there is an initrd, and the LAST record. -/
def trailingWrites (s : State) (image : ExecImage) (size : Option Nat) : List (Word × Nat) :=
  recordWrites (parametersBase image.highest + BitVec.ofNat 32 ((leadingRecords s.cfg s.ramSize).map BootRecord.size).sum)
    (ramdiskRecord s size ++ [.last s.cfg.tags.last])

/-- The address of the first of these writes that fails, if one does. -/
def State.failedWrite (s : State) (ws : List (Word × Nat)) : Option Word :=
  (ws.find? fun w => !s.memAccessOk w.1 w.2 .write).map Prod.fst

/-- The initrd at a path loads: the loader has its size and its bytes, they fit between the base and the end of RAM, and each
of them can be written (44_boot.md rules R231, R244 and R245). -/
structure State.InitrdLoads (s : State) (path : Bytes) (size : Nat) (raw : Bytes) : Prop where
  sized : s.cfg.loader.imageSizes.lookup path = some size
  image : s.cfg.loader.rawImages.lookup path = some raw
  fits : raw.length ≤ (s.ramSize - initrdBase s.ramSize size).toNat
  accepted : ∀ i < raw.length, s.memAccessOk (initrdBase s.ramSize size + BitVec.ofNat 32 i) 1 .write = true

/-- The reported size of the initrd of a boot that has passed the place of the initrd: none without an initrd path. -/
def State.InitrdPassed (s : State) (size : Option Nat) : Prop :=
  match s.cfg.initrdPath with
  | none => size = none
  | some path => ∃ n raw, s.InitrdLoads path n raw ∧ size = some n

/-- A kernel boot that ended with a fatal error. -/
structure State.BootDied (t : State) (r : FatalReason) : Prop where
  prepared : t.bootState = .kernelBootPrepared
  fatal : t.fatal = some r
  reply : t.reply = .fatal r

end Sys2Proof.Machine
end

