-- ==== Sys2Proof/Certificates/Slice0/Obligations.lean ====
section
/-! DEFINITION. The statements about the block, from the numbered rules of spec/. -/

open Sys2Proof Sys2Proof.Machine

/-! ## Encoding -/

/-- Command words written out from the rows of 30_encoding.md rule R104 decode to the commands they stand for. -/
def Obligations.WrittenOutWordsDecode : Prop :=
  decode 80 [0x01050000] = .ok (.rdD 5, []) ∧
  decode 80 [0x02030000, 0x12345678] = .ok (.wrD 3 0x12345678, []) ∧
  decode 80 [0x0C010000, 0x00FF0000] = .ok (.wrSp .user 0x00FF0000, []) ∧
  decode 80 [0x0E020000, 0x00003FFF, 0x80000000, 0x00000001] = .ok (.wrFp 2 0x3FFF8000000000000001, []) ∧
  decode 80 [0x1000001B, 0x00000001, 0x80000000] = .ok (.wrUr 0x1B 0x0000000180000000, []) ∧
  decode 80 [0x20040001, 0x00000080, 0x0000007F] = .ok (.ccSet (.add .byte) true 0x80 0x7F, []) ∧
  decode 80 [0x32000011, 0x00200000] = .ok (.wrCr 0x011 0x00200000, []) ∧
  decode 80 [0x4003001B] = .ok (.intPend 3 27, []) ∧
  decode 80 [0x42200000, 0x00001002] = .ok (.raise (.trap 0) 0x1002, []) ∧
  decode 80 [0x50000000, 0x08000000] = .ok (.mapRam 0x08000000, [])

/-- Decoding the words of a well-formed command gives the command back and leaves the words after it, whatever the width of
the floating-point registers. -/
def Obligations.DecodeInvertsEncode : Prop :=
  ∀ (fpBits : Nat) (i : Instr) (rest : List Word), i.wellFormed fpBits = true →
    decode fpBits (encode fpBits i ++ rest) = .ok (i, rest)

/-- Words that decode are the words of the command they decode to, and that command is well-formed. -/
def Obligations.EncodeInvertsDecode : Prop :=
  ∀ (fpBits : Nat) (ws rest : List Word) (i : Instr), decode fpBits ws = .ok (i, rest) →
    i.wellFormed fpBits = true ∧ encode fpBits i ++ rest = ws

/-- Exactly the legal command words that all their operand words follow decode (30_encoding.md rules R103, R104, R106, R108 and
R111): the number of operand words is the one of the "Ops" column, and no bit of a WR_FP operand lies above the register. -/
def Obligations.DecodableWords : Prop :=
  ∀ (fpBits : Nat) (op a : Byte) (b : Half) (ops : List Word),
    let count : Nat :=
      if op ∈ [0x02, 0x04, 0x06, 0x08, 0x0A, 0x0C, 0x32, 0x42, 0x50] then 1
      else if op = 0x0E then (fpBits + 31) / 32
      else if op = 0x10 then (if 0x18 ≤ b.toNat ∧ b.toNat ≤ 0x1B then 2 else 1)
      else if op = 0x20 then 2
      else 0
    (∃ i, decode fpBits (commandWord op a b :: ops) = .ok (i, [])) ↔
      legalA op a = true ∧ legalB op b = true ∧ ops.length = count ∧ (op = 0x0E → joinDigits 32 ops < 2 ^ fpBits)

/-- The kind codes of CC_SET and of RAISE are those of 41_condition_codes.md rule R150 and 60_exceptions.md rule R280, and the
code of a RAISE kind is its vector number (30_encoding.md rules R105 and R106, 60_exceptions.md rule R281). The spec marks which
kind has which number as its own: "[from general knowledge, not in source] The vector numbers are those of the 680x0 exception
vector table" (log entry 19). -/
def Obligations.KindCodes : Prop :=
  (∀ (x : Bool) (dest src : Word), ∀ p ∈ [
      (0x00, CcKind.flags), (0x01, .logic .byte), (0x02, .logic .word), (0x03, .logic .long), (0x04, .add .byte),
      (0x05, .add .word), (0x06, .add .long), (0x07, .sub .byte), (0x08, .sub .word), (0x09, .sub .long),
      (0x0A, .addx .byte), (0x0B, .addx .word), (0x0C, .addx .long), (0x0D, .subx .byte), (0x0E, .subx .word),
      (0x0F, .subx .long), (0x10, .shift .byte), (0x11, .shift .word), (0x12, .shift .long)],
    Spells 0x20 p.1 (if x then 1 else 0) [dest, src] (.ccSet p.2 x dest src)) ∧
  (∀ retpc : Word, ∀ p ∈ [
      (0x00, Kind.reset), (0x02, .access), (0x03, .address), (0x04, .illegal), (0x05, .div0), (0x06, .chk),
      (0x08, .privilege), (0x09, .trace), (0x0A, .lineA), (0x0B, .lineF), (0x0E, .format), (0x0F, .uninitialized),
      (0x3D, .unsupported)],
    Spells 0x42 p.1 0 [retpc] (.raise p.2 retpc) ∧ vectorOf p.2 = p.1) ∧
  (∀ (n : Fin 16) (retpc : Word),
    Spells 0x42 (BitVec.ofNat 8 (32 + n.val)) 0 [retpc] (.raise (.trap n) retpc) ∧
      vectorOf (.trap n) = BitVec.ofNat 8 (32 + n.val))

/-! ## Steps -/

/-- When the words issued begin with those of a well-formed command, the step performs that command on the state from which
which they are gone; when nothing is issued there is no step; and a list that ends inside a command waits. The model's choice:
the list of issued words is log entry 1, and "no step" as the faults `noCommand` and `awaitingOperands` is log entry 9. -/
def Obligations.StepPerformsTheNextCommand : Prop :=
  (∀ (s : State) (i : Instr) (rest : List Word), i.wellFormed s.cfg.fpBits = true →
    s.inbox = encode s.cfg.fpBits i ++ rest → step s = exec i { s with inbox := rest }) ∧
  (∀ s : State, s.inbox = [] → step s = .fault .noCommand) ∧
  (∀ (s : State) (i : Instr) (k : Nat), i.wellFormed s.cfg.fpBits = true → 0 < k →
    k < (encode s.cfg.fpBits i).length → s.inbox = (encode s.cfg.fpBits i).take k → step s = .fault .awaitingOperands)

/-- A command word with an illegal field is refused (cases (a) to (d)), so is a WR_FP whose first operand has a bit above the
register (case (f)), and so is a boot command in a boot state that does not accept it (case (e)); a refusal has no next
state. What becomes of the refused words is the model's choice, log entry 24, and not stated here. -/
def Obligations.IllegalCommandsRefused : Prop :=
  (∀ (s : State) (op a : Byte) (b : Half) (rest : List Word), s.inbox = commandWord op a b :: rest →
    legalA op a = false ∨ legalB op b = false → ∃ e, step s = .refused (.encoding e)) ∧
  (∀ (s : State) (n : Fin 8) (ops rest : List Word), s.inbox = commandWord 0x0E (BitVec.ofNat 8 n.val) 0 :: (ops ++ rest) →
    ops.length = (s.cfg.fpBits + 31) / 32 → 2 ^ s.cfg.fpBits ≤ joinDigits 32 ops →
    ∃ e, step s = .refused (.encoding e)) ∧
  (∀ (s : State) (size : Word), s.fatal = none → s.bootState ≠ .idle →
    exec (.mapRam size) s = .refused (.bootState s.bootState)) ∧
  (∀ s : State, s.fatal = none → s.bootState ≠ .ramMapped →
    exec .bootKernel s = .refused (.bootState s.bootState) ∧ exec .bootRom s = .refused (.bootState s.bootState)) ∧
  (∀ s : State, s.fatal = none → s.bootState = .ramMapped →
    (s.cfg.kernelPath = none → exec .bootKernel s = .refused .bootPath) ∧
    (s.cfg.kernelPath.isSome = true → exec .bootRom s = .refused .bootPath)) ∧
  (∀ s : State, s.fatal = none → ¬ (s.bootState = .ready ∨ (s.bootState = .running ∧ s.halted = true)) →
    exec .coldStart s = .refused (.bootState s.bootState))

/-- The block is not halted after construction; an entry whose access fails halts it; while it is halted INT_PEND and COLD_START
have a step and no other command has one (10_state.md rule R46). -/
def Obligations.HaltedBlockIsStuck : Prop :=
  (∀ (setup : Setup) (draw : Memory), (State.construct setup draw).halted = false) ∧
  (∀ (s : State) (cause : Cause) (v : Byte) (retpc : Word) (newI : BitVec 3), ¬ s.EntryOk v →
    (s.enter cause v retpc newI).halted = true) ∧
  ∀ s : State, s.fatal = none → s.halted = true →
    (∀ level vector, ∃ t, exec (.intPend level vector) s = .next t) ∧
    (s.bootState = .running → ∃ t, exec .coldStart s = .next t) ∧
    (∀ i : Instr, i.privClass ≠ .host → exec i s = .fault .halted) ∧
    (∀ i : Instr, i ≠ .coldStart → (∀ level vector, i ≠ .intPend level vector) → ∀ t, exec i s ≠ .next t)

/-- A machine of a known model is constructed in `Idle` with no fatal error; once `fatal` is set, no command has a step and the
outcome is `Fatal` (10_state.md rule R47). -/
def Obligations.FatalIsTerminal : Prop :=
  (∀ (setup : Setup) (draw : Memory) (m : CpuModel),
    setup.models.find? (fun m => m.name == setup.cpuModel.getD setup.defaultCpuModel) = some m →
    (State.construct setup draw).bootState = .idle ∧ (State.construct setup draw).fatal = none) ∧
  ∀ (s : State) (r : FatalReason) (i : Instr), s.fatal = some r → exec i s = .fault (.fatal r)

/-- Before cold start no command of the engine has a step; afterwards every one of them has a next state. -/
def Obligations.EngineWaitsForColdStart : Prop :=
  (∀ (s : State) (i : Instr), i.privClass ≠ .host → s.fatal = none → s.halted = false → s.bootState ≠ .running →
    exec i s = .fault (.notRunning s.bootState)) ∧
  (∀ (s : State) (i : Instr), i.privClass ≠ .host → s.Running → ∃ t, exec i s = .next t)

/-! ## Data and address registers, program counter -/

/-- RD_D answers `D[n]` and WR_D writes it, and neither changes anything else (40_register_file.md rules R120 and R121). -/
def Obligations.DataRegisterAccess : Prop :=
  (∀ n : Fin 8, Spells 0x01 (BitVec.ofNat 8 n.val) 0 [] (.rdD n)) ∧
  (∀ (n : Fin 8) (v : Word), Spells 0x02 (BitVec.ofNat 8 n.val) 0 [v] (.wrD n v)) ∧
  ∀ s : State, s.Running →
    (∀ n : Fin 8, ∃ t, exec (.rdD n) s = .next t ∧ t.reply = .done [s.d[n]] ∧ Unchanged [.reply] s t) ∧
    (∀ (n : Fin 8) (v : Word), ∃ t, exec (.wrD n v) s = .next t ∧ t.reply = .done [] ∧ t.d[n] = v ∧
      (∀ m : Fin 8, m ≠ n → t.d[m] = s.d[m]) ∧ Unchanged [.d, .reply] s t)

/-- RD_A answers `A[n]` and WR_A writes it; `A[7]` is the live slot's value, and a write of it reaches the stored slot at the
next switch (40_register_file.md rules R122 and R123). -/
def Obligations.AddressRegisterAccess : Prop :=
  (∀ n : Fin 8, Spells 0x03 (BitVec.ofNat 8 n.val) 0 [] (.rdA n)) ∧
  (∀ (n : Fin 8) (v : Word), Spells 0x04 (BitVec.ofNat 8 n.val) 0 [v] (.wrA n v)) ∧
  ∀ s : State, s.Running →
    (∀ n : Fin 8, ∃ t, exec (.rdA n) s = .next t ∧ t.reply = .done [s.a[n]] ∧ Unchanged [.reply] s t) ∧
    (∃ t, exec (.rdA 7) s = .next t ∧ t.reply = .done [s.getSpSlot s.currentSp]) ∧
    (∀ (n : Fin 8) (v : Word), ∃ t, exec (.wrA n v) s = .next t ∧ t.reply = .done [] ∧ t.a[n] = v ∧
      (∀ m : Fin 8, m ≠ n → t.a[m] = s.a[m]) ∧ Unchanged [.a, .reply] s t ∧
      (n = 7 → t.getSpSlot t.currentSp = v ∧ t.switchSp.spSlots.get s.currentSp = v))

/-- RD_PC answers `PC` and WR_PC stores its operand in it as given, with no alignment check (40_register_file.md rules R124 and
R125). -/
def Obligations.ProgramCounterAccess : Prop :=
  Spells 0x05 0 0 [] .rdPc ∧ (∀ v : Word, Spells 0x06 0 0 [v] (.wrPc v)) ∧
  ∀ s : State, s.Running →
    (∃ t, exec .rdPc s = .next t ∧ t.reply = .done [s.pc] ∧ Unchanged [.reply] s t) ∧
    (∀ v : Word, ∃ t, exec (.wrPc v) s = .next t ∧ t.reply = .done [] ∧ t.pc = v ∧ Unchanged [.pc, .reply] s t)

/-- `PC` changes by WR_PC, RTE, exception entry and cold start only (10_state.md rule R24). -/
def Obligations.ProgramCounterWriters : Prop :=
  ∀ (i : Instr) (s t : State), exec i s = .next t → t.pc ≠ s.pc →
    (∃ v, i = .wrPc v) ∨ i = .rte ∨ i = .coldStart ∨ (∃ r, i = .raise .reset r) ∨ (∃ v, t.reply = .exception v)

/-! ## Status register and condition codes -/

/-- RD_SR answers `sr_hi`, three zero bits and the five flags, zero-extended; RD_CCR and CC_FLAGS answer the five flags; the
flags stay what they were (40_register_file.md rules R126 and R128, 41_condition_codes.md rule R164). -/
def Obligations.StatusReads : Prop :=
  Spells 0x07 0 0 [] .rdSr ∧ Spells 0x09 0 0 [] .rdCcr ∧ Spells 0x21 0 0 [] .ccFlags ∧
  ∀ s : State, s.Running →
    (∃ t, exec .rdSr s = .next t ∧ Unchanged [.reply] s t ∧
      t.reply = .done [(s.srHi ++ (0 : BitVec 3) ++ s.flags).setWidth 32]) ∧
    (∃ t, exec .rdCcr s = .next t ∧ t.reply = .done [s.flags.setWidth 32] ∧ t.flags = s.flags ∧ Unchanged [.reply] s t) ∧
    (∃ t, exec .ccFlags s = .next t ∧ t.reply = .done [s.flags.setWidth 32] ∧ t.flags = s.flags ∧ Unchanged [.reply] s t)

/-- WR_SR in supervisor mode stores bits 15:8, takes the flags from bits 4:0 as kind FLAGS, drops the other bits, and makes the
slot the new status selects the live one; in user mode it raises PRIVILEGE (40_register_file.md rule R127). -/
def Obligations.StatusWrite : Prop :=
  (∀ v : Word, Spells 0x08 0 0 [v] (.wrSr v)) ∧
  ∀ (s : State) (v : Word), s.Running →
    (s.supervisor = true → ∃ t, exec (.wrSr v) s = .next t ∧ t.reply = .done [] ∧ t.srHi = v.extractLsb' 8 8 ∧
      t.ccOp = .flags ∧ t.flags = v.extractLsb' 0 5 ∧ t.readSr = v.setWidth 16 &&& 0xFF1F ∧
      t.currentSp = s.sel (v.setWidth 16) ∧ t.a[7] = s.getSpSlot (s.sel (v.setWidth 16)) ∧
      (∀ k : SpSlot, t.getSpSlot k = s.getSpSlot k) ∧ (∀ n : Fin 8, n ≠ 7 → t.a[n] = s.a[n]) ∧
      Unchanged [.srHi, .record, .spSlots, .currentSp, .a, .reply] s t) ∧
    (s.supervisor = false → exec (.wrSr v) s = .next (s.raiseSync .privilege s.pc))

/-- WR_CCR sets the five flags from bits 4:0 of its operand, as kind FLAGS, and changes nothing else (40_register_file.md rule
R129, 10_state.md rule R30). -/
def Obligations.ConditionCodeWrite : Prop :=
  (∀ v : Word, Spells 0x0A 0 0 [v] (.wrCcr v)) ∧
  ∀ (s : State) (v : Word), s.Running →
    ∃ t, exec (.wrCcr v) s = .next t ∧ t.reply = .done [] ∧ t.ccOp = .flags ∧ t.ccDest = (v.extractLsb' 0 4).setWidth 32 ∧
      t.ccSrc = 0 ∧ t.ccX = v.getLsbD 4 ∧ t.flags = v.extractLsb' 0 5 ∧ Unchanged [.record, .reply] s t

/-- CC_SET replaces the record by its operands and changes nothing else (41_condition_codes.md rule R163). -/
def Obligations.ConditionCodeRecord : Prop :=
  (∀ (kind : CcKind) (x : Bool) (dest src : Word),
    Spells 0x20 (BitVec.ofNat 8 kind.code) (if x then 1 else 0) [dest, src] (.ccSet kind x dest src)) ∧
  ∀ (s : State) (kind : CcKind) (x : Bool) (dest src : Word), s.Running →
    ∃ t, exec (.ccSet kind x dest src) s = .next t ∧ t.reply = .done [] ∧ t.ccOp = kind ∧ t.ccDest = dest ∧ t.ccSrc = src ∧
      t.ccX = x ∧ Unchanged [.record, .reply] s t

/-- The flags of the kinds FLAGS, LOGIC and SHIFT, at every width: X is recorded, N and Z are those of the result cut to the
width, V is 0, C is 0 or tells whether the source field is not 0 (41_condition_codes.md rules R154, R155 and R160). -/
def Obligations.PlainFlags : Prop :=
  (∀ s : State, s.ccOp = .flags → s.flags = BitVec.ofBool s.ccX ++ s.ccDest.extractLsb' 0 4) ∧
  (∀ (s : State) (w : Width),
    let r := s.ccDest.toNat % 2 ^ widthBits w
    let n := BitVec.ofBool (decide (2 ^ (widthBits w - 1) ≤ r))
    let z := BitVec.ofBool (decide (r = 0))
    (s.ccOp = .logic w → s.flags = BitVec.ofBool s.ccX ++ n ++ z ++ (0 : BitVec 1) ++ (0 : BitVec 1)) ∧
    (s.ccOp = .shift w →
      s.flags = BitVec.ofBool s.ccX ++ n ++ z ++ (0 : BitVec 1) ++ BitVec.ofBool (decide (s.ccSrc ≠ 0))))

/-- The flags derived for the ADD, SUB, ADDX and SUBX kinds equal those of the two's-complement operation at the width: for
W-bit operands `a` and `b`, and a record that holds the result and `b`, whatever the bits above the width. X is
recorded (41_condition_codes.md rule R161, which the spec marks "[derived: from rules R156 to R159]"). -/
def Obligations.FlagsMatchReferenceAlu : Prop :=
  ∀ (s : State) (w : Width) (a b : BitVec (widthBits w)),
    let half : Int := 2 ^ (widthBits w - 1)
    let out (i : Int) : Bool := decide (i < -half ∨ half ≤ i)
    let flagsAre (r : BitVec (widthBits w)) (v c : Bool) : Prop :=
      s.ccDest.setWidth (widthBits w) = r → s.ccSrc.setWidth (widthBits w) = b →
        s.flags = BitVec.ofBool s.ccX ++ BitVec.ofBool r.msb ++ BitVec.ofBool (r == 0) ++ BitVec.ofBool v ++ BitVec.ofBool c
    (s.ccOp = .add w → flagsAre (a + b) (out (a.toInt + b.toInt)) (decide (2 ^ widthBits w ≤ a.toNat + b.toNat))) ∧
    (s.ccOp = .addx w →
      flagsAre (a + b + 1) (out (a.toInt + b.toInt + 1)) (decide (2 ^ widthBits w ≤ a.toNat + b.toNat + 1))) ∧
    (s.ccOp = .sub w → flagsAre (a - b) (out (a.toInt - b.toInt)) (decide (a.toNat < b.toNat))) ∧
    (s.ccOp = .subx w → flagsAre (a - b - 1) (out (a.toInt - b.toInt - 1)) (decide (a.toNat ≤ b.toNat)))

/-! ## Stack-pointer slots -/

/-- RD_SP answers a slot and WR_SP writes one, the live one through `A[7]`; in user mode they raise PRIVILEGE
(40_register_file.md rules R130 and R131, 10_state.md rule R38). -/
def Obligations.StackSlotAccess : Prop :=
  (∀ (v : Word), ∀ p ∈ [(0x00, SpSlot.supervisor), (0x01, .user), (0x02, .interrupt)],
    Spells 0x0B p.1 0 [] (.rdSp p.2) ∧ Spells 0x0C p.1 0 [v] (.wrSp p.2 v)) ∧
  ∀ (s : State) (k : SpSlot) (v : Word), s.Running →
    (s.supervisor = true →
      (∃ t, exec (.rdSp k) s = .next t ∧ Unchanged [.reply] s t ∧
        (k = s.currentSp → t.reply = .done [s.a[7]]) ∧ (k ≠ s.currentSp → t.reply = .done [s.spSlots.get k])) ∧
      ∃ t, exec (.wrSp k v) s = .next t ∧ t.reply = .done [] ∧ (∀ n : Fin 8, n ≠ 7 → t.a[n] = s.a[n]) ∧
        (k = s.currentSp → t.a[7] = v ∧ Unchanged [.a, .reply] s t) ∧
        (k ≠ s.currentSp → t.spSlots.get k = v ∧ (∀ j : SpSlot, j ≠ k → t.spSlots.get j = s.spSlots.get j) ∧
          Unchanged [.spSlots, .reply] s t)) ∧
    (s.supervisor = false →
      exec (.rdSp k) s = .next (s.raiseSync .privilege s.pc) ∧ exec (.wrSp k v) s = .next (s.raiseSync .privilege s.pc))

/-- A stack-pointer switch saves the outgoing pointer, loads the slot the status register selects, and moves no slot's value;
when the selection does not change it changes no visible value; after a change away and back `A[7]` is what it was
(10_state.md rule R39). -/
def Obligations.StackSwitch : Prop :=
  (∀ s : State, s.switchSp.currentSp = s.sel s.readSr ∧ s.switchSp.spSlots.get s.currentSp = s.a[7] ∧
    s.switchSp.a[7] = s.getSpSlot (s.sel s.readSr) ∧ (∀ k : SpSlot, s.switchSp.getSpSlot k = s.getSpSlot k) ∧
    (∀ n : Fin 8, n ≠ 7 → s.switchSp.a[n] = s.a[n]) ∧
    (s.sel s.readSr = s.currentSp → s.switchSp.a = s.a ∧ s.switchSp.currentSp = s.currentSp ∧
      ∀ k : SpSlot, k ≠ s.currentSp → s.switchSp.spSlots.get k = s.spSlots.get k) ∧
    Unchanged [.a, .spSlots, .currentSp] s s.switchSp) ∧
  (∀ (s : State) (away back : Half), s.sel back = s.currentSp →
    (s.setSr away).spSlots.get s.currentSp = s.a[7] ∧ ((s.setSr away).setSr back).a[7] = s.a[7])

/-- The slot a status value selects: on a classic model USER when S = 0, SUPERVISOR when S = M = 1, INTERRUPT when S = 1 and
M = 0; on the others USER when S = 0 and SUPERVISOR when S = 1 (10_state.md rules R36 and R37; the spec marks the classic rule
as its own: "[from general knowledge, not in source] This is the 68020-family master/interrupt stack rule"). -/
def Obligations.SlotSelection : Prop :=
  ∀ (s : State) (sr : Half),
    (sr.getLsbD 13 = false → s.sel sr = .user) ∧
    (sr.getLsbD 13 = true → s.has .m68000 = false → s.sel sr = .supervisor) ∧
    (sr.getLsbD 13 = true → s.has .m68000 = true → sr.getLsbD 12 = true → s.sel sr = .supervisor) ∧
    (sr.getLsbD 13 = true → s.has .m68000 = true → sr.getLsbD 12 = false → s.sel sr = .interrupt)

/-! ## Floating-point and unit registers -/

/-- With an FPU, RD_FP answers a register as F words and WR_FP stores the value of its operand words; without one both raise
UNSUPPORTED (40_register_file.md rules R132 and R133). -/
def Obligations.FloatingPointAccess : Prop :=
  (∀ n : Fin 8, Spells 0x0D (BitVec.ofNat 8 n.val) 0 [] (.rdFp n)) ∧
  (∀ (fpBits : Nat) (n : Fin 8) (ops rest : List Word), ops.length = (fpBits + 31) / 32 →
    decode fpBits (commandWord 0x0E (BitVec.ofNat 8 n.val) 0 :: (ops ++ rest)) =
      if joinDigits 32 ops < 2 ^ fpBits then .ok (.wrFp n (joinDigits 32 ops), rest) else .error .fpHighBits) ∧
  ∀ (s : State) (n : Fin 8), s.Running →
    (s.has .fpu = true →
      (∃ t ws, exec (.rdFp n) s = .next t ∧ t.reply = .done ws ∧ ws.length = (s.cfg.fpBits + 31) / 32 ∧
        (s.fp[n] < 2 ^ s.cfg.fpBits → joinDigits 32 ws = s.fp[n]) ∧ Unchanged [.reply] s t) ∧
      ∀ v : Nat, v < 2 ^ s.cfg.fpBits → ∃ t, exec (.wrFp n v) s = .next t ∧ t.reply = .done [] ∧ t.fp[n] = v ∧
        (∀ m : Fin 8, m ≠ n → t.fp[m] = s.fp[m]) ∧ Unchanged [.fp, .reply] s t) ∧
    (s.has .fpu = false →
      exec (.rdFp n) s = .next (s.raiseSync .unsupported s.pc) ∧
      ∀ v : Nat, exec (.wrFp n v) s = .next (s.raiseSync .unsupported s.pc))

/-- RD_UR answers the unit register its number names, one word or the two of an accumulator; it raises UNSUPPORTED for a
register the machine lacks and ILLEGAL for a number that names none (40_register_file.md rules R134, R136 and R137). -/
def Obligations.UnitRegisterReads : Prop :=
  (∀ urid : Half, Spells 0x0F 0 urid [] (.rdUr urid)) ∧
  ∀ s : State, s.Running →
    let answers (urid : Half) (present : Bool) (ws : List Word) : Prop :=
      (present = true → ∃ t, exec (.rdUr urid) s = .next t ∧ t.reply = .done ws ∧ Unchanged [.reply] s t) ∧
      (present = false → exec (.rdUr urid) s = .next (s.raiseSync .unsupported s.pc))
    let mac := s.has .mac || s.has .emac
    answers 0x00 (s.has .fpu) [s.fpcr] ∧ answers 0x01 (s.has .fpu) [s.fpsr] ∧
    answers 0x10 mac [s.macsr] ∧ answers 0x11 mac [s.macMask] ∧
    (∀ i : Fin 4, answers (BitVec.ofNat 16 (0x18 + i.val)) (s.has .emac || (s.has .mac && i == 0))
      [(s.acc[i] >>> 32).setWidth 32, s.acc[i].setWidth 32]) ∧
    ∀ urid : Half, urid.toNat ∉ [0x00, 0x01, 0x10, 0x11, 0x18, 0x19, 0x1A, 0x1B] →
      exec (.rdUr urid) s = .next (s.raiseSync .illegal s.pc)

/-- WR_UR stores every bit of its operand in the unit register its number names; it raises UNSUPPORTED and ILLEGAL as RD_UR does
(40_register_file.md rules R135, R136 and R137). -/
def Obligations.UnitRegisterWrites : Prop :=
  (∀ (urid : Half) (v : Word), ¬ (0x18 ≤ urid.toNat ∧ urid.toNat ≤ 0x1B) →
    Spells 0x10 0 urid [v] (.wrUr urid (v.setWidth 64))) ∧
  (∀ (urid : Half) (high low : Word), 0x18 ≤ urid.toNat → urid.toNat ≤ 0x1B →
    Spells 0x10 0 urid [high, low] (.wrUr urid (high ++ low))) ∧
  ∀ (s : State) (v : Acc), s.Running →
    let stores (urid : Half) (present : Bool) (changed : Part) (stored : State → Prop) : Prop :=
      (present = true →
        ∃ t, exec (.wrUr urid v) s = .next t ∧ t.reply = .done [] ∧ stored t ∧ Unchanged [changed, .reply] s t) ∧
      (present = false → exec (.wrUr urid v) s = .next (s.raiseSync .unsupported s.pc))
    let mac := s.has .mac || s.has .emac
    stores 0x00 (s.has .fpu) .fpcr (fun t => t.fpcr = v.setWidth 32) ∧
    stores 0x01 (s.has .fpu) .fpsr (fun t => t.fpsr = v.setWidth 32) ∧
    stores 0x10 mac .macsr (fun t => t.macsr = v.setWidth 32) ∧
    stores 0x11 mac .macMask (fun t => t.macMask = v.setWidth 32) ∧
    (∀ i : Fin 4, stores (BitVec.ofNat 16 (0x18 + i.val)) (s.has .emac || (s.has .mac && i == 0)) .acc
      (fun t => t.acc[i] = v ∧ ∀ j : Fin 4, j ≠ i → t.acc[j] = s.acc[j])) ∧
    ∀ urid : Half, urid.toNat ∉ [0x00, 0x01, 0x10, 0x11, 0x18, 0x19, 0x1A, 0x1B] →
      exec (.wrUr urid v) s = .next (s.raiseSync .illegal s.pc)

/-! ## Control registers, contexts and privilege -/

/-- RD_CR in supervisor mode answers the control register its number names, zero-extended; the checks are PRIVILEGE, then
ILLEGAL, then UNSUPPORTED (42_mmu_privilege.md rules R193 and R194). -/
def Obligations.ControlRegisterReads : Prop :=
  (∀ crid : Half, Spells 0x31 0 crid [] (.rdCr crid)) ∧
  ∀ s : State, s.Running →
    let answers (crid : Half) (present : Bool) (w : Word) : Prop :=
      (present = true → ∃ t, exec (.rdCr crid) s = .next t ∧ t.reply = .done [w] ∧ Unchanged [.reply] s t) ∧
      (present = false → exec (.rdCr crid) s = .next (s.raiseSync .unsupported s.pc))
    (s.supervisor = false → ∀ crid, exec (.rdCr crid) s = .next (s.raiseSync .privilege s.pc)) ∧
    (s.supervisor = true →
      answers 0x000 true (s.sfc.setWidth 32) ∧ answers 0x001 true (s.dfc.setWidth 32) ∧ answers 0x002 true s.vbr ∧
      answers 0x003 (s.has .mmu) s.tcr ∧ answers 0x004 (s.has .mmu) s.mmusr ∧
      (∀ c : Fin 2, answers (BitVec.ofNat 16 (0x010 + c.val)) (s.has .mmu) s.root[c]) ∧
      (∀ (c : Fin 2) (j : Fin 4), answers (BitVec.ofNat 16 (0x020 + 4 * c.val + j.val)) (s.has .mmu) s.ttr[c][j]) ∧
      ∀ crid : Half,
        crid.toNat ∉ [0, 1, 2, 3, 4, 0x10, 0x11, 0x20, 0x21, 0x22, 0x23, 0x24, 0x25, 0x26, 0x27] →
        exec (.rdCr crid) s = .next (s.raiseSync .illegal s.pc))

/-- WR_CR in supervisor mode stores its operand in the control register its number names, SFC and DFC keeping bits 2:0; the
checks are those of RD_CR (42_mmu_privilege.md rules R193 and R195). -/
def Obligations.ControlRegisterWrites : Prop :=
  (∀ (crid : Half) (v : Word), Spells 0x32 0 crid [v] (.wrCr crid v)) ∧
  ∀ (s : State) (v : Word), s.Running →
    let stores (crid : Half) (present : Bool) (changed : Part) (stored : State → Prop) : Prop :=
      (present = true →
        ∃ t, exec (.wrCr crid v) s = .next t ∧ t.reply = .done [] ∧ stored t ∧ Unchanged [changed, .reply] s t) ∧
      (present = false → exec (.wrCr crid v) s = .next (s.raiseSync .unsupported s.pc))
    (s.supervisor = false → ∀ crid, exec (.wrCr crid v) s = .next (s.raiseSync .privilege s.pc)) ∧
    (s.supervisor = true →
      stores 0x000 true .sfc (fun t => t.sfc = v.extractLsb' 0 3) ∧
      stores 0x001 true .dfc (fun t => t.dfc = v.extractLsb' 0 3) ∧
      stores 0x002 true .vbr (fun t => t.vbr = v) ∧
      stores 0x003 (s.has .mmu) .tcr (fun t => t.tcr = v) ∧
      stores 0x004 (s.has .mmu) .mmusr (fun t => t.mmusr = v) ∧
      (∀ c : Fin 2, stores (BitVec.ofNat 16 (0x010 + c.val)) (s.has .mmu) .root
        (fun t => t.root[c] = v ∧ ∀ e : Fin 2, e ≠ c → t.root[e] = s.root[e])) ∧
      (∀ (c : Fin 2) (j : Fin 4), stores (BitVec.ofNat 16 (0x020 + 4 * c.val + j.val)) (s.has .mmu) .ttr
        (fun t => t.ttr[c][j] = v ∧ ∀ (e : Fin 2) (k : Fin 4), ¬ (e = c ∧ k = j) → t.ttr[e][k] = s.ttr[e][k])) ∧
      ∀ crid : Half,
        crid.toNat ∉ [0, 1, 2, 3, 4, 0x10, 0x11, 0x20, 0x21, 0x22, 0x23, 0x24, 0x25, 0x26, 0x27] →
        exec (.wrCr crid v) s = .next (s.raiseSync .illegal s.pc))

/-- CTX answers 0 in supervisor mode and 1 in user mode, on every model; no bit of the status register but 13 matters
(42_mmu_privilege.md rules R190 and R192). -/
def Obligations.ActiveContextReport : Prop :=
  Spells 0x30 0 0 [] .ctx ∧
  (∀ sr : Half, activeContext sr = if sr.getLsbD 13 then 0 else 1) ∧
  ∀ s : State, s.Running → ∃ t, exec .ctx s = .next t ∧ Unchanged [.reply] s t ∧
    t.reply = .done [if s.srHi.getLsbD 5 then 0 else 1]

/-- In user mode the commands of class S raise PRIVILEGE with the current `PC`; the commands of class S are exactly WR_SR,
RD_SP, WR_SP, RD_CR, WR_CR and RTE; and no other command, and none in supervisor mode, enters vector 8, but for a RAISE of
PRIVILEGE and an interrupt whose vector is 8 (42_mmu_privilege.md rule R199). -/
def Obligations.UserModeIsChecked : Prop :=
  (∀ (s : State) (i : Instr), s.Running → s.supervisor = false → i.privClass = .supervisor →
    exec i s = .next (s.raiseSync .privilege s.pc)) ∧
  (∀ i : Instr, i.privClass = .supervisor ↔
    (∃ v, i = .wrSr v) ∨ (∃ k, i = .rdSp k) ∨ (∃ k v, i = .wrSp k v) ∨ (∃ c, i = .rdCr c) ∨ (∃ c v, i = .wrCr c v) ∨ i = .rte) ∧
  (∀ (s t : State) (i : Instr), exec i s = .next t → t.reply = .exception 8 →
    (s.supervisor = false ∧ i.privClass = .supervisor) ∨ (∃ retpc, i = .raise .privilege retpc) ∨
      (i = .intCheck ∧ s.pendingVector = 8))

/-- User mode is left by exception entry and by cold start only; supervisor mode by WR_SR with bit 13 clear, by RTE and by cold
start only, and a WR_SR keeps every slot's value (42_mmu_privilege.md rule R200, which the spec marks as derived, and
70_reset_and_hazards.md rule R331 for cold start). -/
def Obligations.ModeChanges : Prop :=
  (∀ (i : Instr) (s t : State), exec i s = .next t → s.supervisor = false → t.supervisor = true →
    (∃ v, t.reply = .exception v) ∨ t.reply = .halted ∨ i = .coldStart ∨ ∃ r, i = .raise .reset r) ∧
  (∀ (i : Instr) (s t : State), exec i s = .next t → s.supervisor = true → t.supervisor = false →
    (∃ v : Word, i = .wrSr v ∧ v.getLsbD 13 = false ∧ ∀ k : SpSlot, t.getSpSlot k = s.getSpSlot k) ∨
    (i = .rte ∧ t.reply = .done []) ∨ i = .coldStart ∨ ∃ r, i = .raise .reset r)

/-- The block never writes MMUSR on its own: only WR_CR with number 0x004 changes it (42_mmu_privilege.md rule R197). -/
def Obligations.MmuStatusWriter : Prop :=
  ∀ (i : Instr) (s t : State), exec i s = .next t → t.mmusr ≠ s.mmusr → ∃ v, i = .wrCr 0x004 v ∧ t.mmusr = v

/-- No command changes the configuration (10_state.md rule R21), and a step takes words from the front of those issued, at least
one, and adds none. That issued words are such a list is the model's choice, log entry 1. -/
def Obligations.ConfigurationIsFixed : Prop :=
  ∀ s t : State, step s = .next t → t.cfg = s.cfg ∧ ∃ taken, s.inbox = taken ++ t.inbox ∧ taken ≠ []

/-! ## Exceptions and interrupts -/

/-- INT_PEND records the level and the vector in one step, in every boot state and while halted, and changes nothing else; it
has no step once `fatal` is set (43_exception_commands.md rule R210). -/
def Obligations.InterruptAssertion : Prop :=
  (∀ (level : BitVec 3) (vector : Byte), Spells 0x40 (level.setWidth 8) (vector.setWidth 16) [] (.intPend level vector)) ∧
  ∀ (s : State) (level : BitVec 3) (vector : Byte),
    (s.fatal = none → ∃ t, exec (.intPend level vector) s = .next t ∧ t.reply = .done [] ∧ t.pendingLevel = level ∧
      t.pendingVector = vector ∧ Unchanged [.pending, .reply] s t) ∧
    (∀ r, s.fatal = some r → exec (.intPend level vector) s = .fault (.fatal r))

/-- Only INT_PEND writes the pending interrupt (10_state.md rule R44, 60_exceptions.md rule R293). -/
def Obligations.PendingInterruptWriter : Prop :=
  ∀ (i : Instr) (s t : State), exec i s = .next t → (∀ level vector, i ≠ .intPend level vector) →
    t.pendingLevel = s.pendingLevel ∧ t.pendingVector = s.pendingVector

/-- INT_CHECK takes the pending interrupt iff its level exceeds the mask: entry to the pending vector, with the current `PC`
stacked and the level as the new mask; otherwise nothing changes (43_exception_commands.md rule R211, 60_exceptions.md rule
R292). -/
def Obligations.InterruptSampling : Prop :=
  Spells 0x41 0 0 [] .intCheck ∧
  ∀ s : State, s.Running →
    (s.pendingLevel ≤ s.mask → ∃ t, exec .intCheck s = .next t ∧ t.reply = .done [] ∧ Unchanged [.reply] s t) ∧
    (s.mask < s.pendingLevel → ∃ t, exec .intCheck s = .next t ∧
      t = s.enter .interrupt s.pendingVector s.pc s.pendingLevel ∧
      (s.EntryOk s.pendingVector → Entered s t s.pendingVector s.pendingLevel))

/-- An interrupt that has been taken stays pending and is not taken again at the next INT_CHECK (60_exceptions.md rule
R293). -/
def Obligations.InterruptNotTakenTwice : Prop :=
  ∀ s : State, s.Running → s.mask < s.pendingLevel → s.EntryOk s.pendingVector →
    ∃ t u, exec .intCheck s = .next t ∧ t.pendingLevel = s.pendingLevel ∧ t.pendingVector = s.pendingVector ∧
      exec .intCheck t = .next u ∧ u.reply = .done [] ∧ Unchanged [.reply] t u

/-- RAISE of RESET performs the cold start; of any other kind it enters the kind's vector with its operand stacked and the
interrupt mask as it is, and when the accesses of entry succeed the state is that of 60_exceptions.md rules R285 to R289
(43_exception_commands.md rule R212; of the cold start the spec marks two effects as its own: "The VBR clear and the
stack-pointer load are the spec's"). That a RAISE RESET that succeeds ends as `done []`, and not as an exception taken, is the
model's choice, log entry 23. -/
def Obligations.SynchronousEntry : Prop :=
  (∀ (kind : Kind) (retpc : Word), Spells 0x42 (BitVec.ofNat 8 kind.code) 0 [retpc] (.raise kind retpc)) ∧
  (∀ (s : State) (retpc : Word), s.Running → exec (.raise .reset retpc) s = .next s.coldStart ∧ ColdStarted s s.coldStart) ∧
  ∀ (s : State) (kind : Kind) (retpc : Word), s.Running → kind ≠ .reset →
    ∃ t, exec (.raise kind retpc) s = .next t ∧ t = s.enter (.sync kind) (vectorOf kind) retpc s.mask ∧
      (s.EntryOk (vectorOf kind) → Entered s t (vectorOf kind) s.mask)

/-- The frame: 8 bytes on the supervisor stack, the old status word at +0, the stacked PC at +2, format 0 and the vector offset
`4 * v` at +6, each big-endian, where the bytes are writable and translation keeps the three items apart (60_exceptions.md
rule R288; the spec marks the layout as its own: "[from general knowledge, not in source] This is the 680x0 format-0
frame"). -/
def Obligations.EntryFrame : Prop :=
  ∀ (s : State) (cause : Cause) (v : Byte) (retpc : Word) (newI : BitVec 3) (draw : Nat),
    Memory.wf s.mem = true → s.EntryOk v → s.FrameFits →
    let t := s.enter cause v retpc newI
    t.a[7] = s.entrySp - 8 ∧
    t.halfAt draw (s.xlateS (s.entrySp - 8)) = s.readSr ∧
    t.wordAt draw (s.xlateS (s.entrySp - 6)) = retpc ∧
    t.halfAt draw (s.xlateS (s.entrySp - 2)) = BitVec.ofNat 16 (4 * v.toNat)

/-- When an access of entry fails, the block halts with `PC` as it was; the status, the stack switch and every item written before
the failed access stay, and nothing is written from it on (60_exceptions.md rule R296). An item written to writable bytes
reads back; where a later item was written too, this asks that translation keeps the items apart. -/
def Obligations.EntryFailureHalts : Prop :=
  ∀ (s : State) (cause : Cause) (v : Byte) (retpc : Word) (newI : BitVec 3),
    let t := s.enter cause v retpc newI
    let top := s.xlateS (s.entrySp - 2)
    let middle := s.xlateS (s.entrySp - 6)
    let bottom := s.xlateS (s.entrySp - 8)
    let first := s.memAccessOk top 2 .write
    let second := s.memAccessOk middle 4 .write
    let third := s.memAccessOk bottom 2 .write
    let pushed (a : Word) (n : Nat) : Prop := Memory.wf s.mem = true ∧ ∀ i < n, s.Writable (a + BitVec.ofNat 32 i)
    ¬ s.EntryOk v →
      t.halted = true ∧ t.reply = .halted ∧ t.pc = s.pc ∧ EnteredStatus s t newI ∧
      EnteredStack s t (if first && second && third then 8 else 0) ∧
      (∀ b : Word, (first = true → ¬ Within b top 2) → (first = true → second = true → ¬ Within b middle 4) →
        (first = true → second = true → third = true → ¬ Within b bottom 2) →
        Memory.read t.mem b.toNat = Memory.read s.mem b.toNat) ∧
      (first = true → pushed top 2 → second = false ∨ s.FrameApart →
        ∀ draw, t.halfAt draw top = BitVec.ofNat 16 (4 * v.toNat)) ∧
      (first = true → second = true → pushed middle 4 → third = false ∨ s.FrameApart →
        ∀ draw, t.wordAt draw middle = retpc) ∧
      (first = true → second = true → third = true → pushed bottom 2 → ∀ draw, t.halfAt draw bottom = s.readSr) ∧
      Unchanged [.a, .srHi, .record, .spSlots, .currentSp, .mem, .halted, .reply] s t

/-- RTE: PRIVILEGE in user mode; in supervisor mode ACCESS when a frame read fails and FORMAT when the format is not 0, each with
the current `PC` and from a state that differs in the count of reads alone; otherwise the status register, the PC and
through the status the stack pointer are restored, 8 bytes are popped from the stack that was live, and memory does not
change (43_exception_commands.md rule R213, 60_exceptions.md rule R297; the spec marks it as its own: "[from general
knowledge, not in source] This is the 680x0 RTE for a format-0 frame"). -/
def Obligations.ReturnEffect : Prop :=
  Spells 0x43 0 0 [] .rte ∧
  ∀ s : State, s.Running →
    let ok := s.memAccessOk (s.xlateS s.a[7]) 2 .read && s.memAccessOk (s.xlateS (s.a[7] + 2)) 4 .read &&
      s.memAccessOk (s.xlateS (s.a[7] + 6)) 2 .read
    let sr := s.halfAt s.reads (s.xlateS s.a[7])
    let pc := s.wordAt (s.reads + 1) (s.xlateS (s.a[7] + 2))
    let fv := s.halfAt (s.reads + 2) (s.xlateS (s.a[7] + 6))
    (s.supervisor = false → exec .rte s = .next (s.raiseSync .privilege s.pc)) ∧
    (s.supervisor = true → ok = false → ∃ n, exec .rte s = .next ({ s with reads := n }.raiseSync .access s.pc)) ∧
    (s.supervisor = true → ok = true → fv.extractLsb' 12 4 ≠ 0 →
      ∃ n, exec .rte s = .next ({ s with reads := n }.raiseSync .format s.pc)) ∧
    (s.supervisor = true → ok = true → fv.extractLsb' 12 4 = 0 →
      ∃ t, exec .rte s = .next t ∧ t.reply = .done [] ∧ t.pc = pc ∧ t.readSr = sr &&& 0xFF1F ∧ t.ccOp = .flags ∧
        t.currentSp = s.sel sr ∧ t.getSpSlot s.currentSp = s.a[7] + 8 ∧
        (∀ k : SpSlot, k ≠ s.currentSp → t.getSpSlot k = s.getSpSlot k) ∧ (∀ n : Fin 8, n ≠ 7 → t.a[n] = s.a[n]) ∧
        Unchanged [.a, .pc, .srHi, .record, .spSlots, .currentSp, .reply, .reads] s t)

/-- An RTE right after a RAISE undoes it: with the frame on writable bytes, the mode, the flags, every stack pointer and every
other register are what they were before, and `PC` is the stacked one (60_exceptions.md rules R285 and R297; the spec marks the
return as its own: "[from general knowledge, not in source] This is the 680x0 RTE for a format-0 frame"). It rests on two
choices of the model: `XlateS` is a fixed function (log entry 12), and no engine access falls between the two (log entry
20). -/
def Obligations.ReturnUndoesEntry : Prop :=
  ∀ (s : State) (kind : Kind) (retpc : Word), s.Inv → s.Running → kind ≠ .reset → s.EntryOk (vectorOf kind) → s.FrameFits →
    ∃ t u, exec (.raise kind retpc) s = .next t ∧ exec .rte t = .next u ∧ u.reply = .done [] ∧ u.pc = retpc ∧
      u.readSr = s.readSr ∧ u.currentSp = s.currentSp ∧ (∀ k : SpSlot, u.getSpSlot k = s.getSpSlot k) ∧
      Unchanged [.pc, .record, .spSlots, .mem, .reply, .reads] s u

/-! ## Boot and cold start -/

/-- COLD_START in `Ready`, and in `Running` while halted, and RAISE RESET while the block runs, perform the cold start
(44_boot.md rule R251, 60_exceptions.md rule R306, 70_reset_and_hazards.md rule R331; the spec marks two of its effects as
its own: "The VBR clear and the stack-pointer load are the spec's"). That a RAISE RESET that succeeds ends as `done []`, and not
as an exception taken, is the model's choice, log entry 23. -/
def Obligations.ColdStartEffect : Prop :=
  Spells 0x53 0 0 [] .coldStart ∧
  (∀ s : State, s.fatal = none → (s.bootState = .ready ∨ (s.bootState = .running ∧ s.halted = true)) →
    ∃ t, exec .coldStart s = .next t ∧ ColdStarted s t) ∧
  (∀ s : State, s.fatal = none → ¬ (s.bootState = .ready ∨ (s.bootState = .running ∧ s.halted = true)) →
    exec .coldStart s = .refused (.bootState s.bootState)) ∧
  (∀ (s : State) (retpc : Word), s.Running → ∃ t, exec (.raise .reset retpc) s = .next t ∧ ColdStarted s t)

/-- MAP_RAM maps RAM at address 0 when the host can allocate it, and is fatal when it cannot; no byte of memory changes; of size
0 the region is empty, and no access of the block succeeds as one to RAM: every access is then the platform's
(44_boot.md rule R233, 20_memory.md rules R77 and R79). -/
def Obligations.RamMapping : Prop :=
  (∀ size : Word, Spells 0x50 0 0 [size] (.mapRam size)) ∧
  (∀ (s : State) (size : Word), s.fatal = none → s.bootState ≠ .idle →
    exec (.mapRam size) s = .refused (.bootState s.bootState)) ∧
  ∀ (s : State) (size : Word), s.fatal = none → s.halted = false → s.bootState = .idle →
    let allocated := s.cfg.hostAlloc.any fun sp => inSpan sp size.toNat
    (allocated = true → ∃ t, exec (.mapRam size) s = .next t ∧ t.reply = .done [] ∧ t.bootState = .ramMapped ∧
      t.ramSize = size ∧ (∀ a : Word, a.toNat < size.toNat → t.Writable a) ∧
      (∀ a : Word, size.toNat ≤ a.toNat → t.regionAt a = s.regionAt a) ∧
      (size = 0 → s.regions = [] → ∀ (a : Word) (n : Nat) (dir : Dir), 0 < n → t.memAccessOk a n dir = s.platformOk a n dir) ∧
      Unchanged [.regions, .ramSize, .bootState, .reply] s t) ∧
    (allocated = false → ∃ t, exec (.mapRam size) s = .next t ∧ t.fatal = some (.ramAllocation size) ∧
      t.reply = .fatal (.ramAllocation size) ∧ Unchanged [.fatal, .reply] s t)

/-- BOOT_KERNEL, when the loader has the image and the initrd and every byte written is writable: the block is `Ready`, and
each address holds the last byte written there of the segments, the entry point, the records 1 to 14, the initrd, the
RAMDISK record and the LAST record, in that order; nothing else changes (44_boot.md rules R234 to R245, of which the spec
marks the record layout as its own: "[from general knowledge, not in source] This is the Linux/m68k `bi_record` layout"). -/
def Obligations.KernelBoot : Prop :=
  Spells 0x51 0 0 [] .bootKernel ∧
  ∀ (s : State) (path : Bytes) (image : ExecImage) (initrd : Option (Nat × Bytes)),
    s.fatal = none → s.halted = false → s.bootState = .ramMapped → s.cfg.kernelPath = some path →
    s.cfg.loader.executables.lookup path = some image → s.InitrdIs initrd → Memory.wf s.mem = true →
    (∀ w ∈ bootBytes s image initrd, s.Writable w.1) →
    ∃ t, exec .bootKernel s = .next t ∧ t.reply = .done [] ∧ t.bootState = .ready ∧
      (∀ b : Word, Memory.read t.mem b.toNat = afterWrites (bootBytes s image initrd) (Memory.read s.mem b.toNat) b) ∧
      Unchanged [.bootState, .mem, .reply] s t

/-- A kernel boot that does not succeed is fatal, and is never partly ready. The image is missing: `KernelLoad`. Otherwise the
first thing that fails decides, in the order of 44_boot.md rule R234: a write of a segment, of the entry point or of a
leading record: `BootWrite` with the address of the first that fails; an initrd whose size or bytes the loader does not have,
which has more bytes than there is room, or of which a byte is not accepted: `InitrdLoad`; a write of the RAMDISK or the LAST
record: `BootWrite`. When nothing fails, the block is `Ready` (44_boot.md rules R234, R244, R245 and R250). The model's
choices: the address of a failed byte of a segment is log entry 11, the place of the initrd in that order is log entry 14, and
`KernelBootPrepared` after a failure is log entry 17. -/
def Obligations.KernelBootFailure : Prop :=
  ∀ (s : State) (path : Bytes), s.fatal = none → s.halted = false → s.bootState = .ramMapped →
    s.cfg.kernelPath = some path →
    (s.cfg.loader.executables.lookup path = none → ∃ t, exec .bootKernel s = .next t ∧
      t.fatal = some (.kernelLoad path) ∧ t.reply = .fatal (.kernelLoad path) ∧ Unchanged [.fatal, .reply] s t) ∧
    (∀ image, s.cfg.loader.executables.lookup path = some image → ∃ t, exec .bootKernel s = .next t ∧
      Unchanged [.fatal, .bootState, .mem, .reply] s t ∧
      (∀ a, s.failedWrite (leadingWrites s image) = some a → t.BootDied (.bootWrite a)) ∧
      (s.failedWrite (leadingWrites s image) = none →
        (∀ initrd, s.cfg.initrdPath = some initrd → (∀ size raw, ¬ s.InitrdLoads initrd size raw) →
          t.BootDied (.initrdLoad initrd)) ∧
        ∀ size, s.InitrdPassed size →
          (∀ a, s.failedWrite (trailingWrites s image size) = some a → t.BootDied (.bootWrite a)) ∧
          (s.failedWrite (trailingWrites s image size) = none →
            t.bootState = .ready ∧ t.fatal = none ∧ t.reply = .done [])))

/-- The parameters base is `(H + 1) & ~1`: it is even, it is H when H is even and H + 1 when H is odd (44_boot.md rule
R237). -/
def Obligations.ParametersBase : Prop :=
  ∀ h : Word, (parametersBase h).getLsbD 0 = false ∧
    (h.getLsbD 0 = false → parametersBase h = h) ∧ (h.getLsbD 0 = true → parametersBase h = h + 1)

/-- The initrd base is `ram_size - S` modulo 2^32, rounded down to a multiple of 4096, and for an initrd that fits in RAM the
room from there to the end of RAM is at least S (44_boot.md rule R244). -/
def Obligations.InitrdPlacement : Prop :=
  ∀ (ramSize : Word) (size : Nat),
    (initrdBase ramSize size).toNat = ((2 ^ 32 + ramSize.toNat - size % 2 ^ 32) % 2 ^ 32) / 4096 * 4096 ∧
    (size ≤ ramSize.toNat → size ≤ (ramSize - initrdBase ramSize size).toNat)

/-- The bytes of the four forms of boot record, and the tags and the order of the records before the initrd
(44_boot.md rules R238 to R242 and R246); the padding byte of a string is not written. The spec marks the layout and the
tags as its own: "[from general knowledge, not in source] This is the Linux/m68k `bi_record` layout", "The defaults are the
Linux/m68k generic tags". -/
def Obligations.BootRecordLayout : Prop :=
  (∀ (tag : Half) (v : Word), (BootRecord.single tag v).bytes =
    [tag.extractLsb' 8 8, tag.extractLsb' 0 8, 0, 8, v.extractLsb' 24 8, v.extractLsb' 16 8, v.extractLsb' 8 8,
      v.extractLsb' 0 8].map some) ∧
  (∀ (tag : Half) (b z : Word), (BootRecord.dual tag b z).bytes =
    [tag.extractLsb' 8 8, tag.extractLsb' 0 8, 0, 12, b.extractLsb' 24 8, b.extractLsb' 16 8, b.extractLsb' 8 8,
      b.extractLsb' 0 8, z.extractLsb' 24 8, z.extractLsb' 16 8, z.extractLsb' 8 8, z.extractLsb' 0 8].map some) ∧
  (∀ tag : Half, (BootRecord.last tag).bytes = [tag.extractLsb' 8 8, tag.extractLsb' 0 8, 0, 4].map some) ∧
  (∀ (tag : Half) (text : Bytes), ∃ header : Bytes, (BootRecord.string tag text).bytes =
      header.map some ++ text.map some ++ [some 0] ++ List.replicate ((text.length + 5) % 2) none ∧
    header.take 2 = [tag.extractLsb' 8 8, tag.extractLsb' 0 8] ∧
    joinDigits 8 (header.drop 2) = ((text.length + 6) / 2 * 2) % 2 ^ 16 ∧ header.length = 4) ∧
  (∀ (cfg : Config) (ramSize : Word), cfg.tags = { last := 0 } →
    (leadingRecords cfg ramSize).map BootRecord.tag =
      [0x0001, 0x0003, 0x0004, 0x0002, 0x800A, 0x8000, 0x8009, 0x0005, 0x8001, 0x8002, 0x8004, 0x8003, 0x8006] ++
        if cfg.cmdline.isSome then [0x0007] else [])

/-- The payloads of the records before the initrd, with their tags, their sizes and their places from the parameters base, on
every machine: the fields of `BOOT_PROFILE`, the RAM size in whole megabytes and in bytes, the video dimensions, the row
stride or its default, and the command line when there is one (44_boot.md rules R238 and R243). The spec marks the layout as
its own: "[from general knowledge, not in source] This is the Linux/m68k `bi_record` layout". -/
def Obligations.LeadingRecordPayloads : Prop :=
  ∀ (cfg : Config) (ramSize : Word),
    let b := cfg.profile
    let tags := cfg.tags
    let bytes := (leadingRecords cfg ramSize).flatMap BootRecord.bytes
    let half (h : Half) : Bytes := [h.extractLsb' 8 8, h.extractLsb' 0 8]
    let word (v : Word) : Bytes := [v.extractLsb' 24 8, v.extractLsb' 16 8, v.extractLsb' 8 8, v.extractLsb' 0 8]
    let singleAt (offset : Nat) (tag : Half) (v : Word) : Prop :=
      (bytes.drop offset).take 8 = (half tag ++ half 8 ++ word v).map some
    singleAt 0 tags.machType b.machineType ∧ singleAt 8 tags.fpuType b.fpuType ∧ singleAt 16 tags.mmuType b.mmuType ∧
    singleAt 24 tags.cpuType b.cpuType ∧ singleAt 32 tags.platformCpuId b.platformCpuId ∧
    singleAt 40 tags.platformModel b.platformModelId ∧
    singleAt 48 tags.memSizeMb (BitVec.ofNat 32 (ramSize.toNat / 1048576)) ∧
    (bytes.drop 56).take 12 = (half tags.memChunk ++ half 12 ++ word 0 ++ word ramSize).map some ∧
    singleAt 68 tags.videoAddr b.videoAddr ∧ singleAt 76 tags.videoDepth b.videoDepth ∧
    singleAt 84 tags.videoDim (((b.videoHeight &&& 0xFFFF) <<< 16) ||| (b.videoWidth &&& 0xFFFF)) ∧
    (∀ stride, b.videoRowStride = some stride → singleAt 92 tags.videoRow stride) ∧
    (b.videoRowStride = none →
      singleAt 92 tags.videoRow (BitVec.ofNat 32 ((b.videoWidth.toNat * b.videoDepth.toNat + 7) / 8))) ∧
    singleAt 100 tags.serialBase b.serialBase ∧
    (cfg.cmdline = none → bytes.length = 108) ∧
    (∀ text, cfg.cmdline = some text → bytes.drop 108 = (BootRecord.string tags.commandLine text).bytes)

/-- BOOT_ROM: an image that the loader has and that fits the region is loaded at `ROM_BASE`, the region is read-only, and the
block is `Ready`; an image that is missing or longer than `ROM_SIZE` is fatal (44_boot.md rules R247 and R248). That every
write of the load into the region succeeds is deduced from those rules, log entry 22. -/
def Obligations.RomBoot : Prop :=
  Spells 0x52 0 0 [] .bootRom ∧
  (∀ s : State, s.fatal = none → s.bootState ≠ .ramMapped → exec .bootRom s = .refused (.bootState s.bootState)) ∧
  (∀ s : State, s.fatal = none → s.bootState = .ramMapped → s.cfg.kernelPath.isSome = true →
    exec .bootRom s = .refused .bootPath) ∧
  ∀ s : State, s.Inv → s.fatal = none → s.bootState = .ramMapped → s.cfg.kernelPath = none →
    (∀ image : Bytes, s.cfg.loader.rawImages.lookup s.cfg.romPath = some image → image.length ≤ s.cfg.romSize →
      image.length ≤ 2 ^ 32 →
      ∃ t, exec .bootRom s = .next t ∧ t.reply = .done [] ∧ t.bootState = .ready ∧
        (∀ a : Word, Within a s.cfg.romBase s.cfg.romSize → (t.regionAt a).any Region.readOnly = true) ∧
        (∀ a : Word, ¬ Within a s.cfg.romBase s.cfg.romSize → t.regionAt a = s.regionAt a) ∧
        (∀ (k : Nat) (h : k < image.length),
          Memory.read t.mem (s.cfg.romBase + BitVec.ofNat 32 k).toNat = image[k]) ∧
        (∀ a : Word, ¬ Within a s.cfg.romBase image.length → Memory.read t.mem a.toNat = Memory.read s.mem a.toNat) ∧
        Unchanged [.regions, .bootState, .mem, .reply] s t) ∧
    ((s.cfg.loader.rawImages.lookup s.cfg.romPath = none ∨
        ∃ image : Bytes, s.cfg.loader.rawImages.lookup s.cfg.romPath = some image ∧ s.cfg.romSize < image.length) →
      ∃ t, exec .bootRom s = .next t ∧ t.fatal = some (.romLoad s.cfg.romPath) ∧ t.reply = .fatal (.romLoad s.cfg.romPath) ∧
        t.bootState ≠ .ready ∧ Unchanged [.regions, .bootState, .fatal, .reply] s t)

/-- Once the block is `Ready`, no command changes a byte of a read-only region or the address map (20_memory.md rule R78,
70_reset_and_hazards.md rule R338). -/
def Obligations.RomIsImmutable : Prop :=
  ∀ (i : Instr) (s t : State), exec i s = .next t → s.bootState = .ready ∨ s.bootState = .running →
    t.regions = s.regions ∧
    ∀ b : Word, (s.regionAt b).any Region.readOnly = true → Memory.read t.mem b.toNat = Memory.read s.mem b.toNat

/-- Memory changes by a boot command or by exception entry only (20_memory.md rule R71). -/
def Obligations.MemoryWriters : Prop :=
  ∀ (i : Instr) (s t : State) (b : Word), exec i s = .next t → Memory.read t.mem b.toNat ≠ Memory.read s.mem b.toNat →
    i = .bootKernel ∨ i = .bootRom ∨ (∃ v, t.reply = .exception v) ∨ t.reply = .halted

/-! ## Memory -/

/-- A write of writable bytes puts the bytes of its value in memory, the most significant at the lowest address, and leaves
every other byte alone; a read of the same bytes gives the value back, modulo its width (20_memory.md rules R72 and R85;
the spec marks the byte order as its own: "[from general knowledge, not in source] The 680x0 and ColdFire families are
big-endian"). -/
def Obligations.BigEndianAccess : Prop :=
  ∀ (s : State) (a : Word) (n v : Nat), Memory.wf s.mem = true → n ≤ 2 ^ 32 →
    (∀ i < n, s.Writable (a + BitVec.ofNat 32 i)) →
    ∃ t, s.memWrite a n v = some t ∧
      (∀ i < n, Memory.read t.mem (a + BitVec.ofNat 32 i).toNat = BitVec.ofNat 8 (v >>> (8 * (n - 1 - i)))) ∧
      (∀ b : Word, ¬ Within b a n → Memory.read t.mem b.toNat = Memory.read s.mem b.toNat) ∧
      Unchanged [.mem] s t ∧
      ∃ u, t.memRead a n = some (v % 2 ^ (8 * n), u) ∧ Unchanged [.reads] t u

/-- After a 4-byte write, the byte at offset i is `v >> (8 * (3 - i))`, and the two halves read as the high and the low half of
the value (20_memory.md rule R73, which the spec marks "[derived: from rule R72]"). -/
def Obligations.MixedWidthView : Prop :=
  ∀ (s : State) (a v : Word), Memory.wf s.mem = true → (∀ i < 4, s.Writable (a + BitVec.ofNat 32 i)) →
    ∃ t, s.memWrite a 4 v.toNat = some t ∧
      (∀ i : Fin 4, ∃ u, t.memRead (a + BitVec.ofNat 32 i.val) 1 = some ((v.toNat >>> (8 * (3 - i.val))) % 256, u)) ∧
      (∃ u, t.memRead a 2 = some (v.toNat / 2 ^ 16, u)) ∧
      (∃ u, t.memRead (a + 2) 2 = some (v.toNat % 2 ^ 16, u))

/-- Inside RAM every access of the block succeeds and inside ROM every read does; a write that touches a protected ROM fails
when `ROM_WRITE` is `access_error`; every other write inside the regions succeeds; and every other access, one that touches an
address outside the regions, is the platform's (20_memory.md rules R76 to R79). For an access across a border of a region this
is the model's choice: one protected byte fails the whole write (log entry 5), otherwise the platform decides for the whole
access when a byte lies outside the regions (log entry 4), and an access partly in RAM and partly in ROM succeeds (log entry
21). That a write into a ROM that is not read-only yet succeeds is deduced (log entry 22). -/
def Obligations.AccessSuccess : Prop :=
  ∀ (s : State) (a : Word) (n : Nat),
    let mapped := ∀ i < n, (s.regionAt (a + BitVec.ofNat 32 i)).isSome = true
    let rom := ∃ i < n, (s.regionAt (a + BitVec.ofNat 32 i)).any Region.readOnly = true
    ((∀ i < n, s.Writable (a + BitVec.ofNat 32 i)) → ∀ dir, s.memAccessOk a n dir = true) ∧
    (mapped → s.memAccessOk a n .read = true) ∧
    (rom → s.cfg.romWrite = .accessError → s.memAccessOk a n .write = false) ∧
    (mapped → s.cfg.romWrite = .ignore → s.memAccessOk a n .write = true) ∧
    (¬ mapped → s.memAccessOk a n .read = s.platformOk a n .read) ∧
    (mapped → ¬ rom → s.memAccessOk a n .write = true) ∧
    (¬ mapped → (rom → s.cfg.romWrite = .ignore) → s.memAccessOk a n .write = s.platformOk a n .write)

/-- Two canonical memories that hold the same byte at every address are equal data. -/
def Obligations.CanonicalMemoryIsUnique : Prop :=
  ∀ m n : Memory, Memory.wf m = true → Memory.wf n = true →
    (∀ a : Word, Memory.read m a.toNat = Memory.read n a.toNat) → m = n

/-! ## Construction and the invariant -/

/-- Construction of a machine whose CPU model is known sets every component to 0, false, none or `Idle`, the live slot to USER,
and the model's features and initial status register; an unknown model is fatal (10_state.md rules R48, R49 and R51). -/
def Obligations.ConstructionValues : Prop :=
  ∀ (setup : Setup) (draw : Memory),
    let s := State.construct setup draw
    let name := setup.cpuModel.getD setup.defaultCpuModel
    (∀ n : Fin 8, s.d[n] = 0 ∧ s.a[n] = 0 ∧ s.fp[n] = 0) ∧ s.pc = 0 ∧ s.srHi = 0 ∧ s.ccOp = .flags ∧ s.ccDest = 0 ∧
    s.ccSrc = 0 ∧ s.ccX = false ∧ (∀ k : SpSlot, s.spSlots.get k = 0) ∧ s.currentSp = .user ∧ s.sfc = 0 ∧ s.dfc = 0 ∧
    s.vbr = 0 ∧ s.fpcr = 0 ∧ s.fpsr = 0 ∧ (∀ i : Fin 4, s.acc[i] = 0) ∧ s.macMask = 0 ∧ s.macsr = 0 ∧
    s.pendingLevel = 0 ∧ s.pendingVector = 0 ∧ (∀ c : Fin 2, s.root[c] = 0) ∧ (∀ (c : Fin 2) (j : Fin 4), s.ttr[c][j] = 0) ∧
    s.tcr = 0 ∧ s.mmusr = 0 ∧ s.halted = false ∧ s.bootState = .idle ∧ s.regions = [] ∧ s.ramSize = 0 ∧ s.mem = draw ∧
    (∀ m : CpuModel, setup.models.find? (fun m => m.name == name) = some m →
      s.fatal = none ∧ s.cfg.features = m.features ∧ s.cfg.initialSr = m.initialSr.getD 0x2700) ∧
    (setup.models.find? (fun m => m.name == name) = none → s.fatal = some (.unknownModel name))

/-- The invariant of the block holds after construction, whatever the parameters and the initial contents of memory. -/
def Obligations.ConstructionInvariant : Prop :=
  ∀ (setup : Setup) (draw : Memory), Memory.wf draw = true → (State.construct setup draw).Inv

/-- Every step keeps the invariant: the memory is canonical, the live slot is the one the status register selects
(10_state.md rule R35), each floating-point register fits its width, the registers of an absent unit are 0 (rule R50), the
address map is the one of the boot state, and the boot states, `fatal` and `halted` stand in their order. -/
def Obligations.StepKeepsInvariant : Prop :=
  ∀ s t : State, s.Inv → step s = .next t → t.Inv
end

