-- ==== Sys2Proof/Laws/Digits.lean ====
section
/-! SUPPORT. Splitting a number into digits and joining digits into a number are inverse to each other. -/

namespace Sys2Proof

@[simp] theorem splitDigits_zero (w v : Nat) : splitDigits w 0 v = [] := rfl

theorem splitDigits_succ (w k v : Nat) :
    splitDigits w (k + 1) v = BitVec.ofNat w (v >>> (w * k)) :: splitDigits w k v := rfl

@[simp] theorem joinDigits_nil (w : Nat) : joinDigits w [] = 0 := rfl

theorem joinDigits_cons (w : Nat) (d : BitVec w) (ds : List (BitVec w)) :
    joinDigits w (d :: ds) = d.toNat * 2 ^ (w * ds.length) + joinDigits w ds := rfl

@[simp] theorem length_splitDigits (w k v : Nat) : (splitDigits w k v).length = k := by
  induction k with
  | zero => rfl
  | succ k ih => simp [splitDigits_succ, ih]

theorem joinDigits_lt (w : Nat) (ds : List (BitVec w)) : joinDigits w ds < 2 ^ (w * ds.length) := by
  induction ds with
  | nil => simp
  | cons d ds ih =>
    have hd : d.toNat + 1 ≤ 2 ^ w := d.isLt
    have hm := Nat.mul_le_mul_right (2 ^ (w * ds.length)) hd
    rw [joinDigits_cons, List.length_cons, Nat.mul_succ, Nat.pow_add, Nat.mul_comm (2 ^ (w * ds.length))]
    rw [Nat.add_mul] at hm
    omega

/-- Joining what was split gives back the low bits. -/
theorem joinDigits_splitDigits (w k v : Nat) : joinDigits w (splitDigits w k v) = v % 2 ^ (w * k) := by
  induction k with
  | zero => simp [Nat.mod_one]
  | succ k ih =>
    rw [splitDigits_succ, joinDigits_cons, length_splitDigits, ih, BitVec.toNat_ofNat, Nat.shiftRight_eq_div_pow,
      Nat.mul_succ, Nat.pow_add, Nat.mod_mul, Nat.mul_comm (2 ^ (w * k))]
    omega

/-- Only the low bits matter to a split. -/
theorem splitDigits_add_mul (w k v c : Nat) : splitDigits w k (c * 2 ^ (w * k) + v) = splitDigits w k v := by
  induction k generalizing c with
  | zero => rfl
  | succ k ih =>
    have h : c * 2 ^ (w * (k + 1)) + v = (c * 2 ^ w) * 2 ^ (w * k) + v := by
      rw [Nat.mul_succ, Nat.pow_add, Nat.mul_comm (2 ^ (w * k)), Nat.mul_assoc]
    rw [h, splitDigits_succ, splitDigits_succ, ih, Nat.shiftRight_eq_div_pow, Nat.shiftRight_eq_div_pow,
      Nat.add_comm, Nat.add_mul_div_right _ _ (Nat.two_pow_pos _)]
    congr 1
    apply BitVec.eq_of_toNat_eq
    simp [Nat.add_mod]

/-- Splitting what was joined gives back the digits. -/
theorem splitDigits_joinDigits (w : Nat) (ds : List (BitVec w)) : splitDigits w ds.length (joinDigits w ds) = ds := by
  induction ds with
  | nil => rfl
  | cons d ds ih =>
    rw [List.length_cons, splitDigits_succ, joinDigits_cons, splitDigits_add_mul, ih, Nat.shiftRight_eq_div_pow,
      Nat.add_comm, Nat.add_mul_div_right _ _ (Nat.two_pow_pos _), Nat.div_eq_of_lt (joinDigits_lt w ds), Nat.zero_add,
      BitVec.ofNat_toNat, BitVec.setWidth_eq]

/-- The digit at a place. -/
theorem getElem_splitDigits (w k v i : Nat) (h : i < (splitDigits w k v).length) :
    (splitDigits w k v)[i] = BitVec.ofNat w (v >>> (w * (k - 1 - i))) := by
  induction k generalizing i with
  | zero => simp at h
  | succ k ih =>
    cases i with
    | zero => simp [splitDigits_succ]
    | succ i =>
      simp only [splitDigits_succ, List.getElem_cons_succ, ih]
      congr 3
      omega

end Sys2Proof
end

