-- ==== Sys2Proof/Laws/Memory.lean ====
section
/-! SUPPORT. The memory as data: a read after a write, and the canonical form, which every write keeps and which makes
equal contents equal data. -/

namespace Sys2Proof.Machine

/-- Every listed address lies above `k`, said of the first one. -/
def Memory.above (k : Nat) : Memory → Prop
  | [] => True
  | (k', _) :: _ => k < k'

theorem Memory.wf_cons {k : Nat} {v : Byte} {m : Memory} :
    Memory.wf ((k, v) :: m) = true ↔ k < 2 ^ 32 ∧ v ≠ blankByte ∧ Memory.above k m ∧ Memory.wf m = true := by
  cases m with
  | nil => simp [Memory.wf, Memory.above]
  | cons c m => obtain ⟨k', v'⟩ := c; simp [Memory.wf, Memory.above, and_assoc]

theorem Memory.above_trans {j k : Nat} {m : Memory} (hjk : j ≤ k) (h : Memory.above k m) : Memory.above j m := by
  cases m with
  | nil => trivial
  | cons c m => exact Nat.lt_of_le_of_lt hjk h

/-- An address below every listed one holds the blank byte. -/
theorem Memory.read_of_above {m : Memory} {a : Nat} (hm : Memory.wf m = true) (h : Memory.above a m) :
    Memory.read m a = blankByte := by
  induction m with
  | nil => rfl
  | cons c m ih =>
    obtain ⟨k, v⟩ := c
    have hk : a < k := h
    obtain ⟨-, -, hab, hwf⟩ := Memory.wf_cons.mp hm
    rw [Memory.read, if_neg (by omega)]
    exact ih hwf (Memory.above_trans (Nat.le_of_lt hk) hab)

/-- A write leaves every other address alone. -/
theorem Memory.read_write_other (m : Memory) {a b : Nat} (v : Byte) (h : b ≠ a) :
    Memory.read (Memory.write m a v) b = Memory.read m b := by
  induction m with
  | nil => by_cases hv : v = blankByte <;> simp [Memory.write, Memory.read, hv, Ne.symm h]
  | cons c m ih =>
    obtain ⟨k, x⟩ := c
    rw [Memory.write]
    split
    · split
      · rfl
      · simp [Memory.read, Ne.symm h]
    · split
      · next hak =>
        subst hak
        split <;> simp [Memory.read, Ne.symm h]
      · simp [Memory.read, ih]

/-- A read of the address written gives the byte written. -/
theorem Memory.read_write_same {m : Memory} {a : Nat} {v : Byte} (hm : Memory.wf m = true) :
    Memory.read (Memory.write m a v) a = v := by
  induction m with
  | nil => by_cases hv : v = blankByte <;> simp [Memory.write, Memory.read, hv]
  | cons c m ih =>
    obtain ⟨k, x⟩ := c
    obtain ⟨-, -, hab, hwf⟩ := Memory.wf_cons.mp hm
    rw [Memory.write]
    split
    · next hak =>
      split
      · next hv => rw [hv]; exact Memory.read_of_above hm hak
      · simp [Memory.read]
    · split
      · next hak =>
        subst hak
        split
        · next hv => rw [hv]; exact Memory.read_of_above hwf hab
        · simp [Memory.read]
      · next hne => rw [Memory.read, if_neg (Ne.symm hne), ih hwf]

theorem Memory.above_write {j a : Nat} {m : Memory} {v : Byte} (hm : Memory.wf m = true) (ha : j < a)
    (h : Memory.above j m) : Memory.above j (Memory.write m a v) := by
  cases m with
  | nil =>
    rw [Memory.write]
    split <;> trivial
  | cons c m =>
    obtain ⟨k, x⟩ := c
    have hjk : j < k := h
    obtain ⟨-, -, hab, -⟩ := Memory.wf_cons.mp hm
    rw [Memory.write]
    split
    · split
      · exact hjk
      · exact ha
    · split
      · split
        · exact Memory.above_trans (Nat.le_of_lt hjk) hab
        · exact ha
      · exact hjk

/-- Every write keeps the canonical form. -/
theorem Memory.wf_write {m : Memory} {a : Nat} {v : Byte} (ha : a < 2 ^ 32) (hm : Memory.wf m = true) :
    Memory.wf (Memory.write m a v) = true := by
  induction m with
  | nil =>
    rw [Memory.write]
    split
    · rfl
    · next hv => exact Memory.wf_cons.mpr ⟨ha, hv, trivial, rfl⟩
  | cons c m ih =>
    obtain ⟨k, x⟩ := c
    obtain ⟨hk, hx, hab, hwf⟩ := Memory.wf_cons.mp hm
    rw [Memory.write]
    split
    · next hak =>
      split
      · exact hm
      · next hv => exact Memory.wf_cons.mpr ⟨ha, hv, hak, hm⟩
    · split
      · next hak =>
        subst hak
        split
        · exact hwf
        · next hv => exact Memory.wf_cons.mpr ⟨ha, hv, hab, hwf⟩
      · next h1 h2 =>
        exact Memory.wf_cons.mpr ⟨hk, hx, Memory.above_write hwf (by omega) hab, ih hwf⟩

theorem Memory.wf_nil : Memory.wf [] = true := rfl

end Sys2Proof.Machine
end

