-- ==== Sys2Proof/Laws/State.lean ====
section
/-! SUPPORT. What each named update of the state does to each field, one lemma a field. -/

namespace Sys2Proof.Machine

variable (s : State)

/-! ### The end of a command -/

@[simp] theorem done_d (r : List Word) : (s.done r).d = s.d := rfl
@[simp] theorem done_a (r : List Word) : (s.done r).a = s.a := rfl
@[simp] theorem done_pc (r : List Word) : (s.done r).pc = s.pc := rfl
@[simp] theorem done_srHi (r : List Word) : (s.done r).srHi = s.srHi := rfl
@[simp] theorem done_ccOp (r : List Word) : (s.done r).ccOp = s.ccOp := rfl
@[simp] theorem done_ccDest (r : List Word) : (s.done r).ccDest = s.ccDest := rfl
@[simp] theorem done_ccSrc (r : List Word) : (s.done r).ccSrc = s.ccSrc := rfl
@[simp] theorem done_ccX (r : List Word) : (s.done r).ccX = s.ccX := rfl
@[simp] theorem done_spSlots (r : List Word) : (s.done r).spSlots = s.spSlots := rfl
@[simp] theorem done_currentSp (r : List Word) : (s.done r).currentSp = s.currentSp := rfl
@[simp] theorem done_sfc (r : List Word) : (s.done r).sfc = s.sfc := rfl
@[simp] theorem done_dfc (r : List Word) : (s.done r).dfc = s.dfc := rfl
@[simp] theorem done_vbr (r : List Word) : (s.done r).vbr = s.vbr := rfl
@[simp] theorem done_fp (r : List Word) : (s.done r).fp = s.fp := rfl
@[simp] theorem done_fpcr (r : List Word) : (s.done r).fpcr = s.fpcr := rfl
@[simp] theorem done_fpsr (r : List Word) : (s.done r).fpsr = s.fpsr := rfl
@[simp] theorem done_acc (r : List Word) : (s.done r).acc = s.acc := rfl
@[simp] theorem done_macMask (r : List Word) : (s.done r).macMask = s.macMask := rfl
@[simp] theorem done_macsr (r : List Word) : (s.done r).macsr = s.macsr := rfl
@[simp] theorem done_pendingLevel (r : List Word) : (s.done r).pendingLevel = s.pendingLevel := rfl
@[simp] theorem done_pendingVector (r : List Word) : (s.done r).pendingVector = s.pendingVector := rfl
@[simp] theorem done_root (r : List Word) : (s.done r).root = s.root := rfl
@[simp] theorem done_ttr (r : List Word) : (s.done r).ttr = s.ttr := rfl
@[simp] theorem done_tcr (r : List Word) : (s.done r).tcr = s.tcr := rfl
@[simp] theorem done_mmusr (r : List Word) : (s.done r).mmusr = s.mmusr := rfl
@[simp] theorem done_halted (r : List Word) : (s.done r).halted = s.halted := rfl
@[simp] theorem done_bootState (r : List Word) : (s.done r).bootState = s.bootState := rfl
@[simp] theorem done_fatal (r : List Word) : (s.done r).fatal = s.fatal := rfl
@[simp] theorem done_mem (r : List Word) : (s.done r).mem = s.mem := rfl
@[simp] theorem done_regions (r : List Word) : (s.done r).regions = s.regions := rfl
@[simp] theorem done_ramSize (r : List Word) : (s.done r).ramSize = s.ramSize := rfl
@[simp] theorem done_cfg (r : List Word) : (s.done r).cfg = s.cfg := rfl
@[simp] theorem done_inbox (r : List Word) : (s.done r).inbox = s.inbox := rfl
@[simp] theorem done_reply (r : List Word) : (s.done r).reply = .done r := rfl
@[simp] theorem done_reads (r : List Word) : (s.done r).reads = s.reads := rfl

/-! ### A halt -/

@[simp] theorem halt_d : (s.halt).d = s.d := rfl
@[simp] theorem halt_a : (s.halt).a = s.a := rfl
@[simp] theorem halt_pc : (s.halt).pc = s.pc := rfl
@[simp] theorem halt_srHi : (s.halt).srHi = s.srHi := rfl
@[simp] theorem halt_ccOp : (s.halt).ccOp = s.ccOp := rfl
@[simp] theorem halt_ccDest : (s.halt).ccDest = s.ccDest := rfl
@[simp] theorem halt_ccSrc : (s.halt).ccSrc = s.ccSrc := rfl
@[simp] theorem halt_ccX : (s.halt).ccX = s.ccX := rfl
@[simp] theorem halt_spSlots : (s.halt).spSlots = s.spSlots := rfl
@[simp] theorem halt_currentSp : (s.halt).currentSp = s.currentSp := rfl
@[simp] theorem halt_sfc : (s.halt).sfc = s.sfc := rfl
@[simp] theorem halt_dfc : (s.halt).dfc = s.dfc := rfl
@[simp] theorem halt_vbr : (s.halt).vbr = s.vbr := rfl
@[simp] theorem halt_fp : (s.halt).fp = s.fp := rfl
@[simp] theorem halt_fpcr : (s.halt).fpcr = s.fpcr := rfl
@[simp] theorem halt_fpsr : (s.halt).fpsr = s.fpsr := rfl
@[simp] theorem halt_acc : (s.halt).acc = s.acc := rfl
@[simp] theorem halt_macMask : (s.halt).macMask = s.macMask := rfl
@[simp] theorem halt_macsr : (s.halt).macsr = s.macsr := rfl
@[simp] theorem halt_pendingLevel : (s.halt).pendingLevel = s.pendingLevel := rfl
@[simp] theorem halt_pendingVector : (s.halt).pendingVector = s.pendingVector := rfl
@[simp] theorem halt_root : (s.halt).root = s.root := rfl
@[simp] theorem halt_ttr : (s.halt).ttr = s.ttr := rfl
@[simp] theorem halt_tcr : (s.halt).tcr = s.tcr := rfl
@[simp] theorem halt_mmusr : (s.halt).mmusr = s.mmusr := rfl
@[simp] theorem halt_halted : (s.halt).halted = true := rfl
@[simp] theorem halt_bootState : (s.halt).bootState = s.bootState := rfl
@[simp] theorem halt_fatal : (s.halt).fatal = s.fatal := rfl
@[simp] theorem halt_mem : (s.halt).mem = s.mem := rfl
@[simp] theorem halt_regions : (s.halt).regions = s.regions := rfl
@[simp] theorem halt_ramSize : (s.halt).ramSize = s.ramSize := rfl
@[simp] theorem halt_cfg : (s.halt).cfg = s.cfg := rfl
@[simp] theorem halt_inbox : (s.halt).inbox = s.inbox := rfl
@[simp] theorem halt_reply : (s.halt).reply = .halted := rfl
@[simp] theorem halt_reads : (s.halt).reads = s.reads := rfl

/-! ### A fatal error -/

@[simp] theorem die_d (r : FatalReason) : (s.die r).d = s.d := rfl
@[simp] theorem die_a (r : FatalReason) : (s.die r).a = s.a := rfl
@[simp] theorem die_pc (r : FatalReason) : (s.die r).pc = s.pc := rfl
@[simp] theorem die_srHi (r : FatalReason) : (s.die r).srHi = s.srHi := rfl
@[simp] theorem die_ccOp (r : FatalReason) : (s.die r).ccOp = s.ccOp := rfl
@[simp] theorem die_ccDest (r : FatalReason) : (s.die r).ccDest = s.ccDest := rfl
@[simp] theorem die_ccSrc (r : FatalReason) : (s.die r).ccSrc = s.ccSrc := rfl
@[simp] theorem die_ccX (r : FatalReason) : (s.die r).ccX = s.ccX := rfl
@[simp] theorem die_spSlots (r : FatalReason) : (s.die r).spSlots = s.spSlots := rfl
@[simp] theorem die_currentSp (r : FatalReason) : (s.die r).currentSp = s.currentSp := rfl
@[simp] theorem die_sfc (r : FatalReason) : (s.die r).sfc = s.sfc := rfl
@[simp] theorem die_dfc (r : FatalReason) : (s.die r).dfc = s.dfc := rfl
@[simp] theorem die_vbr (r : FatalReason) : (s.die r).vbr = s.vbr := rfl
@[simp] theorem die_fp (r : FatalReason) : (s.die r).fp = s.fp := rfl
@[simp] theorem die_fpcr (r : FatalReason) : (s.die r).fpcr = s.fpcr := rfl
@[simp] theorem die_fpsr (r : FatalReason) : (s.die r).fpsr = s.fpsr := rfl
@[simp] theorem die_acc (r : FatalReason) : (s.die r).acc = s.acc := rfl
@[simp] theorem die_macMask (r : FatalReason) : (s.die r).macMask = s.macMask := rfl
@[simp] theorem die_macsr (r : FatalReason) : (s.die r).macsr = s.macsr := rfl
@[simp] theorem die_pendingLevel (r : FatalReason) : (s.die r).pendingLevel = s.pendingLevel := rfl
@[simp] theorem die_pendingVector (r : FatalReason) : (s.die r).pendingVector = s.pendingVector := rfl
@[simp] theorem die_root (r : FatalReason) : (s.die r).root = s.root := rfl
@[simp] theorem die_ttr (r : FatalReason) : (s.die r).ttr = s.ttr := rfl
@[simp] theorem die_tcr (r : FatalReason) : (s.die r).tcr = s.tcr := rfl
@[simp] theorem die_mmusr (r : FatalReason) : (s.die r).mmusr = s.mmusr := rfl
@[simp] theorem die_halted (r : FatalReason) : (s.die r).halted = s.halted := rfl
@[simp] theorem die_bootState (r : FatalReason) : (s.die r).bootState = s.bootState := rfl
@[simp] theorem die_fatal (r : FatalReason) : (s.die r).fatal = some r := rfl
@[simp] theorem die_mem (r : FatalReason) : (s.die r).mem = s.mem := rfl
@[simp] theorem die_regions (r : FatalReason) : (s.die r).regions = s.regions := rfl
@[simp] theorem die_ramSize (r : FatalReason) : (s.die r).ramSize = s.ramSize := rfl
@[simp] theorem die_cfg (r : FatalReason) : (s.die r).cfg = s.cfg := rfl
@[simp] theorem die_inbox (r : FatalReason) : (s.die r).inbox = s.inbox := rfl
@[simp] theorem die_reply (r : FatalReason) : (s.die r).reply = .fatal r := rfl
@[simp] theorem die_reads (r : FatalReason) : (s.die r).reads = s.reads := rfl

/-! ### A condition-code record -/

@[simp] theorem setRecord_d (k : CcKind) (x : Bool) (dest src : Word) : (s.setRecord k x dest src).d = s.d := rfl
@[simp] theorem setRecord_a (k : CcKind) (x : Bool) (dest src : Word) : (s.setRecord k x dest src).a = s.a := rfl
@[simp] theorem setRecord_pc (k : CcKind) (x : Bool) (dest src : Word) : (s.setRecord k x dest src).pc = s.pc := rfl
@[simp] theorem setRecord_srHi (k : CcKind) (x : Bool) (dest src : Word) : (s.setRecord k x dest src).srHi = s.srHi := rfl
@[simp] theorem setRecord_ccOp (k : CcKind) (x : Bool) (dest src : Word) : (s.setRecord k x dest src).ccOp = k := rfl
@[simp] theorem setRecord_ccDest (k : CcKind) (x : Bool) (dest src : Word) : (s.setRecord k x dest src).ccDest = dest := rfl
@[simp] theorem setRecord_ccSrc (k : CcKind) (x : Bool) (dest src : Word) : (s.setRecord k x dest src).ccSrc = src := rfl
@[simp] theorem setRecord_ccX (k : CcKind) (x : Bool) (dest src : Word) : (s.setRecord k x dest src).ccX = x := rfl
@[simp] theorem setRecord_spSlots (k : CcKind) (x : Bool) (dest src : Word) : (s.setRecord k x dest src).spSlots = s.spSlots := rfl
@[simp] theorem setRecord_currentSp (k : CcKind) (x : Bool) (dest src : Word) : (s.setRecord k x dest src).currentSp = s.currentSp := rfl
@[simp] theorem setRecord_sfc (k : CcKind) (x : Bool) (dest src : Word) : (s.setRecord k x dest src).sfc = s.sfc := rfl
@[simp] theorem setRecord_dfc (k : CcKind) (x : Bool) (dest src : Word) : (s.setRecord k x dest src).dfc = s.dfc := rfl
@[simp] theorem setRecord_vbr (k : CcKind) (x : Bool) (dest src : Word) : (s.setRecord k x dest src).vbr = s.vbr := rfl
@[simp] theorem setRecord_fp (k : CcKind) (x : Bool) (dest src : Word) : (s.setRecord k x dest src).fp = s.fp := rfl
@[simp] theorem setRecord_fpcr (k : CcKind) (x : Bool) (dest src : Word) : (s.setRecord k x dest src).fpcr = s.fpcr := rfl
@[simp] theorem setRecord_fpsr (k : CcKind) (x : Bool) (dest src : Word) : (s.setRecord k x dest src).fpsr = s.fpsr := rfl
@[simp] theorem setRecord_acc (k : CcKind) (x : Bool) (dest src : Word) : (s.setRecord k x dest src).acc = s.acc := rfl
@[simp] theorem setRecord_macMask (k : CcKind) (x : Bool) (dest src : Word) : (s.setRecord k x dest src).macMask = s.macMask := rfl
@[simp] theorem setRecord_macsr (k : CcKind) (x : Bool) (dest src : Word) : (s.setRecord k x dest src).macsr = s.macsr := rfl
@[simp] theorem setRecord_pendingLevel (k : CcKind) (x : Bool) (dest src : Word) : (s.setRecord k x dest src).pendingLevel = s.pendingLevel := rfl
@[simp] theorem setRecord_pendingVector (k : CcKind) (x : Bool) (dest src : Word) : (s.setRecord k x dest src).pendingVector = s.pendingVector := rfl
@[simp] theorem setRecord_root (k : CcKind) (x : Bool) (dest src : Word) : (s.setRecord k x dest src).root = s.root := rfl
@[simp] theorem setRecord_ttr (k : CcKind) (x : Bool) (dest src : Word) : (s.setRecord k x dest src).ttr = s.ttr := rfl
@[simp] theorem setRecord_tcr (k : CcKind) (x : Bool) (dest src : Word) : (s.setRecord k x dest src).tcr = s.tcr := rfl
@[simp] theorem setRecord_mmusr (k : CcKind) (x : Bool) (dest src : Word) : (s.setRecord k x dest src).mmusr = s.mmusr := rfl
@[simp] theorem setRecord_halted (k : CcKind) (x : Bool) (dest src : Word) : (s.setRecord k x dest src).halted = s.halted := rfl
@[simp] theorem setRecord_bootState (k : CcKind) (x : Bool) (dest src : Word) : (s.setRecord k x dest src).bootState = s.bootState := rfl
@[simp] theorem setRecord_fatal (k : CcKind) (x : Bool) (dest src : Word) : (s.setRecord k x dest src).fatal = s.fatal := rfl
@[simp] theorem setRecord_mem (k : CcKind) (x : Bool) (dest src : Word) : (s.setRecord k x dest src).mem = s.mem := rfl
@[simp] theorem setRecord_regions (k : CcKind) (x : Bool) (dest src : Word) : (s.setRecord k x dest src).regions = s.regions := rfl
@[simp] theorem setRecord_ramSize (k : CcKind) (x : Bool) (dest src : Word) : (s.setRecord k x dest src).ramSize = s.ramSize := rfl
@[simp] theorem setRecord_cfg (k : CcKind) (x : Bool) (dest src : Word) : (s.setRecord k x dest src).cfg = s.cfg := rfl
@[simp] theorem setRecord_inbox (k : CcKind) (x : Bool) (dest src : Word) : (s.setRecord k x dest src).inbox = s.inbox := rfl
@[simp] theorem setRecord_reply (k : CcKind) (x : Bool) (dest src : Word) : (s.setRecord k x dest src).reply = s.reply := rfl
@[simp] theorem setRecord_reads (k : CcKind) (x : Bool) (dest src : Word) : (s.setRecord k x dest src).reads = s.reads := rfl

/-! ### The condition codes -/

@[simp] theorem setCcr_d (v : Byte) : (s.setCcr v).d = s.d := rfl
@[simp] theorem setCcr_a (v : Byte) : (s.setCcr v).a = s.a := rfl
@[simp] theorem setCcr_pc (v : Byte) : (s.setCcr v).pc = s.pc := rfl
@[simp] theorem setCcr_srHi (v : Byte) : (s.setCcr v).srHi = s.srHi := rfl
@[simp] theorem setCcr_ccOp (v : Byte) : (s.setCcr v).ccOp = .flags := rfl
@[simp] theorem setCcr_ccDest (v : Byte) : (s.setCcr v).ccDest = (v.extractLsb' 0 4).setWidth 32 := rfl
@[simp] theorem setCcr_ccSrc (v : Byte) : (s.setCcr v).ccSrc = 0 := rfl
@[simp] theorem setCcr_ccX (v : Byte) : (s.setCcr v).ccX = v.getLsbD 4 := rfl
@[simp] theorem setCcr_spSlots (v : Byte) : (s.setCcr v).spSlots = s.spSlots := rfl
@[simp] theorem setCcr_currentSp (v : Byte) : (s.setCcr v).currentSp = s.currentSp := rfl
@[simp] theorem setCcr_sfc (v : Byte) : (s.setCcr v).sfc = s.sfc := rfl
@[simp] theorem setCcr_dfc (v : Byte) : (s.setCcr v).dfc = s.dfc := rfl
@[simp] theorem setCcr_vbr (v : Byte) : (s.setCcr v).vbr = s.vbr := rfl
@[simp] theorem setCcr_fp (v : Byte) : (s.setCcr v).fp = s.fp := rfl
@[simp] theorem setCcr_fpcr (v : Byte) : (s.setCcr v).fpcr = s.fpcr := rfl
@[simp] theorem setCcr_fpsr (v : Byte) : (s.setCcr v).fpsr = s.fpsr := rfl
@[simp] theorem setCcr_acc (v : Byte) : (s.setCcr v).acc = s.acc := rfl
@[simp] theorem setCcr_macMask (v : Byte) : (s.setCcr v).macMask = s.macMask := rfl
@[simp] theorem setCcr_macsr (v : Byte) : (s.setCcr v).macsr = s.macsr := rfl
@[simp] theorem setCcr_pendingLevel (v : Byte) : (s.setCcr v).pendingLevel = s.pendingLevel := rfl
@[simp] theorem setCcr_pendingVector (v : Byte) : (s.setCcr v).pendingVector = s.pendingVector := rfl
@[simp] theorem setCcr_root (v : Byte) : (s.setCcr v).root = s.root := rfl
@[simp] theorem setCcr_ttr (v : Byte) : (s.setCcr v).ttr = s.ttr := rfl
@[simp] theorem setCcr_tcr (v : Byte) : (s.setCcr v).tcr = s.tcr := rfl
@[simp] theorem setCcr_mmusr (v : Byte) : (s.setCcr v).mmusr = s.mmusr := rfl
@[simp] theorem setCcr_halted (v : Byte) : (s.setCcr v).halted = s.halted := rfl
@[simp] theorem setCcr_bootState (v : Byte) : (s.setCcr v).bootState = s.bootState := rfl
@[simp] theorem setCcr_fatal (v : Byte) : (s.setCcr v).fatal = s.fatal := rfl
@[simp] theorem setCcr_mem (v : Byte) : (s.setCcr v).mem = s.mem := rfl
@[simp] theorem setCcr_regions (v : Byte) : (s.setCcr v).regions = s.regions := rfl
@[simp] theorem setCcr_ramSize (v : Byte) : (s.setCcr v).ramSize = s.ramSize := rfl
@[simp] theorem setCcr_cfg (v : Byte) : (s.setCcr v).cfg = s.cfg := rfl
@[simp] theorem setCcr_inbox (v : Byte) : (s.setCcr v).inbox = s.inbox := rfl
@[simp] theorem setCcr_reply (v : Byte) : (s.setCcr v).reply = s.reply := rfl
@[simp] theorem setCcr_reads (v : Byte) : (s.setCcr v).reads = s.reads := rfl

/-! ### The stack-pointer switch -/

@[simp] theorem switchSp_d : (s.switchSp).d = s.d := rfl
@[simp] theorem switchSp_pc : (s.switchSp).pc = s.pc := rfl
@[simp] theorem switchSp_srHi : (s.switchSp).srHi = s.srHi := rfl
@[simp] theorem switchSp_ccOp : (s.switchSp).ccOp = s.ccOp := rfl
@[simp] theorem switchSp_ccDest : (s.switchSp).ccDest = s.ccDest := rfl
@[simp] theorem switchSp_ccSrc : (s.switchSp).ccSrc = s.ccSrc := rfl
@[simp] theorem switchSp_ccX : (s.switchSp).ccX = s.ccX := rfl
@[simp] theorem switchSp_currentSp : (s.switchSp).currentSp = s.sel s.readSr := rfl
@[simp] theorem switchSp_sfc : (s.switchSp).sfc = s.sfc := rfl
@[simp] theorem switchSp_dfc : (s.switchSp).dfc = s.dfc := rfl
@[simp] theorem switchSp_vbr : (s.switchSp).vbr = s.vbr := rfl
@[simp] theorem switchSp_fp : (s.switchSp).fp = s.fp := rfl
@[simp] theorem switchSp_fpcr : (s.switchSp).fpcr = s.fpcr := rfl
@[simp] theorem switchSp_fpsr : (s.switchSp).fpsr = s.fpsr := rfl
@[simp] theorem switchSp_acc : (s.switchSp).acc = s.acc := rfl
@[simp] theorem switchSp_macMask : (s.switchSp).macMask = s.macMask := rfl
@[simp] theorem switchSp_macsr : (s.switchSp).macsr = s.macsr := rfl
@[simp] theorem switchSp_pendingLevel : (s.switchSp).pendingLevel = s.pendingLevel := rfl
@[simp] theorem switchSp_pendingVector : (s.switchSp).pendingVector = s.pendingVector := rfl
@[simp] theorem switchSp_root : (s.switchSp).root = s.root := rfl
@[simp] theorem switchSp_ttr : (s.switchSp).ttr = s.ttr := rfl
@[simp] theorem switchSp_tcr : (s.switchSp).tcr = s.tcr := rfl
@[simp] theorem switchSp_mmusr : (s.switchSp).mmusr = s.mmusr := rfl
@[simp] theorem switchSp_halted : (s.switchSp).halted = s.halted := rfl
@[simp] theorem switchSp_bootState : (s.switchSp).bootState = s.bootState := rfl
@[simp] theorem switchSp_fatal : (s.switchSp).fatal = s.fatal := rfl
@[simp] theorem switchSp_mem : (s.switchSp).mem = s.mem := rfl
@[simp] theorem switchSp_regions : (s.switchSp).regions = s.regions := rfl
@[simp] theorem switchSp_ramSize : (s.switchSp).ramSize = s.ramSize := rfl
@[simp] theorem switchSp_cfg : (s.switchSp).cfg = s.cfg := rfl
@[simp] theorem switchSp_inbox : (s.switchSp).inbox = s.inbox := rfl
@[simp] theorem switchSp_reply : (s.switchSp).reply = s.reply := rfl
@[simp] theorem switchSp_reads : (s.switchSp).reads = s.reads := rfl

/-! ### The status register -/

@[simp] theorem setSr_d (v : Half) : (s.setSr v).d = s.d := rfl
@[simp] theorem setSr_pc (v : Half) : (s.setSr v).pc = s.pc := rfl
@[simp] theorem setSr_srHi (v : Half) : (s.setSr v).srHi = v.extractLsb' 8 8 := rfl
@[simp] theorem setSr_ccOp (v : Half) : (s.setSr v).ccOp = .flags := rfl
@[simp] theorem setSr_ccSrc (v : Half) : (s.setSr v).ccSrc = 0 := rfl
@[simp] theorem setSr_sfc (v : Half) : (s.setSr v).sfc = s.sfc := rfl
@[simp] theorem setSr_dfc (v : Half) : (s.setSr v).dfc = s.dfc := rfl
@[simp] theorem setSr_vbr (v : Half) : (s.setSr v).vbr = s.vbr := rfl
@[simp] theorem setSr_fp (v : Half) : (s.setSr v).fp = s.fp := rfl
@[simp] theorem setSr_fpcr (v : Half) : (s.setSr v).fpcr = s.fpcr := rfl
@[simp] theorem setSr_fpsr (v : Half) : (s.setSr v).fpsr = s.fpsr := rfl
@[simp] theorem setSr_acc (v : Half) : (s.setSr v).acc = s.acc := rfl
@[simp] theorem setSr_macMask (v : Half) : (s.setSr v).macMask = s.macMask := rfl
@[simp] theorem setSr_macsr (v : Half) : (s.setSr v).macsr = s.macsr := rfl
@[simp] theorem setSr_pendingLevel (v : Half) : (s.setSr v).pendingLevel = s.pendingLevel := rfl
@[simp] theorem setSr_pendingVector (v : Half) : (s.setSr v).pendingVector = s.pendingVector := rfl
@[simp] theorem setSr_root (v : Half) : (s.setSr v).root = s.root := rfl
@[simp] theorem setSr_ttr (v : Half) : (s.setSr v).ttr = s.ttr := rfl
@[simp] theorem setSr_tcr (v : Half) : (s.setSr v).tcr = s.tcr := rfl
@[simp] theorem setSr_mmusr (v : Half) : (s.setSr v).mmusr = s.mmusr := rfl
@[simp] theorem setSr_halted (v : Half) : (s.setSr v).halted = s.halted := rfl
@[simp] theorem setSr_bootState (v : Half) : (s.setSr v).bootState = s.bootState := rfl
@[simp] theorem setSr_fatal (v : Half) : (s.setSr v).fatal = s.fatal := rfl
@[simp] theorem setSr_mem (v : Half) : (s.setSr v).mem = s.mem := rfl
@[simp] theorem setSr_regions (v : Half) : (s.setSr v).regions = s.regions := rfl
@[simp] theorem setSr_ramSize (v : Half) : (s.setSr v).ramSize = s.ramSize := rfl
@[simp] theorem setSr_cfg (v : Half) : (s.setSr v).cfg = s.cfg := rfl
@[simp] theorem setSr_inbox (v : Half) : (s.setSr v).inbox = s.inbox := rfl
@[simp] theorem setSr_reply (v : Half) : (s.setSr v).reply = s.reply := rfl
@[simp] theorem setSr_reads (v : Half) : (s.setSr v).reads = s.reads := rfl

/-! ### A floating-point register -/

@[simp] theorem setFp_d (n : Fin 8) (v : Nat) : (s.setFp n v).d = s.d := rfl
@[simp] theorem setFp_a (n : Fin 8) (v : Nat) : (s.setFp n v).a = s.a := rfl
@[simp] theorem setFp_pc (n : Fin 8) (v : Nat) : (s.setFp n v).pc = s.pc := rfl
@[simp] theorem setFp_srHi (n : Fin 8) (v : Nat) : (s.setFp n v).srHi = s.srHi := rfl
@[simp] theorem setFp_ccOp (n : Fin 8) (v : Nat) : (s.setFp n v).ccOp = s.ccOp := rfl
@[simp] theorem setFp_ccDest (n : Fin 8) (v : Nat) : (s.setFp n v).ccDest = s.ccDest := rfl
@[simp] theorem setFp_ccSrc (n : Fin 8) (v : Nat) : (s.setFp n v).ccSrc = s.ccSrc := rfl
@[simp] theorem setFp_ccX (n : Fin 8) (v : Nat) : (s.setFp n v).ccX = s.ccX := rfl
@[simp] theorem setFp_spSlots (n : Fin 8) (v : Nat) : (s.setFp n v).spSlots = s.spSlots := rfl
@[simp] theorem setFp_currentSp (n : Fin 8) (v : Nat) : (s.setFp n v).currentSp = s.currentSp := rfl
@[simp] theorem setFp_sfc (n : Fin 8) (v : Nat) : (s.setFp n v).sfc = s.sfc := rfl
@[simp] theorem setFp_dfc (n : Fin 8) (v : Nat) : (s.setFp n v).dfc = s.dfc := rfl
@[simp] theorem setFp_vbr (n : Fin 8) (v : Nat) : (s.setFp n v).vbr = s.vbr := rfl
@[simp] theorem setFp_fp (n : Fin 8) (v : Nat) : (s.setFp n v).fp = s.fp.set n (v % 2 ^ s.cfg.fpBits) := rfl
@[simp] theorem setFp_fpcr (n : Fin 8) (v : Nat) : (s.setFp n v).fpcr = s.fpcr := rfl
@[simp] theorem setFp_fpsr (n : Fin 8) (v : Nat) : (s.setFp n v).fpsr = s.fpsr := rfl
@[simp] theorem setFp_acc (n : Fin 8) (v : Nat) : (s.setFp n v).acc = s.acc := rfl
@[simp] theorem setFp_macMask (n : Fin 8) (v : Nat) : (s.setFp n v).macMask = s.macMask := rfl
@[simp] theorem setFp_macsr (n : Fin 8) (v : Nat) : (s.setFp n v).macsr = s.macsr := rfl
@[simp] theorem setFp_pendingLevel (n : Fin 8) (v : Nat) : (s.setFp n v).pendingLevel = s.pendingLevel := rfl
@[simp] theorem setFp_pendingVector (n : Fin 8) (v : Nat) : (s.setFp n v).pendingVector = s.pendingVector := rfl
@[simp] theorem setFp_root (n : Fin 8) (v : Nat) : (s.setFp n v).root = s.root := rfl
@[simp] theorem setFp_ttr (n : Fin 8) (v : Nat) : (s.setFp n v).ttr = s.ttr := rfl
@[simp] theorem setFp_tcr (n : Fin 8) (v : Nat) : (s.setFp n v).tcr = s.tcr := rfl
@[simp] theorem setFp_mmusr (n : Fin 8) (v : Nat) : (s.setFp n v).mmusr = s.mmusr := rfl
@[simp] theorem setFp_halted (n : Fin 8) (v : Nat) : (s.setFp n v).halted = s.halted := rfl
@[simp] theorem setFp_bootState (n : Fin 8) (v : Nat) : (s.setFp n v).bootState = s.bootState := rfl
@[simp] theorem setFp_fatal (n : Fin 8) (v : Nat) : (s.setFp n v).fatal = s.fatal := rfl
@[simp] theorem setFp_mem (n : Fin 8) (v : Nat) : (s.setFp n v).mem = s.mem := rfl
@[simp] theorem setFp_regions (n : Fin 8) (v : Nat) : (s.setFp n v).regions = s.regions := rfl
@[simp] theorem setFp_ramSize (n : Fin 8) (v : Nat) : (s.setFp n v).ramSize = s.ramSize := rfl
@[simp] theorem setFp_cfg (n : Fin 8) (v : Nat) : (s.setFp n v).cfg = s.cfg := rfl
@[simp] theorem setFp_inbox (n : Fin 8) (v : Nat) : (s.setFp n v).inbox = s.inbox := rfl
@[simp] theorem setFp_reply (n : Fin 8) (v : Nat) : (s.setFp n v).reply = s.reply := rfl
@[simp] theorem setFp_reads (n : Fin 8) (v : Nat) : (s.setFp n v).reads = s.reads := rfl

/-! ### A stack-pointer slot -/

@[simp] theorem setSpSlot_d (k : SpSlot) (v : Word) : (s.setSpSlot k v).d = s.d := by unfold State.setSpSlot; split <;> rfl
@[simp] theorem setSpSlot_pc (k : SpSlot) (v : Word) : (s.setSpSlot k v).pc = s.pc := by unfold State.setSpSlot; split <;> rfl
@[simp] theorem setSpSlot_srHi (k : SpSlot) (v : Word) : (s.setSpSlot k v).srHi = s.srHi := by unfold State.setSpSlot; split <;> rfl
@[simp] theorem setSpSlot_ccOp (k : SpSlot) (v : Word) : (s.setSpSlot k v).ccOp = s.ccOp := by unfold State.setSpSlot; split <;> rfl
@[simp] theorem setSpSlot_ccDest (k : SpSlot) (v : Word) : (s.setSpSlot k v).ccDest = s.ccDest := by unfold State.setSpSlot; split <;> rfl
@[simp] theorem setSpSlot_ccSrc (k : SpSlot) (v : Word) : (s.setSpSlot k v).ccSrc = s.ccSrc := by unfold State.setSpSlot; split <;> rfl
@[simp] theorem setSpSlot_ccX (k : SpSlot) (v : Word) : (s.setSpSlot k v).ccX = s.ccX := by unfold State.setSpSlot; split <;> rfl
@[simp] theorem setSpSlot_currentSp (k : SpSlot) (v : Word) : (s.setSpSlot k v).currentSp = s.currentSp := by unfold State.setSpSlot; split <;> rfl
@[simp] theorem setSpSlot_sfc (k : SpSlot) (v : Word) : (s.setSpSlot k v).sfc = s.sfc := by unfold State.setSpSlot; split <;> rfl
@[simp] theorem setSpSlot_dfc (k : SpSlot) (v : Word) : (s.setSpSlot k v).dfc = s.dfc := by unfold State.setSpSlot; split <;> rfl
@[simp] theorem setSpSlot_vbr (k : SpSlot) (v : Word) : (s.setSpSlot k v).vbr = s.vbr := by unfold State.setSpSlot; split <;> rfl
@[simp] theorem setSpSlot_fp (k : SpSlot) (v : Word) : (s.setSpSlot k v).fp = s.fp := by unfold State.setSpSlot; split <;> rfl
@[simp] theorem setSpSlot_fpcr (k : SpSlot) (v : Word) : (s.setSpSlot k v).fpcr = s.fpcr := by unfold State.setSpSlot; split <;> rfl
@[simp] theorem setSpSlot_fpsr (k : SpSlot) (v : Word) : (s.setSpSlot k v).fpsr = s.fpsr := by unfold State.setSpSlot; split <;> rfl
@[simp] theorem setSpSlot_acc (k : SpSlot) (v : Word) : (s.setSpSlot k v).acc = s.acc := by unfold State.setSpSlot; split <;> rfl
@[simp] theorem setSpSlot_macMask (k : SpSlot) (v : Word) : (s.setSpSlot k v).macMask = s.macMask := by unfold State.setSpSlot; split <;> rfl
@[simp] theorem setSpSlot_macsr (k : SpSlot) (v : Word) : (s.setSpSlot k v).macsr = s.macsr := by unfold State.setSpSlot; split <;> rfl
@[simp] theorem setSpSlot_pendingLevel (k : SpSlot) (v : Word) : (s.setSpSlot k v).pendingLevel = s.pendingLevel := by unfold State.setSpSlot; split <;> rfl
@[simp] theorem setSpSlot_pendingVector (k : SpSlot) (v : Word) : (s.setSpSlot k v).pendingVector = s.pendingVector := by unfold State.setSpSlot; split <;> rfl
@[simp] theorem setSpSlot_root (k : SpSlot) (v : Word) : (s.setSpSlot k v).root = s.root := by unfold State.setSpSlot; split <;> rfl
@[simp] theorem setSpSlot_ttr (k : SpSlot) (v : Word) : (s.setSpSlot k v).ttr = s.ttr := by unfold State.setSpSlot; split <;> rfl
@[simp] theorem setSpSlot_tcr (k : SpSlot) (v : Word) : (s.setSpSlot k v).tcr = s.tcr := by unfold State.setSpSlot; split <;> rfl
@[simp] theorem setSpSlot_mmusr (k : SpSlot) (v : Word) : (s.setSpSlot k v).mmusr = s.mmusr := by unfold State.setSpSlot; split <;> rfl
@[simp] theorem setSpSlot_halted (k : SpSlot) (v : Word) : (s.setSpSlot k v).halted = s.halted := by unfold State.setSpSlot; split <;> rfl
@[simp] theorem setSpSlot_bootState (k : SpSlot) (v : Word) : (s.setSpSlot k v).bootState = s.bootState := by unfold State.setSpSlot; split <;> rfl
@[simp] theorem setSpSlot_fatal (k : SpSlot) (v : Word) : (s.setSpSlot k v).fatal = s.fatal := by unfold State.setSpSlot; split <;> rfl
@[simp] theorem setSpSlot_mem (k : SpSlot) (v : Word) : (s.setSpSlot k v).mem = s.mem := by unfold State.setSpSlot; split <;> rfl
@[simp] theorem setSpSlot_regions (k : SpSlot) (v : Word) : (s.setSpSlot k v).regions = s.regions := by unfold State.setSpSlot; split <;> rfl
@[simp] theorem setSpSlot_ramSize (k : SpSlot) (v : Word) : (s.setSpSlot k v).ramSize = s.ramSize := by unfold State.setSpSlot; split <;> rfl
@[simp] theorem setSpSlot_cfg (k : SpSlot) (v : Word) : (s.setSpSlot k v).cfg = s.cfg := by unfold State.setSpSlot; split <;> rfl
@[simp] theorem setSpSlot_inbox (k : SpSlot) (v : Word) : (s.setSpSlot k v).inbox = s.inbox := by unfold State.setSpSlot; split <;> rfl
@[simp] theorem setSpSlot_reply (k : SpSlot) (v : Word) : (s.setSpSlot k v).reply = s.reply := by unfold State.setSpSlot; split <;> rfl
@[simp] theorem setSpSlot_reads (k : SpSlot) (v : Word) : (s.setSpSlot k v).reads = s.reads := by unfold State.setSpSlot; split <;> rfl

/-! ### A unit register -/

@[simp] theorem writeUnit_d (r : UnitReg) (v : Acc) : (s.writeUnit r v).d = s.d := by cases r <;> rfl
@[simp] theorem writeUnit_a (r : UnitReg) (v : Acc) : (s.writeUnit r v).a = s.a := by cases r <;> rfl
@[simp] theorem writeUnit_pc (r : UnitReg) (v : Acc) : (s.writeUnit r v).pc = s.pc := by cases r <;> rfl
@[simp] theorem writeUnit_srHi (r : UnitReg) (v : Acc) : (s.writeUnit r v).srHi = s.srHi := by cases r <;> rfl
@[simp] theorem writeUnit_ccOp (r : UnitReg) (v : Acc) : (s.writeUnit r v).ccOp = s.ccOp := by cases r <;> rfl
@[simp] theorem writeUnit_ccDest (r : UnitReg) (v : Acc) : (s.writeUnit r v).ccDest = s.ccDest := by cases r <;> rfl
@[simp] theorem writeUnit_ccSrc (r : UnitReg) (v : Acc) : (s.writeUnit r v).ccSrc = s.ccSrc := by cases r <;> rfl
@[simp] theorem writeUnit_ccX (r : UnitReg) (v : Acc) : (s.writeUnit r v).ccX = s.ccX := by cases r <;> rfl
@[simp] theorem writeUnit_spSlots (r : UnitReg) (v : Acc) : (s.writeUnit r v).spSlots = s.spSlots := by cases r <;> rfl
@[simp] theorem writeUnit_currentSp (r : UnitReg) (v : Acc) : (s.writeUnit r v).currentSp = s.currentSp := by cases r <;> rfl
@[simp] theorem writeUnit_sfc (r : UnitReg) (v : Acc) : (s.writeUnit r v).sfc = s.sfc := by cases r <;> rfl
@[simp] theorem writeUnit_dfc (r : UnitReg) (v : Acc) : (s.writeUnit r v).dfc = s.dfc := by cases r <;> rfl
@[simp] theorem writeUnit_vbr (r : UnitReg) (v : Acc) : (s.writeUnit r v).vbr = s.vbr := by cases r <;> rfl
@[simp] theorem writeUnit_fp (r : UnitReg) (v : Acc) : (s.writeUnit r v).fp = s.fp := by cases r <;> rfl
@[simp] theorem writeUnit_pendingLevel (r : UnitReg) (v : Acc) : (s.writeUnit r v).pendingLevel = s.pendingLevel := by cases r <;> rfl
@[simp] theorem writeUnit_pendingVector (r : UnitReg) (v : Acc) : (s.writeUnit r v).pendingVector = s.pendingVector := by cases r <;> rfl
@[simp] theorem writeUnit_root (r : UnitReg) (v : Acc) : (s.writeUnit r v).root = s.root := by cases r <;> rfl
@[simp] theorem writeUnit_ttr (r : UnitReg) (v : Acc) : (s.writeUnit r v).ttr = s.ttr := by cases r <;> rfl
@[simp] theorem writeUnit_tcr (r : UnitReg) (v : Acc) : (s.writeUnit r v).tcr = s.tcr := by cases r <;> rfl
@[simp] theorem writeUnit_mmusr (r : UnitReg) (v : Acc) : (s.writeUnit r v).mmusr = s.mmusr := by cases r <;> rfl
@[simp] theorem writeUnit_halted (r : UnitReg) (v : Acc) : (s.writeUnit r v).halted = s.halted := by cases r <;> rfl
@[simp] theorem writeUnit_bootState (r : UnitReg) (v : Acc) : (s.writeUnit r v).bootState = s.bootState := by cases r <;> rfl
@[simp] theorem writeUnit_fatal (r : UnitReg) (v : Acc) : (s.writeUnit r v).fatal = s.fatal := by cases r <;> rfl
@[simp] theorem writeUnit_mem (r : UnitReg) (v : Acc) : (s.writeUnit r v).mem = s.mem := by cases r <;> rfl
@[simp] theorem writeUnit_regions (r : UnitReg) (v : Acc) : (s.writeUnit r v).regions = s.regions := by cases r <;> rfl
@[simp] theorem writeUnit_ramSize (r : UnitReg) (v : Acc) : (s.writeUnit r v).ramSize = s.ramSize := by cases r <;> rfl
@[simp] theorem writeUnit_cfg (r : UnitReg) (v : Acc) : (s.writeUnit r v).cfg = s.cfg := by cases r <;> rfl
@[simp] theorem writeUnit_inbox (r : UnitReg) (v : Acc) : (s.writeUnit r v).inbox = s.inbox := by cases r <;> rfl
@[simp] theorem writeUnit_reply (r : UnitReg) (v : Acc) : (s.writeUnit r v).reply = s.reply := by cases r <;> rfl
@[simp] theorem writeUnit_reads (r : UnitReg) (v : Acc) : (s.writeUnit r v).reads = s.reads := by cases r <;> rfl

/-! ### A control register -/

@[simp] theorem writeCtrl_d (r : CtrlReg) (v : Word) : (s.writeCtrl r v).d = s.d := by cases r <;> rfl
@[simp] theorem writeCtrl_a (r : CtrlReg) (v : Word) : (s.writeCtrl r v).a = s.a := by cases r <;> rfl
@[simp] theorem writeCtrl_pc (r : CtrlReg) (v : Word) : (s.writeCtrl r v).pc = s.pc := by cases r <;> rfl
@[simp] theorem writeCtrl_srHi (r : CtrlReg) (v : Word) : (s.writeCtrl r v).srHi = s.srHi := by cases r <;> rfl
@[simp] theorem writeCtrl_ccOp (r : CtrlReg) (v : Word) : (s.writeCtrl r v).ccOp = s.ccOp := by cases r <;> rfl
@[simp] theorem writeCtrl_ccDest (r : CtrlReg) (v : Word) : (s.writeCtrl r v).ccDest = s.ccDest := by cases r <;> rfl
@[simp] theorem writeCtrl_ccSrc (r : CtrlReg) (v : Word) : (s.writeCtrl r v).ccSrc = s.ccSrc := by cases r <;> rfl
@[simp] theorem writeCtrl_ccX (r : CtrlReg) (v : Word) : (s.writeCtrl r v).ccX = s.ccX := by cases r <;> rfl
@[simp] theorem writeCtrl_spSlots (r : CtrlReg) (v : Word) : (s.writeCtrl r v).spSlots = s.spSlots := by cases r <;> rfl
@[simp] theorem writeCtrl_currentSp (r : CtrlReg) (v : Word) : (s.writeCtrl r v).currentSp = s.currentSp := by cases r <;> rfl
@[simp] theorem writeCtrl_fp (r : CtrlReg) (v : Word) : (s.writeCtrl r v).fp = s.fp := by cases r <;> rfl
@[simp] theorem writeCtrl_fpcr (r : CtrlReg) (v : Word) : (s.writeCtrl r v).fpcr = s.fpcr := by cases r <;> rfl
@[simp] theorem writeCtrl_fpsr (r : CtrlReg) (v : Word) : (s.writeCtrl r v).fpsr = s.fpsr := by cases r <;> rfl
@[simp] theorem writeCtrl_acc (r : CtrlReg) (v : Word) : (s.writeCtrl r v).acc = s.acc := by cases r <;> rfl
@[simp] theorem writeCtrl_macMask (r : CtrlReg) (v : Word) : (s.writeCtrl r v).macMask = s.macMask := by cases r <;> rfl
@[simp] theorem writeCtrl_macsr (r : CtrlReg) (v : Word) : (s.writeCtrl r v).macsr = s.macsr := by cases r <;> rfl
@[simp] theorem writeCtrl_pendingLevel (r : CtrlReg) (v : Word) : (s.writeCtrl r v).pendingLevel = s.pendingLevel := by cases r <;> rfl
@[simp] theorem writeCtrl_pendingVector (r : CtrlReg) (v : Word) : (s.writeCtrl r v).pendingVector = s.pendingVector := by cases r <;> rfl
@[simp] theorem writeCtrl_halted (r : CtrlReg) (v : Word) : (s.writeCtrl r v).halted = s.halted := by cases r <;> rfl
@[simp] theorem writeCtrl_bootState (r : CtrlReg) (v : Word) : (s.writeCtrl r v).bootState = s.bootState := by cases r <;> rfl
@[simp] theorem writeCtrl_fatal (r : CtrlReg) (v : Word) : (s.writeCtrl r v).fatal = s.fatal := by cases r <;> rfl
@[simp] theorem writeCtrl_mem (r : CtrlReg) (v : Word) : (s.writeCtrl r v).mem = s.mem := by cases r <;> rfl
@[simp] theorem writeCtrl_regions (r : CtrlReg) (v : Word) : (s.writeCtrl r v).regions = s.regions := by cases r <;> rfl
@[simp] theorem writeCtrl_ramSize (r : CtrlReg) (v : Word) : (s.writeCtrl r v).ramSize = s.ramSize := by cases r <;> rfl
@[simp] theorem writeCtrl_cfg (r : CtrlReg) (v : Word) : (s.writeCtrl r v).cfg = s.cfg := by cases r <;> rfl
@[simp] theorem writeCtrl_inbox (r : CtrlReg) (v : Word) : (s.writeCtrl r v).inbox = s.inbox := by cases r <;> rfl
@[simp] theorem writeCtrl_reply (r : CtrlReg) (v : Word) : (s.writeCtrl r v).reply = s.reply := by cases r <;> rfl
@[simp] theorem writeCtrl_reads (r : CtrlReg) (v : Word) : (s.writeCtrl r v).reads = s.reads := by cases r <;> rfl

/-! ### A byte stored -/

@[simp] theorem storeByte_d (a : Word) (v : Byte) : (s.storeByte a v).d = s.d := by unfold State.storeByte; split <;> rfl
@[simp] theorem storeByte_a (a : Word) (v : Byte) : (s.storeByte a v).a = s.a := by unfold State.storeByte; split <;> rfl
@[simp] theorem storeByte_pc (a : Word) (v : Byte) : (s.storeByte a v).pc = s.pc := by unfold State.storeByte; split <;> rfl
@[simp] theorem storeByte_srHi (a : Word) (v : Byte) : (s.storeByte a v).srHi = s.srHi := by unfold State.storeByte; split <;> rfl
@[simp] theorem storeByte_ccOp (a : Word) (v : Byte) : (s.storeByte a v).ccOp = s.ccOp := by unfold State.storeByte; split <;> rfl
@[simp] theorem storeByte_ccDest (a : Word) (v : Byte) : (s.storeByte a v).ccDest = s.ccDest := by unfold State.storeByte; split <;> rfl
@[simp] theorem storeByte_ccSrc (a : Word) (v : Byte) : (s.storeByte a v).ccSrc = s.ccSrc := by unfold State.storeByte; split <;> rfl
@[simp] theorem storeByte_ccX (a : Word) (v : Byte) : (s.storeByte a v).ccX = s.ccX := by unfold State.storeByte; split <;> rfl
@[simp] theorem storeByte_spSlots (a : Word) (v : Byte) : (s.storeByte a v).spSlots = s.spSlots := by unfold State.storeByte; split <;> rfl
@[simp] theorem storeByte_currentSp (a : Word) (v : Byte) : (s.storeByte a v).currentSp = s.currentSp := by unfold State.storeByte; split <;> rfl
@[simp] theorem storeByte_sfc (a : Word) (v : Byte) : (s.storeByte a v).sfc = s.sfc := by unfold State.storeByte; split <;> rfl
@[simp] theorem storeByte_dfc (a : Word) (v : Byte) : (s.storeByte a v).dfc = s.dfc := by unfold State.storeByte; split <;> rfl
@[simp] theorem storeByte_vbr (a : Word) (v : Byte) : (s.storeByte a v).vbr = s.vbr := by unfold State.storeByte; split <;> rfl
@[simp] theorem storeByte_fp (a : Word) (v : Byte) : (s.storeByte a v).fp = s.fp := by unfold State.storeByte; split <;> rfl
@[simp] theorem storeByte_fpcr (a : Word) (v : Byte) : (s.storeByte a v).fpcr = s.fpcr := by unfold State.storeByte; split <;> rfl
@[simp] theorem storeByte_fpsr (a : Word) (v : Byte) : (s.storeByte a v).fpsr = s.fpsr := by unfold State.storeByte; split <;> rfl
@[simp] theorem storeByte_acc (a : Word) (v : Byte) : (s.storeByte a v).acc = s.acc := by unfold State.storeByte; split <;> rfl
@[simp] theorem storeByte_macMask (a : Word) (v : Byte) : (s.storeByte a v).macMask = s.macMask := by unfold State.storeByte; split <;> rfl
@[simp] theorem storeByte_macsr (a : Word) (v : Byte) : (s.storeByte a v).macsr = s.macsr := by unfold State.storeByte; split <;> rfl
@[simp] theorem storeByte_pendingLevel (a : Word) (v : Byte) : (s.storeByte a v).pendingLevel = s.pendingLevel := by unfold State.storeByte; split <;> rfl
@[simp] theorem storeByte_pendingVector (a : Word) (v : Byte) : (s.storeByte a v).pendingVector = s.pendingVector := by unfold State.storeByte; split <;> rfl
@[simp] theorem storeByte_root (a : Word) (v : Byte) : (s.storeByte a v).root = s.root := by unfold State.storeByte; split <;> rfl
@[simp] theorem storeByte_ttr (a : Word) (v : Byte) : (s.storeByte a v).ttr = s.ttr := by unfold State.storeByte; split <;> rfl
@[simp] theorem storeByte_tcr (a : Word) (v : Byte) : (s.storeByte a v).tcr = s.tcr := by unfold State.storeByte; split <;> rfl
@[simp] theorem storeByte_mmusr (a : Word) (v : Byte) : (s.storeByte a v).mmusr = s.mmusr := by unfold State.storeByte; split <;> rfl
@[simp] theorem storeByte_halted (a : Word) (v : Byte) : (s.storeByte a v).halted = s.halted := by unfold State.storeByte; split <;> rfl
@[simp] theorem storeByte_bootState (a : Word) (v : Byte) : (s.storeByte a v).bootState = s.bootState := by unfold State.storeByte; split <;> rfl
@[simp] theorem storeByte_fatal (a : Word) (v : Byte) : (s.storeByte a v).fatal = s.fatal := by unfold State.storeByte; split <;> rfl
@[simp] theorem storeByte_regions (a : Word) (v : Byte) : (s.storeByte a v).regions = s.regions := by unfold State.storeByte; split <;> rfl
@[simp] theorem storeByte_ramSize (a : Word) (v : Byte) : (s.storeByte a v).ramSize = s.ramSize := by unfold State.storeByte; split <;> rfl
@[simp] theorem storeByte_cfg (a : Word) (v : Byte) : (s.storeByte a v).cfg = s.cfg := by unfold State.storeByte; split <;> rfl
@[simp] theorem storeByte_inbox (a : Word) (v : Byte) : (s.storeByte a v).inbox = s.inbox := by unfold State.storeByte; split <;> rfl
@[simp] theorem storeByte_reply (a : Word) (v : Byte) : (s.storeByte a v).reply = s.reply := by unfold State.storeByte; split <;> rfl
@[simp] theorem storeByte_reads (a : Word) (v : Byte) : (s.storeByte a v).reads = s.reads := by unfold State.storeByte; split <;> rfl

end Sys2Proof.Machine
end

