-- ==== Sys2Proof/Laws/Access.lean ====
section
/-! SUPPORT. Memory accesses: what a store changes and what it leaves, and that whether an access succeeds depends on the
address map and the configuration alone. -/

namespace Sys2Proof.Machine

/-! ## What decides an access -/

theorem regionAt_congr {s t : State} (h : t.regions = s.regions) (a : Word) : t.regionAt a = s.regionAt a := by
  simp [State.regionAt, h]

theorem has_congr {s t : State} (h : t.cfg = s.cfg) (f : Feature) : t.has f = s.has f := by simp [State.has, h]

theorem memAccessOk_congr {s t : State} (hr : t.regions = s.regions) (hc : t.cfg = s.cfg) (a : Word) (n : Nat) (dir : Dir) :
    t.memAccessOk a n dir = s.memAccessOk a n dir := by
  have h1 : t.regionsOf a n = s.regionsOf a n := by simp [State.regionsOf, State.regionAt, hr]
  have h2 : t.platformOk a n dir = s.platformOk a n dir := by simp [State.platformOk, hc]
  have h3 : t.writeForbidden = s.writeForbidden := by funext r; simp [State.writeForbidden, hc]
  simp only [State.memAccessOk, h1, h2, h3]

theorem xlateS_congr {s t : State} (h : t.cfg = s.cfg) (a : Word) : t.xlateS a = s.xlateS a := by
  simp [State.xlateS, State.has, h]

theorem xlateS_noMmu {s : State} (h : s.has .mmu = false) (a : Word) : s.xlateS a = a := by simp [State.xlateS, h]

/-- A read succeeds inside the regions (20_memory.md rule R76). -/
theorem memAccessOk_read {s : State} {a : Word} {n : Nat}
    (h : ∀ i < n, (s.regionAt (a + BitVec.ofNat 32 i)).isSome = true) : s.memAccessOk a n .read = true := by
  have : (s.regionsOf a n).all Option.isSome = true := by simpa [State.regionsOf] using h
  simp [State.memAccessOk, this]

/-- A write succeeds on writable bytes (20_memory.md rule R77). -/
theorem memAccessOk_write {s : State} {a : Word} {n : Nat}
    (h : ∀ i < n, s.Writable (a + BitVec.ofNat 32 i)) : s.memAccessOk a n .write = true := by
  have hs : ∀ i < n, ∃ r, s.regionAt (a + BitVec.ofNat 32 i) = some r ∧ r.readOnly = false := by
    intro i hi
    have := h i hi
    simpa [State.Writable, Option.map_eq_some_iff] using this
  have h1 : (s.regionsOf a n).all Option.isSome = true := by
    simp only [State.regionsOf, List.all_map, List.all_eq_true, List.mem_range, Function.comp]
    intro i hi
    obtain ⟨r, hr, -⟩ := hs i hi
    simp [hr]
  have h2 : (s.regionsOf a n).any s.writeForbidden = false := by
    simp only [State.regionsOf, List.any_map, List.any_eq_false, List.mem_range, Function.comp]
    intro i hi
    obtain ⟨r, hr, ho⟩ := hs i hi
    simp [hr, State.writeForbidden, ho]
  simp [State.memAccessOk, h1, h2]

/-! ## Another memory -/

/-- The state with another memory, by name, so that proofs about stores do not carry the whole record. -/
def State.withMem (s : State) (m : Memory) : State := { s with mem := m }

@[simp] theorem withMem_mem (s : State) (m : Memory) : (s.withMem m).mem = m := rfl
@[simp] theorem withMem_d (s : State) (m : Memory) : (s.withMem m).d = s.d := rfl
@[simp] theorem withMem_a (s : State) (m : Memory) : (s.withMem m).a = s.a := rfl
@[simp] theorem withMem_pc (s : State) (m : Memory) : (s.withMem m).pc = s.pc := rfl
@[simp] theorem withMem_srHi (s : State) (m : Memory) : (s.withMem m).srHi = s.srHi := rfl
@[simp] theorem withMem_ccOp (s : State) (m : Memory) : (s.withMem m).ccOp = s.ccOp := rfl
@[simp] theorem withMem_ccDest (s : State) (m : Memory) : (s.withMem m).ccDest = s.ccDest := rfl
@[simp] theorem withMem_ccSrc (s : State) (m : Memory) : (s.withMem m).ccSrc = s.ccSrc := rfl
@[simp] theorem withMem_ccX (s : State) (m : Memory) : (s.withMem m).ccX = s.ccX := rfl
@[simp] theorem withMem_spSlots (s : State) (m : Memory) : (s.withMem m).spSlots = s.spSlots := rfl
@[simp] theorem withMem_currentSp (s : State) (m : Memory) : (s.withMem m).currentSp = s.currentSp := rfl
@[simp] theorem withMem_sfc (s : State) (m : Memory) : (s.withMem m).sfc = s.sfc := rfl
@[simp] theorem withMem_dfc (s : State) (m : Memory) : (s.withMem m).dfc = s.dfc := rfl
@[simp] theorem withMem_vbr (s : State) (m : Memory) : (s.withMem m).vbr = s.vbr := rfl
@[simp] theorem withMem_fp (s : State) (m : Memory) : (s.withMem m).fp = s.fp := rfl
@[simp] theorem withMem_fpcr (s : State) (m : Memory) : (s.withMem m).fpcr = s.fpcr := rfl
@[simp] theorem withMem_fpsr (s : State) (m : Memory) : (s.withMem m).fpsr = s.fpsr := rfl
@[simp] theorem withMem_acc (s : State) (m : Memory) : (s.withMem m).acc = s.acc := rfl
@[simp] theorem withMem_macMask (s : State) (m : Memory) : (s.withMem m).macMask = s.macMask := rfl
@[simp] theorem withMem_macsr (s : State) (m : Memory) : (s.withMem m).macsr = s.macsr := rfl
@[simp] theorem withMem_pendingLevel (s : State) (m : Memory) : (s.withMem m).pendingLevel = s.pendingLevel := rfl
@[simp] theorem withMem_pendingVector (s : State) (m : Memory) : (s.withMem m).pendingVector = s.pendingVector := rfl
@[simp] theorem withMem_root (s : State) (m : Memory) : (s.withMem m).root = s.root := rfl
@[simp] theorem withMem_ttr (s : State) (m : Memory) : (s.withMem m).ttr = s.ttr := rfl
@[simp] theorem withMem_tcr (s : State) (m : Memory) : (s.withMem m).tcr = s.tcr := rfl
@[simp] theorem withMem_mmusr (s : State) (m : Memory) : (s.withMem m).mmusr = s.mmusr := rfl
@[simp] theorem withMem_halted (s : State) (m : Memory) : (s.withMem m).halted = s.halted := rfl
@[simp] theorem withMem_bootState (s : State) (m : Memory) : (s.withMem m).bootState = s.bootState := rfl
@[simp] theorem withMem_fatal (s : State) (m : Memory) : (s.withMem m).fatal = s.fatal := rfl
@[simp] theorem withMem_regions (s : State) (m : Memory) : (s.withMem m).regions = s.regions := rfl
@[simp] theorem withMem_ramSize (s : State) (m : Memory) : (s.withMem m).ramSize = s.ramSize := rfl
@[simp] theorem withMem_cfg (s : State) (m : Memory) : (s.withMem m).cfg = s.cfg := rfl
@[simp] theorem withMem_inbox (s : State) (m : Memory) : (s.withMem m).inbox = s.inbox := rfl
@[simp] theorem withMem_reply (s : State) (m : Memory) : (s.withMem m).reply = s.reply := rfl
@[simp] theorem withMem_reads (s : State) (m : Memory) : (s.withMem m).reads = s.reads := rfl
@[simp] theorem withMem_withMem (s : State) (m n : Memory) : (s.withMem m).withMem n = s.withMem n := rfl
@[simp] theorem withMem_self (s : State) : s.withMem s.mem = s := rfl

@[simp] theorem withMem_memAccessOk (s : State) (m : Memory) (a : Word) (n : Nat) (dir : Dir) :
    (s.withMem m).memAccessOk a n dir = s.memAccessOk a n dir := memAccessOk_congr rfl rfl a n dir

@[simp] theorem withMem_regionAt (s : State) (m : Memory) (a : Word) : (s.withMem m).regionAt a = s.regionAt a := rfl

/-- The state with another live stack pointer. -/
def State.withA7 (s : State) (v : Word) : State := { s with a := s.a.set 7 v }

@[simp] theorem withA7_a (s : State) (v : Word) : (s.withA7 v).a = s.a.set 7 v := rfl
@[simp] theorem withA7_d (s : State) (v : Word) : (s.withA7 v).d = s.d := rfl
@[simp] theorem withA7_pc (s : State) (v : Word) : (s.withA7 v).pc = s.pc := rfl
@[simp] theorem withA7_srHi (s : State) (v : Word) : (s.withA7 v).srHi = s.srHi := rfl
@[simp] theorem withA7_ccOp (s : State) (v : Word) : (s.withA7 v).ccOp = s.ccOp := rfl
@[simp] theorem withA7_ccDest (s : State) (v : Word) : (s.withA7 v).ccDest = s.ccDest := rfl
@[simp] theorem withA7_ccSrc (s : State) (v : Word) : (s.withA7 v).ccSrc = s.ccSrc := rfl
@[simp] theorem withA7_ccX (s : State) (v : Word) : (s.withA7 v).ccX = s.ccX := rfl
@[simp] theorem withA7_spSlots (s : State) (v : Word) : (s.withA7 v).spSlots = s.spSlots := rfl
@[simp] theorem withA7_currentSp (s : State) (v : Word) : (s.withA7 v).currentSp = s.currentSp := rfl
@[simp] theorem withA7_sfc (s : State) (v : Word) : (s.withA7 v).sfc = s.sfc := rfl
@[simp] theorem withA7_dfc (s : State) (v : Word) : (s.withA7 v).dfc = s.dfc := rfl
@[simp] theorem withA7_vbr (s : State) (v : Word) : (s.withA7 v).vbr = s.vbr := rfl
@[simp] theorem withA7_fp (s : State) (v : Word) : (s.withA7 v).fp = s.fp := rfl
@[simp] theorem withA7_fpcr (s : State) (v : Word) : (s.withA7 v).fpcr = s.fpcr := rfl
@[simp] theorem withA7_fpsr (s : State) (v : Word) : (s.withA7 v).fpsr = s.fpsr := rfl
@[simp] theorem withA7_acc (s : State) (v : Word) : (s.withA7 v).acc = s.acc := rfl
@[simp] theorem withA7_macMask (s : State) (v : Word) : (s.withA7 v).macMask = s.macMask := rfl
@[simp] theorem withA7_macsr (s : State) (v : Word) : (s.withA7 v).macsr = s.macsr := rfl
@[simp] theorem withA7_pendingLevel (s : State) (v : Word) : (s.withA7 v).pendingLevel = s.pendingLevel := rfl
@[simp] theorem withA7_pendingVector (s : State) (v : Word) : (s.withA7 v).pendingVector = s.pendingVector := rfl
@[simp] theorem withA7_root (s : State) (v : Word) : (s.withA7 v).root = s.root := rfl
@[simp] theorem withA7_ttr (s : State) (v : Word) : (s.withA7 v).ttr = s.ttr := rfl
@[simp] theorem withA7_tcr (s : State) (v : Word) : (s.withA7 v).tcr = s.tcr := rfl
@[simp] theorem withA7_mmusr (s : State) (v : Word) : (s.withA7 v).mmusr = s.mmusr := rfl
@[simp] theorem withA7_halted (s : State) (v : Word) : (s.withA7 v).halted = s.halted := rfl
@[simp] theorem withA7_bootState (s : State) (v : Word) : (s.withA7 v).bootState = s.bootState := rfl
@[simp] theorem withA7_fatal (s : State) (v : Word) : (s.withA7 v).fatal = s.fatal := rfl
@[simp] theorem withA7_mem (s : State) (v : Word) : (s.withA7 v).mem = s.mem := rfl
@[simp] theorem withA7_regions (s : State) (v : Word) : (s.withA7 v).regions = s.regions := rfl
@[simp] theorem withA7_ramSize (s : State) (v : Word) : (s.withA7 v).ramSize = s.ramSize := rfl
@[simp] theorem withA7_cfg (s : State) (v : Word) : (s.withA7 v).cfg = s.cfg := rfl
@[simp] theorem withA7_inbox (s : State) (v : Word) : (s.withA7 v).inbox = s.inbox := rfl
@[simp] theorem withA7_reply (s : State) (v : Word) : (s.withA7 v).reply = s.reply := rfl
@[simp] theorem withA7_reads (s : State) (v : Word) : (s.withA7 v).reads = s.reads := rfl

/-! ## What a store does -/

/-- What a store of bytes leaves: the canonical form, and every byte of a read-only region. -/
structure Kept (s : State) (m : Memory) : Prop where
  wf : Memory.wf s.mem = true → Memory.wf m = true
  rom : ∀ b : Word, (s.regionAt b).any Region.readOnly = true → Memory.read m b.toNat = Memory.read s.mem b.toNat

theorem Kept.refl (s : State) : Kept s s.mem := ⟨id, fun _ _ => rfl⟩

/-- What two stores in sequence leave. -/
theorem Kept.trans {s t : State} {m : Memory} (h1 : Kept s t.mem) (h2 : Kept t m) (hr : t.regions = s.regions) : Kept s m :=
  ⟨fun h => h2.wf (h1.wf h),
    fun b hb => (h2.rom b (by rw [regionAt_congr hr]; exact hb)).trans (h1.rom b hb)⟩

theorem storeByte_mem (s : State) (a : Word) (v : Byte) :
    (s.storeByte a v).mem =
      if (s.regionAt a).any Region.readOnly then s.mem else Memory.write s.mem a.toNat v := by
  unfold State.storeByte; split <;> rfl

theorem storeByte_kept (s : State) (a : Word) (v : Byte) : Kept s (s.storeByte a v).mem := by
  rw [storeByte_mem]
  split
  · exact Kept.refl s
  · next h =>
    refine ⟨fun hw => Memory.wf_write a.isLt hw, fun b hb => Memory.read_write_other _ _ ?_⟩
    intro he
    rw [BitVec.eq_of_toNat_eq he] at hb
    exact h hb

/-- A store of bytes changes the memory alone. -/
theorem storeBytes_eq (s : State) (a : Word) (vs : Bytes) :
    s.storeBytes a vs = s.withMem (s.storeBytes a vs).mem := by
  induction vs generalizing s a with
  | nil => rfl
  | cons v vs ih =>
    rw [State.storeBytes, ih]
    unfold State.storeByte
    split <;> rfl

theorem storeBytes_regions (s : State) (a : Word) (vs : Bytes) : (s.storeBytes a vs).regions = s.regions := by
  rw [storeBytes_eq]; rfl

theorem storeBytes_cfg (s : State) (a : Word) (vs : Bytes) : (s.storeBytes a vs).cfg = s.cfg := by
  rw [storeBytes_eq]; rfl

theorem storeBytes_kept (s : State) (a : Word) (vs : Bytes) : Kept s (s.storeBytes a vs).mem := by
  induction vs generalizing s a with
  | nil => exact Kept.refl s
  | cons v vs ih => exact (storeByte_kept s a v).trans (ih _ _) (storeByte_regions s a v)

theorem not_within_succ {a b : Word} {n : Nat} (h : ¬ Within b a (n + 1)) : ¬ Within b (a + 1) n ∧ b ≠ a := by
  simp only [Within] at h ⊢
  constructor <;> bv_omega

/-- A store leaves every byte outside its own alone. -/
theorem read_storeBytes_other (s : State) (a : Word) (vs : Bytes) {b : Word} (h : ¬ Within b a vs.length) :
    Memory.read (s.storeBytes a vs).mem b.toNat = Memory.read s.mem b.toNat := by
  induction vs generalizing s a with
  | nil => rfl
  | cons v vs ih =>
    obtain ⟨h1, h2⟩ := not_within_succ h
    rw [State.storeBytes, ih _ _ h1, storeByte_mem]
    split
    · rfl
    · exact Memory.read_write_other _ _ fun he => h2 (BitVec.eq_of_toNat_eq he)

/-- A store puts each of its bytes in place, where a write changes the byte. -/
theorem read_storeBytes (s : State) (a : Word) (vs : Bytes) (hm : Memory.wf s.mem = true) (hl : vs.length ≤ 2 ^ 32) {i : Nat}
    (hi : i < vs.length) (hw : (s.regionAt (a + BitVec.ofNat 32 i)).any Region.readOnly = false) :
    Memory.read (s.storeBytes a vs).mem (a + BitVec.ofNat 32 i).toNat = vs[i] := by
  induction vs generalizing s a i with
  | nil => simp at hi
  | cons v vs ih =>
    rw [List.length_cons] at hl hi
    cases i with
    | zero =>
      have ha : a + BitVec.ofNat 32 0 = a := by bv_omega
      rw [ha] at hw ⊢
      have hn : ¬ Within a (a + 1) vs.length := by simp only [Within]; bv_omega
      rw [State.storeBytes, read_storeBytes_other _ _ _ hn, storeByte_mem, if_neg (by simp [hw])]
      exact Memory.read_write_same hm
    | succ i =>
      have ha : a + BitVec.ofNat 32 (i + 1) = a + 1 + BitVec.ofNat 32 i := by bv_omega
      rw [ha] at hw ⊢
      rw [State.storeBytes]
      exact ih _ _ ((storeByte_kept s a v).wf hm) (by omega) (by omega)
        (by rw [regionAt_congr (storeByte_regions s a v)]; exact hw)

/-! ## `MemWrite` and `MemRead` -/

theorem memWrite_eq_some {s t : State} {a : Word} {n v : Nat} :
    s.memWrite a n v = some t ↔ s.memAccessOk a n .write = true ∧ s.storeBytes a (splitDigits 8 n v) = t := by
  unfold State.memWrite
  split <;> simp_all

theorem memWrite_eq_none {s : State} {a : Word} {n v : Nat} :
    s.memWrite a n v = none ↔ s.memAccessOk a n .write = false := by
  unfold State.memWrite
  split <;> simp_all

/-- A successful write changes the memory alone, and keeps what every store keeps. -/
theorem memWrite_spec {s t : State} {a : Word} {n v : Nat} (h : s.memWrite a n v = some t) :
    t = s.withMem t.mem ∧ Kept s t.mem := by
  obtain ⟨-, rfl⟩ := memWrite_eq_some.mp h
  exact ⟨storeBytes_eq _ _ _, storeBytes_kept _ _ _⟩

theorem memRead_eq_some {s t : State} {a : Word} {n v : Nat} :
    s.memRead a n = some (v, t) ↔
      s.memAccessOk a n .read = true ∧ joinDigits 8 (s.loadBytes a n) = v ∧ { s with reads := s.reads + 1 } = t := by
  unfold State.memRead
  split <;> simp_all

theorem memRead_eq_none {s : State} {a : Word} {n : Nat} :
    s.memRead a n = none ↔ s.memAccessOk a n .read = false := by
  unfold State.memRead
  split <;> simp_all

theorem length_loadBytes (s : State) (a : Word) (n : Nat) : (s.loadBytes a n).length = n := by simp [State.loadBytes]

/-- A read inside the regions finds the bytes of memory. -/
theorem loadBytes_eq {s : State} {a : Word} {n : Nat} {vs : Bytes} (hl : vs.length = n)
    (hs : ∀ i < n, (s.regionAt (a + BitVec.ofNat 32 i)).isSome = true)
    (hv : ∀ i (h : i < vs.length), Memory.read s.mem (a + BitVec.ofNat 32 i).toNat = vs[i]) : s.loadBytes a n = vs := by
  apply List.ext_getElem (by simp [length_loadBytes, hl])
  intro i h1 h2
  rw [length_loadBytes] at h1
  simp only [State.loadBytes, List.getElem_map, List.getElem_range, State.loadByte, hs i h1, if_true]
  exact hv i h2

theorem writable_isSome {s : State} {a : Word} (h : s.Writable a) :
    (s.regionAt a).isSome = true ∧ (s.regionAt a).any Region.readOnly = false := by
  cases hr : s.regionAt a with
  | none => simp [State.Writable, hr] at h
  | some r => simpa [State.Writable, hr] using h

/-- A read of what was just written gives it back (20_memory.md rule R85). -/
theorem memRead_memWrite {s t u : State} {a : Word} {n v w : Nat} (hm : Memory.wf s.mem = true) (hn : n ≤ 2 ^ 32)
    (hw : ∀ i < n, s.Writable (a + BitVec.ofNat 32 i)) (h1 : s.memWrite a n v = some t)
    (h2 : t.memRead a n = some (w, u)) : w = v % 2 ^ (8 * n) := by
  obtain ⟨-, rfl⟩ := memWrite_eq_some.mp h1
  obtain ⟨-, rfl, -⟩ := memRead_eq_some.mp h2
  rw [← joinDigits_splitDigits]
  congr 1
  apply loadBytes_eq (length_splitDigits ..)
  · intro i hi
    rw [regionAt_congr (storeBytes_regions _ _ _)]
    exact (writable_isSome (hw i hi)).1
  · intro i hi
    rw [length_splitDigits] at hi
    exact read_storeBytes s a _ hm (by simpa using hn) (by simpa using hi) (writable_isSome (hw i hi)).2

end Sys2Proof.Machine
end

