-- ==== Sys2Proof/Laws/Boot.lean ====
section
/-! SUPPORT. The boot sequencer: what its writes can do, said once, and where they all succeed, the bytes they put in
memory. -/

namespace Sys2Proof.Machine

/-! ## Byte writes in order -/

/-- Byte writes, in order. -/
def State.storeAll (s : State) : List (Word × Byte) → State
  | [] => s
  | (a, v) :: ws => (s.storeByte a v).storeAll ws

theorem storeAll_append (s : State) (xs ys : List (Word × Byte)) : s.storeAll (xs ++ ys) = (s.storeAll xs).storeAll ys := by
  induction xs generalizing s with
  | nil => rfl
  | cons x xs ih => exact ih _

/-- Byte writes change the memory alone. -/
theorem storeAll_eq (s : State) (ws : List (Word × Byte)) : s.storeAll ws = s.withMem (s.storeAll ws).mem := by
  induction ws generalizing s with
  | nil => rfl
  | cons w ws ih =>
    rw [State.storeAll, ih]
    unfold State.storeByte
    split <;> rfl

theorem storeAll_regions (s : State) (ws : List (Word × Byte)) : (s.storeAll ws).regions = s.regions := by
  rw [storeAll_eq]; rfl

theorem storeAll_cfg (s : State) (ws : List (Word × Byte)) : (s.storeAll ws).cfg = s.cfg := by
  rw [storeAll_eq]; rfl

theorem storeAll_ramSize (s : State) (ws : List (Word × Byte)) : (s.storeAll ws).ramSize = s.ramSize := by
  rw [storeAll_eq]; rfl

theorem writable_congr {s t : State} (h : t.regions = s.regions) {a : Word} (hw : s.Writable a) : t.Writable a := by
  rw [State.Writable, regionAt_congr h]; exact hw

theorem storeBytes_eq_storeAll (s : State) (a : Word) (vs : Bytes) :
    s.storeBytes a vs = s.storeAll (bytesAt a (vs.map some)) := by
  induction vs generalizing s a with
  | nil => rfl
  | cons v vs ih => exact ih _ _

/-- After byte writes to writable addresses, each address holds the last byte written there. -/
theorem read_storeAll (s : State) (ws : List (Word × Byte)) (hm : Memory.wf s.mem = true) (hw : ∀ w ∈ ws, s.Writable w.1)
    (b : Word) : Memory.read (s.storeAll ws).mem b.toNat = afterWrites ws (Memory.read s.mem b.toNat) b := by
  induction ws generalizing s with
  | nil => rfl
  | cons w ws ih =>
    obtain ⟨a, v⟩ := w
    have hwa : (s.regionAt a).any Region.readOnly = false := (writable_isSome (hw _ (List.mem_cons_self ..))).2
    have hmem : (s.storeByte a v).mem = Memory.write s.mem a.toNat v := by rw [storeByte_mem, hwa]; rfl
    rw [State.storeAll, ih _ ((storeByte_kept s a v).wf hm)
      (fun x hx => writable_congr (storeByte_regions s a v) (hw x (List.mem_cons_of_mem _ hx))), hmem]
    by_cases hab : a = b
    · subst hab
      simp only [Memory.read_write_same hm, afterWrites, List.filter_cons, decide_true, if_true]
      cases hl : (ws.filter fun w => decide (w.1 = a)) with
      | nil => rfl
      | cons y ys => simp [List.getLast?_cons]
    · rw [Memory.read_write_other _ _ (fun h => hab (BitVec.eq_of_toNat_eq h.symm))]
      simp only [afterWrites, List.filter_cons, decide_eq_false hab]
      rfl

theorem bytesAt_append (a : Word) (xs ys : List (Option Byte)) :
    bytesAt a (xs ++ ys) = bytesAt a xs ++ bytesAt (a + BitVec.ofNat 32 xs.length) ys := by
  induction xs generalizing a with
  | nil => simp [bytesAt]
  | cons x xs ih =>
    have ha : a + 1 + BitVec.ofNat 32 xs.length = a + BitVec.ofNat 32 (xs.length + 1) := by bv_omega
    cases x <;> simp [bytesAt, ih, ← ha]

/-- A byte that is present is written at its place. -/
theorem mem_bytesAt {a : Word} {vs : List (Option Byte)} {i : Nat} {v : Byte} (h : vs[i]? = some (some v)) :
    (a + BitVec.ofNat 32 i, v) ∈ bytesAt a vs := by
  induction vs generalizing a i with
  | nil => simp at h
  | cons x xs ih =>
    cases i with
    | zero =>
      obtain rfl : x = some v := by simpa using h
      simp [bytesAt]
    | succ i =>
      have ha : a + 1 + BitVec.ofNat 32 i = a + BitVec.ofNat 32 (i + 1) := by bv_omega
      have := ih (a := a + 1) (i := i) (by simpa using h)
      rw [ha] at this
      cases x with
      | none => exact this
      | some y => exact List.mem_cons_of_mem _ this

/-- Where every byte of a store is writable, so is every address it starts from. -/
theorem writable_of_bytesAt {s : State} {a : Word} {vs : Bytes} (h : ∀ w ∈ bytesAt a (vs.map some), s.Writable w.1) :
    ∀ i < vs.length, s.Writable (a + BitVec.ofNat 32 i) := by
  intro i hi
  have hm : (a + BitVec.ofNat 32 i, vs[i]) ∈ bytesAt a (vs.map some) := mem_bytesAt (by simp [hi])
  exact h (a + BitVec.ofNat 32 i, vs[i]) hm

/-! ## Boot-time writes that succeed -/

theorem bootWrite_ok {s : State} {a : Word} {n v : Nat}
    (h : ∀ w ∈ bytesAt a ((splitDigits 8 n v).map some), s.Writable w.1) :
    s.bootWrite a n v = .ok (s.storeAll (bytesAt a ((splitDigits 8 n v).map some))) := by
  have hw := writable_of_bytesAt h
  rw [length_splitDigits] at hw
  rw [State.bootWrite, State.memWrite, if_pos (memAccessOk_write hw), storeBytes_eq_storeAll]

theorem bootWriteBytes_ok {s : State} {a : Word} {vs : Bytes} (h : ∀ w ∈ bytesAt a (vs.map some), s.Writable w.1) :
    s.bootWriteBytes a vs = .ok (s.storeAll (bytesAt a (vs.map some))) := by
  induction vs generalizing s a with
  | nil => rfl
  | cons v vs ih =>
    have e : splitDigits 8 1 v.toNat = [v] := by simp [splitDigits]
    have h1 : s.bootWrite a 1 v.toNat = .ok (s.storeAll (bytesAt a ((splitDigits 8 1 v.toNat).map some))) := by
      apply bootWrite_ok
      rw [e]
      intro w hw
      exact h w (by simp only [List.map_cons, bytesAt, List.map_nil, List.mem_cons, List.not_mem_nil, or_false] at hw ⊢; exact .inl hw)
    rw [e] at h1
    rw [State.bootWriteBytes, h1]
    exact ih fun w hw => writable_congr (storeAll_regions ..) (h w (List.mem_cons_of_mem _ hw))

/-- The parts of a write in sequence. -/
theorem writable_append {s : State} {xs ys : List (Word × Byte)} (h : ∀ w ∈ xs ++ ys, s.Writable w.1) :
    (∀ w ∈ xs, s.Writable w.1) ∧ ∀ w ∈ ys, (s.storeAll xs).Writable w.1 :=
  ⟨fun w hw => h w (List.mem_append_left _ hw),
    fun w hw => writable_congr (storeAll_regions ..) (h w (List.mem_append_right _ hw))⟩

/-- The size of a record is the number of its bytes, the padding byte included (44_boot.md rules R239 to R242). -/
theorem length_bytes (r : BootRecord) : r.bytes.length = r.size := by
  cases r with
  | string t text =>
    by_cases h : text.length % 2 = 0 <;> simp [BootRecord.bytes, BootRecord.size, h] <;> omega
  | _ => simp [BootRecord.bytes, BootRecord.size]

theorem writePayload_ok {s : State} {p : Word} {r : BootRecord}
    (h : ∀ w ∈ bytesAt (p + 4) (r.bytes.drop 4), s.Writable w.1) :
    s.writePayload p r = .ok (s.storeAll (bytesAt (p + 4) (r.bytes.drop 4))) := by
  have hd : ∀ t z, (splitDigits 8 2 t ++ splitDigits 8 2 z).length = 4 := by simp
  cases r with
  | single t v =>
    have e : (BootRecord.single t v).bytes.drop 4 = (splitDigits 8 4 v.toNat).map some :=
      List.drop_left' (by simp)
    rw [e] at h ⊢
    exact bootWrite_ok h
  | dual t b z =>
    have e : (BootRecord.dual t b z).bytes.drop 4 = (splitDigits 8 4 b.toNat).map some ++ (splitDigits 8 4 z.toNat).map some :=
      (List.drop_left' (by simp)).trans (List.map_append ..)
    rw [e, bytesAt_append] at h ⊢
    have ha : p + 4 + BitVec.ofNat 32 ((splitDigits 8 4 b.toNat).map some).length = p + 8 := by simp; bv_omega
    rw [ha] at h ⊢
    obtain ⟨h1, h2⟩ := writable_append h
    rw [State.writePayload, bootWrite_ok h1, storeAll_append]
    exact bootWrite_ok h2
  | string t text =>
    have e : (BootRecord.string t text).bytes.drop 4 =
        text.map some ++ ((splitDigits 8 1 0).map some ++ if text.length % 2 = 0 then [none] else []) := by
      refine (List.drop_left' (by simp)).trans ?_
      simp [splitDigits]
    have hn : ∀ a : Word, bytesAt a (if text.length % 2 = 0 then [none] else []) = [] := by
      intro a; split <;> rfl
    rw [e, bytesAt_append, bytesAt_append, hn, List.append_nil, List.length_map] at h ⊢
    obtain ⟨h1, h2⟩ := writable_append h
    rw [State.writePayload, bootWriteBytes_ok h1, storeAll_append]
    exact bootWrite_ok h2
  | last t =>
    have e : (BootRecord.last t).bytes.drop 4 = [] := List.drop_left' (by simp)
    rw [e]
    rfl

theorem writeRecord_ok {s : State} {p : Word} {r : BootRecord} (h : ∀ w ∈ bytesAt p r.bytes, s.Writable w.1) :
    s.writeRecord p r = .ok (s.storeAll (bytesAt p r.bytes)) := by
  have e : r.bytes = (splitDigits 8 2 r.tag.toNat).map some ++ ((splitDigits 8 2 r.size).map some ++ r.bytes.drop 4) := by
    rw [← List.append_assoc, ← List.map_append]
    cases r <;> rfl
  rw [e, bytesAt_append, bytesAt_append] at h ⊢
  have ha : p + BitVec.ofNat 32 ((splitDigits 8 2 r.tag.toNat).map some).length = p + 2 := by simp
  have hb : p + 2 + BitVec.ofNat 32 ((splitDigits 8 2 r.size).map some).length = p + 4 := by simp; bv_omega
  rw [ha, hb] at h ⊢
  obtain ⟨h1, h23⟩ := writable_append h
  obtain ⟨h2, h3⟩ := writable_append h23
  rw [State.writeRecord, bootWrite_ok h1, storeAll_append, storeAll_append]
  simp only [bind, Except.bind]
  rw [bootWrite_ok h2]
  exact writePayload_ok h3

theorem writeRecords_ok {s : State} {p : Word} {rs : List BootRecord}
    (h : ∀ w ∈ bytesAt p (rs.flatMap BootRecord.bytes), s.Writable w.1) :
    s.writeRecords p rs =
      .ok (p + BitVec.ofNat 32 (rs.flatMap BootRecord.bytes).length, s.storeAll (bytesAt p (rs.flatMap BootRecord.bytes))) := by
  induction rs generalizing s p with
  | nil => simp [State.writeRecords, bytesAt, State.storeAll]
  | cons r rs ih =>
    rw [List.flatMap_cons, bytesAt_append] at h ⊢
    obtain ⟨h1, h2⟩ := writable_append h
    rw [State.writeRecords, writeRecord_ok h1, storeAll_append]
    simp only [bind, Except.bind]
    rw [← length_bytes, ih h2]
    have ha : p + BitVec.ofNat 32 r.bytes.length + BitVec.ofNat 32 (rs.flatMap BootRecord.bytes).length =
        p + BitVec.ofNat 32 (r.bytes ++ rs.flatMap BootRecord.bytes).length := by
      rw [List.length_append]; bv_omega
    rw [ha]

theorem bootSegments_ok {s : State} {segs : List (Word × Bytes)} (h : ∀ w ∈ segmentBytes segs, s.Writable w.1) :
    s.bootSegments segs = .ok (s.storeAll (segmentBytes segs)) := by
  induction segs generalizing s with
  | nil => rfl
  | cons seg segs ih =>
    obtain ⟨a, bs⟩ := seg
    have e : segmentBytes ((a, bs) :: segs) = bytesAt a (bs.map some) ++ segmentBytes segs := by simp [segmentBytes]
    rw [e] at h ⊢
    obtain ⟨h1, h2⟩ := writable_append h
    rw [State.bootSegments, bootWriteBytes_ok h1, storeAll_append]
    exact ih h2

theorem loadRawImage_ok {s : State} {path raw : Bytes} {a : Word} {max : Nat}
    (hl : s.cfg.loader.rawImages.lookup path = some raw) (hm : raw.length ≤ max)
    (h : ∀ w ∈ bytesAt a (raw.map some), s.Writable w.1) :
    s.loadRawImage path a max = some (s.storeAll (bytesAt a (raw.map some))) := by
  have hw := writable_of_bytesAt h
  have ho : ((List.range raw.length).all fun i => s.memAccessOk (a + BitVec.ofNat 32 i) 1 .write) = true := by
    rw [List.all_eq_true]
    intro i hi
    apply memAccessOk_write
    intro j hj
    obtain rfl : j = 0 := by omega
    simpa using hw i (List.mem_range.mp hi)
  rw [State.loadRawImage, hl]
  simp only [hm, decide_true, ho, Bool.and_self, if_true]
  rw [storeBytes_eq_storeAll]

/-- The initrd, when there is one and the loader answers: its bytes, then its record. -/
theorem bootInitrd_ok {s : State} {path raw : Bytes} {size : Nat} {p : Word} (hp : s.cfg.initrdPath = some path)
    (hs : s.cfg.loader.imageSizes.lookup path = some size) (hr : s.cfg.loader.rawImages.lookup path = some raw)
    (hl : raw.length ≤ (s.ramSize - initrdBase s.ramSize size).toNat)
    (h1 : ∀ w ∈ bytesAt (initrdBase s.ramSize size) (raw.map some), s.Writable w.1)
    (h2 : ∀ w ∈ bytesAt p ((ramdiskRecord s (some size)).flatMap BootRecord.bytes),
      (s.storeAll (bytesAt (initrdBase s.ramSize size) (raw.map some))).Writable w.1) :
    s.bootInitrd p =
      .ok (p + BitVec.ofNat 32 ((ramdiskRecord s (some size)).flatMap BootRecord.bytes).length,
        (s.storeAll (bytesAt (initrdBase s.ramSize size) (raw.map some))).storeAll
          (bytesAt p ((ramdiskRecord s (some size)).flatMap BootRecord.bytes))) := by
  rw [State.bootInitrd, hp]
  dsimp only
  rw [hs]
  dsimp only
  rw [loadRawImage_ok hr hl h1]
  dsimp only
  rw [storeAll_cfg]
  exact writeRecords_ok h2

/-- BOOT_KERNEL after the image is loaded, when every byte it writes is writable and the initrd loads (44_boot.md rule R234). -/
theorem prepareKernel_ok {s : State} {image : ExecImage} {initrd : Option (Nat × Bytes)} (hi : s.InitrdIs initrd)
    (hw : ∀ w ∈ bootBytes s image initrd, s.Writable w.1) :
    s.prepareKernel image = .ok (s.storeAll (bootBytes s image initrd)) := by
  unfold bootBytes at hw ⊢
  simp only [List.append_assoc] at hw ⊢
  generalize hL : (leadingRecords s.cfg s.ramSize).flatMap BootRecord.bytes = L at *
  obtain ⟨h1, hw⟩ := writable_append hw
  obtain ⟨h2, hw⟩ := writable_append hw
  obtain ⟨h3, hw⟩ := writable_append hw
  rw [State.prepareKernel]
  simp only [bind, Except.bind]
  rw [bootSegments_ok h1]
  dsimp only
  rw [bootWrite_ok h2]
  dsimp only
  rw [storeAll_append, storeAll_append, storeAll_append]
  generalize hv : (s.storeAll (segmentBytes image.segs)).storeAll
    (bytesAt Config.resetVectorAddr (List.map some (splitDigits 8 4 image.entry.toNat))) = v at *
  have vc : v.cfg = s.cfg := by rw [← hv, storeAll_cfg, storeAll_cfg]
  have vr : v.ramSize = s.ramSize := by rw [← hv, storeAll_ramSize, storeAll_ramSize]
  rw [vc, vr, writeRecords_ok (by rw [hL]; exact h3), hL]
  dsimp only
  generalize hu : v.storeAll (bytesAt (parametersBase image.highest) L) = u at *
  have uc : u.cfg = s.cfg := by rw [← hu, storeAll_cfg, vc]
  have ur : u.ramSize = s.ramSize := by rw [← hu, storeAll_ramSize, vr]
  unfold State.InitrdIs at hi
  cases hp : s.cfg.initrdPath with
  | none =>
    rw [hp] at hi
    dsimp only at hi
    subst hi
    have hb : ∀ p : Word, u.bootInitrd p = .ok (p, u) := fun p => by rw [State.bootInitrd, uc, hp]
    rw [hb]
    dsimp only
    simp only [initrdBytes, List.nil_append, ramdiskRecord, Option.map_none] at hw ⊢
    rw [uc, writeRecords_ok hw]
  | some path =>
    rw [hp] at hi
    obtain ⟨size, raw, hs, hraw, hl, rfl⟩ := hi
    obtain ⟨h4, h5⟩ := writable_append hw
    have hrec : ramdiskRecord s (some size) = ramdiskRecord u (some size) := by rw [ramdiskRecord, ramdiskRecord, uc, ur]
    simp only [initrdBytes, Option.map_some] at h4 h5 ⊢
    rw [List.flatMap_append, bytesAt_append] at h5 ⊢
    obtain ⟨h5, h6⟩ := writable_append h5
    rw [hrec] at h5 h6 ⊢
    rw [← ur] at h4 h5 h6 hl ⊢
    rw [bootInitrd_ok (by rw [uc]; exact hp) (by rw [uc]; exact hs) (by rw [uc]; exact hraw) hl h4 h5]
    dsimp only
    rw [storeAll_append, storeAll_append, storeAll_cfg, storeAll_cfg, uc, writeRecords_ok h6]

/-! ## What the boot sequencer can do -/

/-- What a part of a boot command can do: change the memory, or end with a fatal error of a boot-time write or of the initrd. -/
inductive BootEffect (s : State) : Except State State → Prop
  | ok {M : Memory} (h : Kept s M) : BootEffect s (.ok (s.withMem M))
  | write {M : Memory} (h : Kept s M) (a : Word) : BootEffect s (.error ((s.withMem M).die (.bootWrite a)))
  | initrd {M : Memory} (h : Kept s M) (path : Bytes) (hp : s.cfg.initrdPath = some path) :
    BootEffect s (.error ((s.withMem M).die (.initrdLoad path)))

/-- What follows a change of the memory is an effect of the whole. -/
theorem BootEffect.after {s : State} {M : Memory} {x : Except State State} (h : Kept s M) (hx : BootEffect (s.withMem M) x) :
    BootEffect s x := by
  cases hx with
  | ok h' => exact .ok (Kept.trans (t := s.withMem M) h h' rfl)
  | write h' a => exact .write (Kept.trans (t := s.withMem M) h h' rfl) a
  | initrd h' path hp => exact .initrd (Kept.trans (t := s.withMem M) h h' rfl) path hp

/-- Parts in sequence. -/
theorem BootEffect.bind {s : State} {x : Except State State} {f : State → Except State State} (hx : BootEffect s x)
    (hf : ∀ M, BootEffect (s.withMem M) (f (s.withMem M))) : BootEffect s (x >>= f) := by
  cases hx with
  | ok h => exact .after h (hf _)
  | write h a => exact .write h a
  | initrd h path hp => exact .initrd h path hp

/-- The state part of a result that also carries an address. -/
abbrev stateOf (x : Except State (Word × State)) : Except State State := x.map Prod.snd

/-- Parts in sequence, the first of which also answers an address. -/
theorem BootEffect.bindPair {s : State} {x : Except State (Word × State)} {f : Word × State → Except State State}
    (hx : BootEffect s (stateOf x)) (hf : ∀ p M, BootEffect (s.withMem M) (f (p, s.withMem M))) : BootEffect s (x >>= f) := by
  cases x with
  | ok y =>
    obtain ⟨p, u⟩ := y
    have hu : BootEffect s (.ok u) := hx
    cases hu with
    | ok h => exact .after h (hf p _)
  | error e =>
    have he : BootEffect s (.error e) := hx
    cases he with
    | write h a => exact .write h a
    | initrd h path hp => exact .initrd h path hp

theorem bootWrite_effect (s : State) (a : Word) (n v : Nat) : BootEffect s (s.bootWrite a n v) := by
  rw [State.bootWrite]
  cases h : s.memWrite a n v with
  | none => exact .write (Kept.refl s) a
  | some t =>
    obtain ⟨e, hk⟩ := memWrite_spec h
    dsimp only
    rw [e]
    exact .ok hk

theorem bootWriteBytes_effect (s : State) (a : Word) (vs : Bytes) : BootEffect s (s.bootWriteBytes a vs) := by
  induction vs generalizing s a with
  | nil => exact .ok (Kept.refl s)
  | cons v vs ih => exact (bootWrite_effect s a 1 v.toNat).bind fun M => ih _ _

theorem writePayload_effect (s : State) (p : Word) (r : BootRecord) : BootEffect s (s.writePayload p r) := by
  cases r with
  | single t v => exact bootWrite_effect ..
  | dual t b z => exact (bootWrite_effect ..).bind fun M => bootWrite_effect ..
  | string t text => exact (bootWriteBytes_effect ..).bind fun M => bootWrite_effect ..
  | last t => exact .ok (Kept.refl s)

theorem writeRecord_effect (s : State) (p : Word) (r : BootRecord) : BootEffect s (s.writeRecord p r) :=
  (bootWrite_effect ..).bind fun _ => (bootWrite_effect ..).bind fun _ => writePayload_effect ..

theorem writeRecords_effect (s : State) (p : Word) (rs : List BootRecord) : BootEffect s (stateOf (s.writeRecords p rs)) := by
  induction rs generalizing s p with
  | nil => exact .ok (Kept.refl s)
  | cons r rs ih =>
    have e : stateOf (s.writeRecords p (r :: rs)) =
        (s.writeRecord p r >>= fun u => stateOf (u.writeRecords (p + BitVec.ofNat 32 r.size) rs)) := by
      rw [State.writeRecords]
      cases s.writeRecord p r <;> rfl
    rw [e]
    exact (writeRecord_effect s p r).bind fun M => ih _ _

theorem loadRawImage_effect {s t : State} {path : Bytes} {a : Word} {max : Nat} (h : s.loadRawImage path a max = some t) :
    t = s.withMem t.mem ∧ Kept s t.mem := by
  unfold State.loadRawImage at h
  split at h
  · cases h
  · split at h
    · cases h; exact ⟨storeBytes_eq _ _ _, storeBytes_kept _ _ _⟩
    · cases h

theorem bootInitrd_effect (s : State) (p : Word) : BootEffect s (stateOf (s.bootInitrd p)) := by
  unfold State.bootInitrd
  split
  · exact .ok (Kept.refl s)
  · next path hp =>
    split
    · exact .initrd (Kept.refl s) path hp
    · dsimp only
      split
      · exact .initrd (Kept.refl s) path hp
      · next t ht =>
        obtain ⟨e, hk⟩ := loadRawImage_effect ht
        rw [e]
        exact .after hk (writeRecords_effect ..)

theorem bootSegments_effect (s : State) (segs : List (Word × Bytes)) : BootEffect s (s.bootSegments segs) := by
  induction segs generalizing s with
  | nil => exact .ok (Kept.refl s)
  | cons seg segs ih => exact (bootWriteBytes_effect ..).bind fun M => ih _

/-- BOOT_KERNEL after the image is loaded: it changes the memory, or ends with a fatal error. -/
theorem prepareKernel_effect (s : State) (image : ExecImage) : BootEffect s (s.prepareKernel image) :=
  (bootSegments_effect ..).bind fun _ => (bootWrite_effect ..).bind fun _ => (writeRecords_effect ..).bindPair fun _ _ =>
    (bootInitrd_effect ..).bindPair fun _ _ => (writeRecords_effect ..).bindPair fun _ _ => .ok (Kept.refl _)

end Sys2Proof.Machine
end

