-- ==== Sys2Proof/Laws/BootWrites.lean ====
section
/-! SUPPORT. The boot sequencer, write by write: which of its writes fails first, and the fatal error that follows. -/

namespace Sys2Proof.Machine

/-- A part of a boot command that makes these writes: it changes the memory alone when all succeed, and dies at the first that
fails. -/
def Performs (s : State) (ws : List (Word × Nat)) (x : Except State State) : Prop :=
  match s.failedWrite ws with
  | none => ∃ M, x = .ok (s.withMem M)
  | some a => ∃ M, x = .error ((s.withMem M).die (.bootWrite a))

@[simp] theorem failedWrite_withMem (s : State) (M : Memory) (ws : List (Word × Nat)) :
    (s.withMem M).failedWrite ws = s.failedWrite ws := by simp [State.failedWrite]

theorem failedWrite_congr {s t : State} (hr : t.regions = s.regions) (hc : t.cfg = s.cfg) (ws : List (Word × Nat)) :
    t.failedWrite ws = s.failedWrite ws := by simp [State.failedWrite, memAccessOk_congr hr hc]

theorem failedWrite_append (s : State) (xs ys : List (Word × Nat)) :
    s.failedWrite (xs ++ ys) = (s.failedWrite xs).or (s.failedWrite ys) := by
  rw [State.failedWrite, List.find?_append, State.failedWrite, State.failedWrite]
  cases xs.find? fun w => !s.memAccessOk w.1 w.2 .write <;> rfl

/-- A part that makes no write. -/
theorem Performs.nothing (s : State) : Performs s [] (.ok s) := ⟨s.mem, rfl⟩

/-- Parts in sequence. -/
theorem Performs.bind {s : State} {xs ys : List (Word × Nat)} {x : Except State State} {f : State → Except State State}
    (hx : Performs s xs x) (hf : ∀ M, Performs (s.withMem M) ys (f (s.withMem M))) : Performs s (xs ++ ys) (x >>= f) := by
  unfold Performs at hx ⊢
  rw [failedWrite_append]
  cases h : s.failedWrite xs with
  | none =>
    rw [h] at hx
    obtain ⟨M, rfl⟩ := hx
    have := hf M
    unfold Performs at this
    rw [failedWrite_withMem] at this
    exact this
  | some a =>
    rw [h] at hx
    obtain ⟨M, rfl⟩ := hx
    exact ⟨M, rfl⟩

/-- What a part that makes writes answers. -/
theorem Performs.cases {s : State} {ws : List (Word × Nat)} {x : Except State State} (h : Performs s ws x) :
    (∃ M, x = .ok (s.withMem M)) ∨ ∃ e, x = .error e := by
  unfold Performs at h
  split at h
  · exact .inl h
  · obtain ⟨M, e⟩ := h
    exact .inr ⟨_, e⟩

theorem bootWrite_performs (s : State) (a : Word) (n v : Nat) : Performs s [(a, n)] (s.bootWrite a n v) := by
  unfold Performs
  rw [State.bootWrite]
  cases h : s.memAccessOk a n .write with
  | true =>
    rw [memWrite_eq_some.mpr ⟨h, rfl⟩]
    simp only [State.failedWrite, List.find?, h]
    exact ⟨_, congrArg Except.ok (storeBytes_eq _ _ _)⟩
  | false =>
    rw [memWrite_eq_none.mpr h]
    simp only [State.failedWrite, List.find?, h]
    exact ⟨s.mem, rfl⟩

theorem byteWrites_succ (a : Word) (n : Nat) : byteWrites a (n + 1) = (a, 1) :: byteWrites (a + 1) n := by
  have h : ∀ i : Nat, a + BitVec.ofNat 32 (i + 1) = a + 1 + BitVec.ofNat 32 i := fun i => by bv_omega
  rw [byteWrites, List.range_succ_eq_map, List.map_cons, List.map_map, BitVec.add_zero]
  exact congrArg _ (List.map_congr_left fun i _ => congrArg (·, 1) (h i))

theorem bootWriteBytes_performs (s : State) (a : Word) (vs : Bytes) :
    Performs s (byteWrites a vs.length) (s.bootWriteBytes a vs) := by
  induction vs generalizing s a with
  | nil => exact .nothing s
  | cons v vs ih =>
    rw [List.length_cons, byteWrites_succ]
    exact (bootWrite_performs s a 1 v.toNat).bind fun M => ih _ _

theorem bootSegments_performs (s : State) (segs : List (Word × Bytes)) :
    Performs s (segs.flatMap fun seg => byteWrites seg.1 seg.2.length) (s.bootSegments segs) := by
  induction segs generalizing s with
  | nil => exact .nothing s
  | cons seg segs ih => exact (bootWriteBytes_performs s seg.1 seg.2).bind fun M => ih _

theorem writeRecord_performs (s : State) (p : Word) (r : BootRecord) : Performs s (r.writes p) (s.writeRecord p r) := by
  refine (bootWrite_performs s p 2 _).bind (ys := _ :: _) fun M => (bootWrite_performs _ (p + 2) 2 _).bind fun N => ?_
  cases r with
  | single t v => exact bootWrite_performs ..
  | dual t b z => exact (bootWrite_performs ..).bind fun _ => bootWrite_performs ..
  | string t text => exact (bootWriteBytes_performs ..).bind fun _ => bootWrite_performs ..
  | last t => exact .nothing _

/-- Records, and where the last one ends. -/
theorem writeRecords_performs (s : State) (p : Word) (rs : List BootRecord) :
    ∃ x, s.writeRecords p rs = x.map (Prod.mk (p + BitVec.ofNat 32 (rs.map BootRecord.size).sum)) ∧
      Performs s (recordWrites p rs) x := by
  induction rs generalizing s p with
  | nil => exact ⟨.ok s, by simp [State.writeRecords, Except.map], .nothing s⟩
  | cons r rs ih =>
    have ha : p + BitVec.ofNat 32 r.size + BitVec.ofNat 32 (rs.map BootRecord.size).sum =
        p + BitVec.ofNat 32 ((r :: rs).map BootRecord.size).sum := by
      rw [List.map_cons, List.sum_cons]; bv_omega
    choose f hf using fun u : State => ih u (p + BitVec.ofNat 32 r.size)
    refine ⟨s.writeRecord p r >>= f, ?_, (writeRecord_performs s p r).bind fun M => (hf _).2⟩
    rw [State.writeRecords]
    cases s.writeRecord p r with
    | error e => rfl
    | ok u =>
      simp only [bind, Except.bind]
      rw [(hf u).1, ha]

theorem recordWrites_append (p : Word) (xs ys : List BootRecord) :
    recordWrites p (xs ++ ys) = recordWrites p xs ++ recordWrites (p + BitVec.ofNat 32 (xs.map BootRecord.size).sum) ys := by
  induction xs generalizing p with
  | nil => simp [recordWrites]
  | cons x xs ih =>
    have ha : p + BitVec.ofNat 32 x.size + BitVec.ofNat 32 (xs.map BootRecord.size).sum =
        p + BitVec.ofNat 32 ((x :: xs).map BootRecord.size).sum := by
      rw [List.map_cons, List.sum_cons]; bv_omega
    rw [List.cons_append, recordWrites, recordWrites, ih, ha, List.append_assoc]

/-! ## The initrd -/

/-- `loadRawImage` answers exactly for an image that fits and whose bytes are accepted (44_boot.md rule R231). -/
theorem loadRawImage_eq_none {s : State} {path : Bytes} {a : Word} {max : Nat} :
    s.loadRawImage path a max = none ↔ ∀ raw, s.cfg.loader.rawImages.lookup path = some raw →
      raw.length ≤ max → ∃ i < raw.length, s.memAccessOk (a + BitVec.ofNat 32 i) 1 .write = false := by
  unfold State.loadRawImage
  cases s.cfg.loader.rawImages.lookup path with
  | none => simp
  | some raw => by_cases h : raw.length ≤ max <;> simp [h]

theorem bootInitrd_none {s : State} (h : s.cfg.initrdPath = none) (p : Word) : s.bootInitrd p = .ok (p, s) := by
  rw [State.bootInitrd, h]

/-- An initrd that does not load is fatal. -/
theorem bootInitrd_fails {s : State} {path : Bytes} (hp : s.cfg.initrdPath = some path)
    (h : ∀ size raw, ¬ s.InitrdLoads path size raw) (p : Word) : s.bootInitrd p = .error (s.die (.initrdLoad path)) := by
  rw [State.bootInitrd, hp]
  dsimp only
  cases hs : s.cfg.loader.imageSizes.lookup path with
  | none => rfl
  | some size =>
    dsimp only
    rw [loadRawImage_eq_none.mpr]
    intro raw hr hl
    by_contra hn
    exact h size raw ⟨hs, hr, hl, fun i hi => by
      simp only [not_exists, not_and] at hn
      simpa using hn i hi⟩

/-- An initrd that loads: its bytes, then its record. -/
theorem bootInitrd_loads {s : State} {path raw : Bytes} {size : Nat} (hp : s.cfg.initrdPath = some path)
    (h : s.InitrdLoads path size raw) (p : Word) :
    ∃ M, s.bootInitrd p = (s.withMem M).writeRecords p (ramdiskRecord s (some size)) := by
  rw [State.bootInitrd, hp]
  dsimp only
  rw [h.sized]
  dsimp only
  cases hl : s.loadRawImage path (initrdBase s.ramSize size) (s.ramSize - initrdBase s.ramSize size).toNat with
  | none =>
    obtain ⟨i, hi, hf⟩ := loadRawImage_eq_none.mp hl raw h.image h.fits
    rw [h.accepted i hi] at hf
    cases hf
  | some t =>
    obtain ⟨e, -⟩ := loadRawImage_effect hl
    refine ⟨t.mem, ?_⟩
    dsimp only
    rw [e]
    rfl

/-! ## BOOT_KERNEL after the image is loaded -/

/-- The initrd and the records after it. -/
def State.bootTail (s : State) (p : Word) : Except State State := do
  let (p, s) ← s.bootInitrd p
  let (_, s) ← s.writeRecords p [.last s.cfg.tags.last]
  .ok s

/-- What precedes the initrd, then the rest. -/
theorem prepareKernel_eq (s : State) (image : ExecImage) :
    ∃ x, Performs s (leadingWrites s image) x ∧ s.prepareKernel image = x >>= fun u => u.bootTail
      (parametersBase image.highest + BitVec.ofNat 32 ((leadingRecords s.cfg s.ramSize).map BootRecord.size).sum) := by
  choose f hf using fun u : State => writeRecords_performs u (parametersBase image.highest) (leadingRecords s.cfg s.ramSize)
  have h1 := bootSegments_performs s image.segs
  have h2 := fun M => bootWrite_performs (s.withMem M) Config.resetVectorAddr 4 image.entry.toNat
  refine ⟨(s.bootSegments image.segs >>= fun u => u.bootWrite Config.resetVectorAddr 4 image.entry.toNat) >>= f,
    (h1.bind h2).bind fun M => (hf _).2, ?_⟩
  rw [State.prepareKernel]
  rcases h1.cases with ⟨M, e⟩ | ⟨e, e1⟩
  · rw [e]
    simp only [bind, Except.bind]
    rcases (h2 M).cases with ⟨N, e⟩ | ⟨e, e1⟩
    · rw [e]
      dsimp only
      rw [withMem_withMem, withMem_cfg, withMem_ramSize, (hf _).1]
      cases f (s.withMem N) <;> rfl
    · rw [e1]
  · rw [e1]
    rfl

theorem Performs.died {s : State} {ws : List (Word × Nat)} {x : Except State State} {a : Word} (h : Performs s ws x)
    (ha : s.failedWrite ws = some a) : ∃ M, x = .error ((s.withMem M).die (.bootWrite a)) := by
  rw [Performs, ha] at h; exact h

theorem Performs.succeeded {s : State} {ws : List (Word × Nat)} {x : Except State State} (h : Performs s ws x)
    (hn : s.failedWrite ws = none) : ∃ M, x = .ok (s.withMem M) := by
  rw [Performs, hn] at h; exact h

/-- A write before the initrd that fails is fatal. -/
theorem prepareKernel_died {s : State} {image : ExecImage} {a : Word} (h : s.failedWrite (leadingWrites s image) = some a) :
    ∃ M, s.prepareKernel image = .error ((s.withMem M).die (.bootWrite a)) := by
  obtain ⟨x, hx, e⟩ := prepareKernel_eq s image
  obtain ⟨M, rfl⟩ := hx.died h
  exact ⟨M, e⟩

/-- When no write before the initrd fails, the initrd comes next. -/
theorem prepareKernel_tail {s : State} {image : ExecImage} (h : s.failedWrite (leadingWrites s image) = none) :
    ∃ M, s.prepareKernel image = (s.withMem M).bootTail
      (parametersBase image.highest + BitVec.ofNat 32 ((leadingRecords s.cfg s.ramSize).map BootRecord.size).sum) := by
  obtain ⟨x, hx, e⟩ := prepareKernel_eq s image
  obtain ⟨M, rfl⟩ := hx.succeeded h
  exact ⟨M, e⟩

/-- Whether the initrd loads does not depend on the contents of memory. -/
theorem initrdLoads_withMem {s : State} {M : Memory} {path raw : Bytes} {size : Nat} :
    (s.withMem M).InitrdLoads path size raw ↔ s.InitrdLoads path size raw :=
  ⟨fun h => ⟨h.1, h.2, h.3, fun i hi => by simpa using h.4 i hi⟩, fun h => ⟨h.1, h.2, h.3, fun i hi => by simpa using h.4 i hi⟩⟩

/-- An initrd that does not load is fatal, once every write before it has succeeded. -/
theorem prepareKernel_initrdFails {s : State} {image : ExecImage} {path : Bytes}
    (h : s.failedWrite (leadingWrites s image) = none) (hp : s.cfg.initrdPath = some path)
    (hi : ∀ size raw, ¬ s.InitrdLoads path size raw) :
    ∃ M, s.prepareKernel image = .error ((s.withMem M).die (.initrdLoad path)) := by
  obtain ⟨M, e⟩ := prepareKernel_tail h
  refine ⟨M, ?_⟩
  rw [e, State.bootTail, bootInitrd_fails (s := s.withMem M) hp fun n raw hl => hi n raw (initrdLoads_withMem.mp hl)]
  rfl

/-- Past the initrd, the last writes. -/
theorem prepareKernel_performs {s : State} {image : ExecImage} {size : Option Nat}
    (h : s.failedWrite (leadingWrites s image) = none) (hi : s.InitrdPassed size) :
    ∃ M, Performs (s.withMem M) (trailingWrites s image size) (s.prepareKernel image) := by
  obtain ⟨M, e⟩ := prepareKernel_tail h
  rw [e, State.bootTail, trailingWrites]
  generalize parametersBase image.highest + _ = p
  rw [State.InitrdPassed] at hi
  cases hp : s.cfg.initrdPath with
  | none =>
    rw [hp] at hi
    dsimp only at hi
    subst hi
    refine ⟨M, ?_⟩
    rw [bootInitrd_none (s := s.withMem M) hp]
    obtain ⟨x, e, hx⟩ := writeRecords_performs (s.withMem M) p [.last s.cfg.tags.last]
    simp only [bind, Except.bind, withMem_cfg]
    rw [e]
    cases x <;> exact hx
  | some path =>
    rw [hp] at hi
    obtain ⟨n, raw, hl, rfl⟩ := hi
    obtain ⟨N, e⟩ := bootInitrd_loads (s := s.withMem M) hp (initrdLoads_withMem.mpr hl) p
    refine ⟨N, ?_⟩
    rw [e, withMem_withMem, show ramdiskRecord (s.withMem M) (some n) = ramdiskRecord s (some n) from rfl, recordWrites_append]
    obtain ⟨x, e, hx⟩ := writeRecords_performs (s.withMem N) p (ramdiskRecord s (some n))
    generalize hq : p + BitVec.ofNat 32 ((ramdiskRecord s (some n)).map BootRecord.size).sum = q at e ⊢
    choose f hf using fun u : State => writeRecords_performs u q [.last s.cfg.tags.last]
    have hy := hx.bind fun K => (hf ((s.withMem N).withMem K)).2
    rw [e]
    rcases hx.cases with ⟨K, rfl⟩ | ⟨d, rfl⟩
    · simp only [bind, Except.bind, Except.map, withMem_cfg] at hy ⊢
      rw [(hf _).1]
      cases hk : f ((s.withMem N).withMem K) <;> rw [hk] at hy <;> exact hy
    · exact hy

end Sys2Proof.Machine
end

