-- ==== Sys2Proof/Laws/Registers.lean ====
section
/-! SUPPORT. The status register and the stack-pointer slots: what a write of the status register reads back as, and that a
stack-pointer switch moves no slot's value. -/

namespace Sys2Proof.Machine

variable (s : State)

/-! ## The five flags -/

theorem getLsbD_packFlags (x : Bool) (f : Nzvc) :
    (packFlags x f).getLsbD 0 = f.c ∧ (packFlags x f).getLsbD 1 = f.v ∧ (packFlags x f).getLsbD 2 = f.z ∧
      (packFlags x f).getLsbD 3 = f.n ∧ (packFlags x f).getLsbD 4 = x := by
  obtain ⟨n, z, v, c⟩ := f
  cases x <;> cases n <;> cases z <;> cases v <;> cases c <;> decide

/-- The flags after `SetCCR(v)` are `v[4:0]` (10_state.md rule R30). -/
theorem flags_setCcr (v : Byte) : (s.setCcr v).flags = v.extractLsb' 0 5 := by
  apply BitVec.eq_of_getLsbD_eq
  intro i hi
  obtain ⟨h0, h1, h2, h3, h4⟩ := getLsbD_packFlags (v.getLsbD 4) (flagsKnown ((v.extractLsb' 0 4).setWidth 32))
  have hi' : i = 0 ∨ i = 1 ∨ i = 2 ∨ i = 3 ∨ i = 4 := by omega
  rcases hi' with rfl | rfl | rfl | rfl | rfl
  · exact h0.trans (by simp [flagsKnown])
  · exact h1.trans (by simp [flagsKnown])
  · exact h2.trans (by simp [flagsKnown])
  · exact h3.trans (by simp [flagsKnown])
  · exact h4.trans (by simp)

/-! ## The status register -/

theorem getLsbD_readSr (i : Nat) :
    s.readSr.getLsbD i = ((decide (8 ≤ i) && s.srHi.getLsbD (i - 8)) || s.flags.getLsbD i) := by
  simp only [State.readSr, BitVec.getLsbD_or, BitVec.getLsbD_shiftLeft, BitVec.getLsbD_setWidth]
  by_cases h1 : i < 16
  · by_cases h2 : i < 8
    · simp [h1, h2]
    · simp [h1, h2, show 8 ≤ i by omega, show i - 8 < 16 by omega]
  · have h8 : s.srHi.getLsbD (i - 8) = false := BitVec.getLsbD_of_ge _ _ (by omega)
    have h5 : s.flags.getLsbD i = false := BitVec.getLsbD_of_ge _ _ (by omega)
    simp [h1, h8, h5]

/-- Bit 13 of the status register is S. -/
@[simp] theorem readSr_supervisor : s.readSr.getLsbD 13 = s.supervisor := by
  rw [getLsbD_readSr, BitVec.getLsbD_of_ge s.flags 13 (by omega)]; simp [State.supervisor]

/-- Bit 12 of the status register is M. -/
@[simp] theorem readSr_stackMode : s.readSr.getLsbD 12 = s.stackMode := by
  rw [getLsbD_readSr, BitVec.getLsbD_of_ge s.flags 12 (by omega)]; simp [State.stackMode]

/-- The high byte of the status register is stored (10_state.md rule R26). -/
theorem readSr_high : s.readSr.extractLsb' 8 8 = s.srHi := by
  apply BitVec.eq_of_getLsbD_eq
  intro i hi
  rw [BitVec.getLsbD_extractLsb', getLsbD_readSr, BitVec.getLsbD_of_ge s.flags (8 + i) (by omega)]
  simp [hi]

/-- The low five bits are the flags. -/
theorem readSr_flags : s.readSr.extractLsb' 0 5 = s.flags := by
  apply BitVec.eq_of_getLsbD_eq
  intro i hi
  rw [BitVec.getLsbD_extractLsb', getLsbD_readSr]
  simp [hi]; omega

@[simp] theorem switchSp_flags : s.switchSp.flags = s.flags := rfl

@[simp] theorem switchSp_readSr : s.switchSp.readSr = s.readSr := rfl

@[simp] theorem setSr_flags (v : Half) : (s.setSr v).flags = v.extractLsb' 0 5 := by
  rw [State.setSr, switchSp_flags, flags_setCcr]
  apply BitVec.eq_of_getLsbD_eq
  intro i hi
  simp only [BitVec.getLsbD_extractLsb']
  simp [hi]; omega

/-- A write of the status register reads back but for bits 7:5 (10_state.md rules R26 and R31). -/
theorem readSr_setSr (v : Half) : (s.setSr v).readSr = v &&& 0xFF1F := by
  apply BitVec.eq_of_getLsbD_eq
  intro i hi
  rw [getLsbD_readSr, setSr_flags, setSr_srHi, BitVec.getLsbD_and, BitVec.getLsbD_extractLsb', BitVec.getLsbD_extractLsb']
  by_cases h8 : 8 ≤ i
  · have hm : (0xFF1F : Half).getLsbD i = true := by
      have : ∀ j : Fin 16, 8 ≤ j.val → (0xFF1F : Half).getLsbD j.val = true := by decide
      exact this ⟨i, hi⟩ h8
    rw [hm, show 8 + (i - 8) = i by omega]
    simp [h8, show i - 8 < 8 by omega, show ¬ i < 5 by omega]
  · by_cases h5 : i < 5
    · have hm : (0xFF1F : Half).getLsbD i = true := by
        have : ∀ j : Fin 16, j.val < 5 → (0xFF1F : Half).getLsbD j.val = true := by decide
        exact this ⟨i, hi⟩ h5
      rw [hm]; simp [h8, h5]
    · have hm : (0xFF1F : Half).getLsbD i = false := by
        have : ∀ j : Fin 16, ¬ j.val < 5 → ¬ 8 ≤ j.val → (0xFF1F : Half).getLsbD j.val = false := by decide
        exact this ⟨i, hi⟩ h5 h8
      rw [hm]; simp [h8, h5]

/-! ## Stack-pointer slots -/

@[simp] theorem SpSlots.get_set_same (t : SpSlots) (k : SpSlot) (v : Word) : (t.set k v).get k = v := by cases k <;> rfl

theorem SpSlots.get_set_other (t : SpSlots) {j k : SpSlot} (v : Word) (h : j ≠ k) : (t.set k v).get j = t.get j := by
  cases j <;> cases k <;> first | rfl | exact absurd rfl h

/-- `A[7]` is the live slot's value (10_state.md rule R35). -/
theorem getSpSlot_live : s.getSpSlot s.currentSp = s.a[7] := by simp [State.getSpSlot]

theorem getSpSlot_other {k : SpSlot} (h : k ≠ s.currentSp) : s.getSpSlot k = s.spSlots.get k := by
  simp [State.getSpSlot, h]

/-- A switch loads the slot it selects. -/
theorem switchSp_a7 : s.switchSp.a[7] = s.getSpSlot (s.sel s.readSr) := by
  simp only [State.switchSp, Vector.getElem_set_self]
  by_cases h : s.sel s.readSr = s.currentSp
  · rw [h, SpSlots.get_set_same, getSpSlot_live]
  · rw [SpSlots.get_set_other _ _ h, getSpSlot_other _ h]

/-- A switch moves no slot's value (10_state.md rule R39). -/
@[simp] theorem getSpSlot_switchSp (k : SpSlot) : s.switchSp.getSpSlot k = s.getSpSlot k := by
  by_cases hk : k = s.sel s.readSr
  · subst hk
    rw [← switchSp_a7, ← getSpSlot_live, switchSp_currentSp]
  · rw [getSpSlot_other _ (by simpa using hk)]
    simp only [State.switchSp]
    by_cases hc : k = s.currentSp
    · rw [hc, SpSlots.get_set_same, getSpSlot_live]
    · rw [SpSlots.get_set_other _ _ hc, getSpSlot_other _ hc]

theorem switchSp_a_other {n : Nat} (h : n < 8) (hn : n ≠ 7) : s.switchSp.a[n] = s.a[n] := by
  simp only [State.switchSp]
  rw [Vector.getElem_set_ne (h := Ne.symm hn)]

/-- No slot's value is changed by a write of the status register. -/
@[simp] theorem getSpSlot_setSr (v : Half) (k : SpSlot) : (s.setSr v).getSpSlot k = s.getSpSlot k :=
  getSpSlot_switchSp _ k

theorem setSr_a_other (v : Half) {n : Nat} (h : n < 8) (hn : n ≠ 7) : (s.setSr v).a[n] = s.a[n] :=
  switchSp_a_other _ h hn

theorem selectSlot_mask (classic : Bool) (v : Half) : selectSlot classic (v &&& 0xFF1F) = selectSlot classic v := by
  have h13 : (v &&& 0xFF1F).getLsbD 13 = v.getLsbD 13 := by simp
  have h12 : (v &&& 0xFF1F).getLsbD 12 = v.getLsbD 12 := by simp
  unfold selectSlot
  rw [h13, h12]

/-- After a write of the status register the live slot is the one it selects. -/
theorem setSr_currentSp (v : Half) : (s.setSr v).currentSp = s.sel v := by
  have h : (s.setSr v).currentSp = s.sel (s.setSr v).readSr := rfl
  rw [h, readSr_setSr]
  exact selectSlot_mask _ v

theorem setSr_a7 (v : Half) : (s.setSr v).a[7] = s.getSpSlot (s.sel v) := by
  rw [← getSpSlot_live, setSr_currentSp, getSpSlot_setSr]

/-- A write of the status register makes the live slot the one the status register selects (rule R35). -/
theorem spLive_setSr (v : Half) : (s.setSr v).SpLive := rfl

/-- The live slot depends on the status register, the configuration and nothing else. -/
theorem spLive_of_eq {s t : State} (h : s.SpLive) (hc : t.currentSp = s.currentSp) (hs : t.srHi = s.srHi)
    (hf : t.cfg = s.cfg) : t.SpLive := by
  have e : ∀ u : State, u.sel u.readSr = selectSlot (u.cfg.features.contains .m68000) (u.srHi.setWidth 16 <<< 8) := by
    intro u
    have h13 : (u.srHi.setWidth 16 <<< 8 : Half).getLsbD 13 = u.srHi.getLsbD 5 := by
      simp
    have h12 : (u.srHi.setWidth 16 <<< 8 : Half).getLsbD 12 = u.srHi.getLsbD 4 := by
      simp
    simp only [State.sel, selectSlot, h13, h12, readSr_supervisor, readSr_stackMode]
    rfl
  unfold State.SpLive at *
  rw [e, hs, hf, ← e, ← h, hc]

end Sys2Proof.Machine
end

