-- ==== Sys2Proof/Laws/Unchanged.lean ====
section
/-! SUPPORT. Frames composed: what two changes in sequence leave, and what each shared operation leaves. -/

namespace Sys2Proof.Machine

variable {s t u : State} {l k : List Part}

theorem Unchanged.refl (s : State) : Unchanged l s s := by
  intro p _
  cases p <;> first | rfl | exact ⟨rfl, rfl⟩ | exact ⟨rfl, rfl, rfl, rfl⟩ | exact fun _ => rfl

theorem Unchanged.mono (h : Unchanged k s t) (hk : ∀ p ∈ k, p ∈ l) : Unchanged l s t := fun p hp => h p fun hm => hp (hk p hm)

theorem Part.Same.trans {p : Part} (h1 : p.Same s t) (h2 : p.Same t u) : p.Same s u := by
  cases p with
  | record => exact ⟨h2.1.trans h1.1, h2.2.1.trans h1.2.1, h2.2.2.1.trans h1.2.2.1, h2.2.2.2.trans h1.2.2.2⟩
  | pending => exact ⟨h2.1.trans h1.1, h2.2.trans h1.2⟩
  | mem => exact fun b => (h2 b).trans (h1 b)
  | _ => exact Eq.trans h2 h1

theorem Unchanged.trans (h1 : Unchanged l s t) (h2 : Unchanged l t u) : Unchanged l s u :=
  fun p hp => (h1 p hp).trans (h2 p hp)

theorem setSr_unchanged (s : State) (v : Half) : Unchanged [.a, .srHi, .record, .spSlots, .currentSp] s (s.setSr v) := by
  intro p hp
  cases p <;> first | rfl | exact ⟨rfl, rfl⟩ | exact fun _ => rfl | exact absurd (by simp) hp

theorem withMem_unchanged (s : State) (m : Memory) : Unchanged [.mem] s (s.withMem m) := by
  intro p hp
  cases p <;> first | rfl | exact ⟨rfl, rfl⟩ | exact ⟨rfl, rfl, rfl, rfl⟩ | exact absurd (by simp) hp

theorem withA7_unchanged (s : State) (v : Word) : Unchanged [.a] s (s.withA7 v) := by
  intro p hp
  cases p <;> first | rfl | exact ⟨rfl, rfl⟩ | exact ⟨rfl, rfl, rfl, rfl⟩ | exact fun _ => rfl | exact absurd (by simp) hp

theorem halt_unchanged (s : State) : Unchanged [.halted, .reply] s s.halt := by
  intro p hp
  cases p <;> first | rfl | exact ⟨rfl, rfl⟩ | exact ⟨rfl, rfl, rfl, rfl⟩ | exact fun _ => rfl | exact absurd (by simp) hp

theorem done_unchanged (s : State) (ws : List Word) : Unchanged [.reply] s (s.done ws) := by
  intro p hp
  cases p <;> first | rfl | exact ⟨rfl, rfl⟩ | exact ⟨rfl, rfl, rfl, rfl⟩ | exact fun _ => rfl | exact absurd (by simp) hp

theorem die_unchanged (s : State) (r : FatalReason) : Unchanged [.fatal, .reply] s (s.die r) := by
  intro p hp
  cases p <;> first | rfl | exact ⟨rfl, rfl⟩ | exact ⟨rfl, rfl, rfl, rfl⟩ | exact fun _ => rfl | exact absurd (by simp) hp

theorem setSpSlot_unchanged (s : State) (k : SpSlot) (v : Word) : Unchanged [.a, .spSlots] s (s.setSpSlot k v) := by
  unfold State.setSpSlot
  split <;> intro p hp <;> cases p <;>
    first | rfl | exact ⟨rfl, rfl⟩ | exact ⟨rfl, rfl, rfl, rfl⟩ | exact fun _ => rfl | exact absurd (by simp) hp

theorem writeUnit_unchanged (s : State) (r : UnitReg) (v : Acc) :
    Unchanged [.fpcr, .fpsr, .macsr, .macMask, .acc] s (s.writeUnit r v) := by
  intro p hp
  cases r <;> cases p <;>
    first | rfl | exact ⟨rfl, rfl⟩ | exact ⟨rfl, rfl, rfl, rfl⟩ | exact fun _ => rfl | exact absurd (by simp) hp

theorem writeCtrl_unchanged (s : State) (r : CtrlReg) (v : Word) :
    Unchanged [.sfc, .dfc, .vbr, .tcr, .mmusr, .root, .ttr] s (s.writeCtrl r v) := by
  intro p hp
  cases r <;> cases p <;>
    first | rfl | exact ⟨rfl, rfl⟩ | exact ⟨rfl, rfl, rfl, rfl⟩ | exact fun _ => rfl | exact absurd (by simp) hp

/-- A step that leaves the three components of check 2 alone leaves the block running. -/
theorem Unchanged.running (h : Unchanged l s t) (hs : s.Running) (hf : .fatal ∉ l) (hh : .halted ∉ l) (hb : .bootState ∉ l) :
    t.Running :=
  ⟨Eq.trans (h .fatal hf) hs.1, Eq.trans (h .halted hh) hs.2.1, Eq.trans (h .bootState hb) hs.2.2⟩

/-- An address register other than `A[7]` after a write of `A[7]`. -/
theorem set7_other (a : Vector Word 8) (w : Word) {n : Fin 8} (h : n ≠ 7) : (a.set 7 w)[n] = a[n] := by
  change (a.set 7 w)[n.val] = a[n.val]
  exact Vector.getElem_set_ne _ _ fun e => h (Fin.ext e.symm)

end Sys2Proof.Machine
end

