-- ==== Sys2Proof/Laws/Exceptions.lean ====
section
/-! SUPPORT. Exception entry and return: what each can do, said once, with the exact state each leaves. -/

namespace Sys2Proof.Machine

/-! ## The vector table -/

theorem vectorOffset_eq (v : Byte) : (vectorOffset v).setWidth 32 = BitVec.ofNat 32 (4 * v.toNat) := by
  revert v; decide

/-- The entry of a vector stands at `VBR + 4 * v` (60_exceptions.md rule R282). -/
theorem vectorAddress_eq (s : State) (v : Byte) : s.vectorAddress v = s.vbr + BitVec.ofNat 32 (4 * v.toNat) := by
  rw [State.vectorAddress, vectorOffset_eq]

/-- The address read for the handler. -/
abbrev State.handlerAt (s : State) (v : Byte) : Word := s.xlateS (s.vbr + BitVec.ofNat 32 (4 * v.toNat))

theorem takeVector_ok {s : State} {v : Byte} (h : s.memAccessOk (s.handlerAt v) 4 .read = true) :
    s.takeVector v =
      { s with reads := s.reads + 1, pc := BitVec.ofNat 32 (joinDigits 8 (s.loadBytes (s.handlerAt v) 4))
               reply := .exception v } := by
  rw [State.takeVector, vectorAddress_eq, State.memRead, if_pos h]

theorem takeVector_failed {s : State} {v : Byte} (h : s.memAccessOk (s.handlerAt v) 4 .read = false) :
    s.takeVector v = s.halt := by
  rw [State.takeVector, vectorAddress_eq, memRead_eq_none.mpr h]

/-! ## Entry -/

/-- The state after entry's write of the status register. -/
abbrev State.entered (s : State) (m : BitVec 3) : State := s.setSr (entryStatus s.readSr m)

/-- The memory after the first item of the frame. -/
def State.frame1 (s : State) (c : Cause) (v : Byte) : Memory :=
  (s.storeBytes (s.xlateS (s.entrySp - 2)) (splitDigits 8 2 (frameWord c v).toNat)).mem

/-- The memory after the second item of the frame. -/
def State.frame2 (s : State) (c : Cause) (v : Byte) (retpc : Word) : Memory :=
  ((s.withMem (s.frame1 c v)).storeBytes (s.xlateS (s.entrySp - 6)) (splitDigits 8 4 retpc.toNat)).mem

/-- The memory after the whole frame. -/
def State.frame3 (s : State) (c : Cause) (v : Byte) (retpc : Word) : Memory :=
  ((s.withMem (s.frame2 c v retpc)).storeBytes (s.xlateS (s.entrySp - 8)) (splitDigits 8 2 s.readSr.toNat)).mem

theorem frame1_fold (s : State) (c : Cause) (v : Byte) :
    (s.storeBytes (s.xlateS (s.entrySp - 2)) (splitDigits 8 2 (frameWord c v).toNat)).mem = s.frame1 c v := rfl

theorem frame2_fold (s : State) (c : Cause) (v : Byte) (r : Word) :
    ((s.withMem (s.frame1 c v)).storeBytes (s.xlateS (s.entrySp - 6)) (splitDigits 8 4 r.toNat)).mem = s.frame2 c v r := rfl

theorem frame3_fold (s : State) (c : Cause) (v : Byte) (r : Word) :
    ((s.withMem (s.frame2 c v r)).storeBytes (s.xlateS (s.entrySp - 8)) (splitDigits 8 2 s.readSr.toNat)).mem =
      s.frame3 c v r := rfl

theorem frame1_kept (s : State) (c : Cause) (v : Byte) : Kept s (s.frame1 c v) := storeBytes_kept _ _ _

theorem frame2_kept (s : State) (c : Cause) (v : Byte) (r : Word) : Kept s (s.frame2 c v r) :=
  Kept.trans (t := s.withMem (s.frame1 c v)) (frame1_kept s c v) (storeBytes_kept _ _ _) rfl

theorem frame3_kept (s : State) (c : Cause) (v : Byte) (r : Word) : Kept s (s.frame3 c v r) :=
  Kept.trans (t := s.withMem (s.frame2 c v r)) (frame2_kept s c v r) (storeBytes_kept _ _ _) rfl

theorem read_frame1_other {s : State} {c : Cause} {v : Byte} {b : Word} (h : ¬ Within b (s.xlateS (s.entrySp - 2)) 2) :
    Memory.read (s.frame1 c v) b.toNat = Memory.read s.mem b.toNat :=
  read_storeBytes_other _ _ _ (by simpa using h)

theorem read_frame2_other {s : State} {c : Cause} {v : Byte} {r b : Word} (h : ¬ Within b (s.xlateS (s.entrySp - 6)) 4) :
    Memory.read (s.frame2 c v r) b.toNat = Memory.read (s.frame1 c v) b.toNat :=
  read_storeBytes_other _ _ _ (by simpa using h)

theorem read_frame3_other {s : State} {c : Cause} {v : Byte} {r b : Word} (h : ¬ Within b (s.xlateS (s.entrySp - 8)) 2) :
    Memory.read (s.frame3 c v r) b.toNat = Memory.read (s.frame2 c v r) b.toNat :=
  read_storeBytes_other _ _ _ (by simpa using h)

/-- A store of bytes puts the same bytes in any two states with one memory and one address map. -/
theorem storeBytes_mem_congr {s t : State} (hm : t.mem = s.mem) (hr : t.regions = s.regions) (a : Word) (vs : Bytes) :
    (t.storeBytes a vs).mem = (s.storeBytes a vs).mem := by
  induction vs generalizing s t a with
  | nil => exact hm
  | cons v vs ih =>
    refine ih ?_ ?_ _
    · rw [storeByte_mem, storeByte_mem, regionAt_congr hr, hm]
    · rw [storeByte_regions, storeByte_regions, hr]

/-- A successful write, as the store it makes, said of the state whose memory and address map it shares. -/
theorem memWrite_congr {s t : State} (hm : t.mem = s.mem) (hr : t.regions = s.regions) (hc : t.cfg = s.cfg) {a : Word}
    {n v : Nat} (h : s.memAccessOk a n .write = true) :
    t.memWrite a n v = some (t.withMem (s.storeBytes a (splitDigits 8 n v)).mem) := by
  rw [memWrite_eq_some, memAccessOk_congr hr hc]
  exact ⟨h, by rw [storeBytes_eq, storeBytes_mem_congr hm hr]⟩

theorem memWrite_failed {s t : State} (hr : t.regions = s.regions) (hc : t.cfg = s.cfg) {a : Word} {n v : Nat}
    (h : s.memAccessOk a n .write = false) : t.memWrite a n v = none := by
  rw [memWrite_eq_none, memAccessOk_congr hr hc]; exact h

/-- Where entry switches to does not depend on the new mask or on the trace bits (60_exceptions.md rule R287). -/
theorem sel_entryStatus (s : State) (m : BitVec 3) : s.sel (entryStatus s.readSr m) = s.entrySlot := by
  have h13 : ∀ r : Half, (entryStatus r m).getLsbD 13 = true ∧ (entryStatus r m).getLsbD 12 = r.getLsbD 12 := by
    intro r
    simp [entryStatus]
  have h : (s.readSr ||| 0x2000).getLsbD 13 = true ∧ (s.readSr ||| 0x2000).getLsbD 12 = s.readSr.getLsbD 12 := by
    simp
  simp only [State.entrySlot, State.sel, selectSlot, h13, h]

theorem entered_currentSp (s : State) (m : BitVec 3) : (s.entered m).currentSp = s.entrySlot := by
  rw [setSr_currentSp, sel_entryStatus]

theorem entered_a7 (s : State) (m : BitVec 3) : (s.entered m).a[7] = s.entrySp := by
  rw [setSr_a7, sel_entryStatus, State.entrySp]

/-- Entry, access by access: where it stops and what it has done by then (60_exceptions.md rules R285 and R296). -/
theorem enter_eq (s : State) (c : Cause) (v : Byte) (r : Word) (m : BitVec 3) :
    s.enter c v r m =
      if s.memAccessOk (s.xlateS (s.entrySp - 2)) 2 .write = false then (s.entered m).halt
      else if s.memAccessOk (s.xlateS (s.entrySp - 6)) 4 .write = false then ((s.entered m).withMem (s.frame1 c v)).halt
      else if s.memAccessOk (s.xlateS (s.entrySp - 8)) 2 .write = false then ((s.entered m).withMem (s.frame2 c v r)).halt
      else State.takeVector
        (((s.entered m).withMem (s.frame3 c v r)).withA7 (s.entrySp - 8)) v := by
  have hx : ∀ (M : Memory) (a : Word), ((s.entered m).withMem M).xlateS a = s.xlateS a :=
    fun M a => xlateS_congr (by simp) a
  have hx0 : ∀ a : Word, (s.entered m).xlateS a = s.xlateS a := fun a => xlateS_congr (by simp) a
  rw [State.enter]
  simp only [entered_a7, hx0]
  cases h1 : s.memAccessOk (s.xlateS (s.entrySp - 2)) 2 .write with
  | false => rw [memWrite_failed (s := s) (by simp) (by simp) h1]; rfl
  | true =>
    rw [memWrite_congr (s := s) (by simp) (by simp) (by simp) h1, frame1_fold]
    simp only [hx]
    cases h2 : s.memAccessOk (s.xlateS (s.entrySp - 6)) 4 .write with
    | false => rw [memWrite_failed (s := s) (by simp) (by simp) h2]; rfl
    | true =>
      rw [memWrite_congr (s := s.withMem (s.frame1 c v)) (t := (s.entered m).withMem (s.frame1 c v)) rfl (by simp) (by simp)
        (by simpa using h2), withMem_withMem, frame2_fold]
      simp only [hx]
      cases h3 : s.memAccessOk (s.xlateS (s.entrySp - 8)) 2 .write with
      | false => rw [memWrite_failed (s := s) (by simp) (by simp) h3]; rfl
      | true =>
        rw [memWrite_congr (s := s.withMem (s.frame2 c v r)) (t := (s.entered m).withMem (s.frame2 c v r)) rfl (by simp) (by simp)
          (by simpa using h3), withMem_withMem, frame3_fold]
        rfl

/-- The state at a handler: another `PC`, another count of reads, and the exception as the outcome. -/
def State.atHandler (s : State) (n : Nat) (pc : Word) (v : Byte) : State :=
  { s with reads := n, pc := pc, reply := .exception v }

@[simp] theorem atHandler_pc (s : State) (n : Nat) (pc : Word) (v : Byte) : (s.atHandler n pc v).pc = pc := rfl
@[simp] theorem atHandler_reads (s : State) (n : Nat) (pc : Word) (v : Byte) : (s.atHandler n pc v).reads = n := rfl
@[simp] theorem atHandler_reply (s : State) (n : Nat) (pc : Word) (v : Byte) : (s.atHandler n pc v).reply = .exception v := rfl
@[simp] theorem atHandler_a (s : State) (n : Nat) (pc : Word) (v : Byte) : (s.atHandler n pc v).a = s.a := rfl
@[simp] theorem atHandler_mem (s : State) (n : Nat) (pc : Word) (v : Byte) : (s.atHandler n pc v).mem = s.mem := rfl
@[simp] theorem atHandler_regions (s : State) (n : Nat) (pc : Word) (v : Byte) : (s.atHandler n pc v).regions = s.regions := rfl
@[simp] theorem atHandler_cfg (s : State) (n : Nat) (pc : Word) (v : Byte) : (s.atHandler n pc v).cfg = s.cfg := rfl
@[simp] theorem atHandler_currentSp (s : State) (n : Nat) (pc : Word) (v : Byte) :
    (s.atHandler n pc v).currentSp = s.currentSp := rfl
@[simp] theorem atHandler_getSpSlot (s : State) (n : Nat) (pc : Word) (v : Byte) (k : SpSlot) :
    (s.atHandler n pc v).getSpSlot k = s.getSpSlot k := rfl

theorem atHandler_unchanged (s : State) (n : Nat) (pc : Word) (v : Byte) :
    Unchanged [.pc, .reply, .reads] s (s.atHandler n pc v) := by
  intro p hp
  cases p <;> first | rfl | exact ⟨rfl, rfl⟩ | exact ⟨rfl, rfl, rfl, rfl⟩ | exact fun _ => rfl | exact absurd (by simp) hp

/-- The state after an entry whose accesses all succeed. -/
def State.afterEntry (s : State) (c : Cause) (v : Byte) (r : Word) (m : BitVec 3) : State :=
  (((s.entered m).withMem (s.frame3 c v r)).withA7 (s.entrySp - 8)).atHandler (s.reads + 1)
    ((s.withMem (s.frame3 c v r)).wordAt s.reads (s.handlerAt v)) v

theorem loadByte_congr {s t : State} (hr : t.regions = s.regions) (hm : t.mem = s.mem) (hn : t.reads = s.reads) (a : Word) :
    t.loadByte a = s.loadByte a := by
  simp only [State.loadByte, regionAt_congr hr, hm, hn]

theorem loadBytes_congr {s t : State} (hr : t.regions = s.regions) (hm : t.mem = s.mem) (hn : t.reads = s.reads) (a : Word)
    (n : Nat) : t.loadBytes a n = s.loadBytes a n := by
  simp only [State.loadBytes, loadByte_congr hr hm hn]

theorem wordAt_congr {s t : State} (hr : t.regions = s.regions) (hm : t.mem = s.mem) (n : Nat) (a : Word) :
    t.wordAt n a = s.wordAt n a := by
  rw [State.wordAt, State.wordAt, loadBytes_congr (s := { s with reads := n }) (t := { t with reads := n }) hr hm rfl]

theorem halfAt_congr {s t : State} (hr : t.regions = s.regions) (hm : t.mem = s.mem) (n : Nat) (a : Word) :
    t.halfAt n a = s.halfAt n a := by
  rw [State.halfAt, State.halfAt, loadBytes_congr (s := { s with reads := n }) (t := { t with reads := n }) hr hm rfl]

/-- Entry when every access succeeds (60_exceptions.md rule R285). -/
theorem enter_ok {s : State} {c : Cause} {v : Byte} {r : Word} {m : BitVec 3} (h : s.EntryOk v) :
    s.enter c v r m = s.afterEntry c v r m := by
  obtain ⟨h1, h2, h3, h4⟩ := h
  have hh : ∀ u : State, u.cfg = s.cfg → u.vbr = s.vbr → u.handlerAt v = s.handlerAt v := by
    intro u hc hv
    rw [State.handlerAt, xlateS_congr hc, hv]
  rw [enter_eq, if_neg (by rw [h1]; decide), if_neg (by rw [h2]; decide), if_neg (by rw [h3]; decide), takeVector_ok]
  · rw [hh _ (by simp) (by simp),
      loadBytes_congr (s := { s.withMem (s.frame3 c v r) with reads := s.reads }) (by simp) (by simp) (by simp)]
    rfl
  · rw [hh _ (by simp) (by simp), memAccessOk_congr (s := s) (by simp) (by simp)]
    exact h4

/-- A synchronous exception when every access succeeds. -/
theorem raiseSync_ok {s : State} {k : Kind} {r : Word} (h : s.EntryOk (vectorOf k)) :
    s.raiseSync k r = s.afterEntry (.sync k) (vectorOf k) r s.mask := enter_ok h

/-- What entry leaves, whatever becomes of its accesses: a memory that keeps what every store keeps and differs from the old
one in the frame alone, and either a halt or the state at the handler. -/
theorem enter_cases (s : State) (c : Cause) (v : Byte) (r : Word) (m : BitVec 3) :
    (∃ M, Kept s M ∧ s.enter c v r m = ((s.entered m).withMem M).halt) ∨
    (∃ M, Kept s M ∧ s.enter c v r m = (((s.entered m).withMem M).withA7 (s.entrySp - 8)).halt) ∨
    s.enter c v r m = s.afterEntry c v r m := by
  rw [enter_eq]
  split
  · exact .inl ⟨s.mem, Kept.refl s, rfl⟩
  · split
    · exact .inl ⟨_, frame1_kept s c v, rfl⟩
    · split
      · exact .inl ⟨_, frame2_kept s c v r, rfl⟩
      · next h1 h2 h3 =>
        cases h4 : s.memAccessOk (s.handlerAt v) 4 .read with
        | true =>
          refine .inr (.inr ?_)
          have := enter_ok (c := c) (r := r) (m := m) (v := v) (s := s)
            ⟨by simpa using h1, by simpa using h2, by simpa using h3, h4⟩
          rw [enter_eq, if_neg h1, if_neg h2, if_neg h3] at this
          exact this
        | false =>
          refine .inr (.inl ⟨_, frame3_kept s c v r, takeVector_failed ?_⟩)
          rw [State.handlerAt, memAccessOk_congr (s := s) (by simp) (by simp), xlateS_congr (s := s) (by simp)]
          simpa using h4

/-- The status register after entry's write of it (60_exceptions.md rule R286). -/
theorem enteredStatus (s : State) (m : BitVec 3) : EnteredStatus s (s.entered m) m := by
  have hb : ∀ i < 8, (s.entered m).srHi.getLsbD i = (entryStatus s.readSr m).getLsbD (8 + i) := by
    intro i hi
    rw [setSr_srHi, BitVec.getLsbD_extractLsb']
    simp [hi]
  have hs : ∀ i < 8, s.readSr.getLsbD (8 + i) = s.srHi.getLsbD i := by
    intro i hi
    rw [getLsbD_readSr, BitVec.getLsbD_of_ge s.flags (8 + i) (by omega)]
    simp
  refine ⟨?_, ?_, ?_, ?_, ?_, ?_, ?_, rfl⟩
  · rw [State.supervisor, hb 5 (by decide)]; simp [entryStatus]
  · rw [hb 7 (by decide)]; simp [entryStatus]
  · rw [hb 6 (by decide)]; simp [entryStatus]
  · rw [State.stackMode, State.stackMode, hb 4 (by decide), ← hs 4 (by decide)]; simp [entryStatus]
  · rw [hb 3 (by decide), ← hs 3 (by decide)]; simp [entryStatus]
  · apply BitVec.eq_of_getLsbD_eq
    intro i hi
    rw [State.mask, BitVec.getLsbD_extractLsb', Nat.zero_add, hb i (by omega)]
    have hi' : i = 0 ∨ i = 1 ∨ i = 2 := by omega
    rcases hi' with rfl | rfl | rfl <;> simp [entryStatus]
  · rw [setSr_flags, ← readSr_flags]
    apply BitVec.eq_of_getLsbD_eq
    intro i hi
    rw [BitVec.getLsbD_extractLsb', BitVec.getLsbD_extractLsb']
    have hi' : i = 0 ∨ i = 1 ∨ i = 2 ∨ i = 3 ∨ i = 4 := by omega
    rcases hi' with rfl | rfl | rfl | rfl | rfl <;> simp [entryStatus]

/-- What entry's fields depend on: the status is read from these components alone. -/
theorem EnteredStatus.congr {s t u : State} {m : BitVec 3} (h : EnteredStatus s t m) (h1 : u.srHi = t.srHi)
    (h2 : u.flags = t.flags) (h3 : u.ccOp = t.ccOp) : EnteredStatus s u m := by
  obtain ⟨a, b, c, d, e, f, g, k⟩ := h
  exact ⟨by rw [← a, State.supervisor, State.supervisor, h1], by rw [h1, b], by rw [h1, c],
    by rw [← d, State.stackMode, State.stackMode, h1], by rw [h1, e], by rw [← f, State.mask, State.mask, h1],
    by rw [h2, g], by rw [h3, k]⟩

theorem withA7_getSpSlot_other {s : State} {v : Word} {k : SpSlot} (h : k ≠ s.currentSp) :
    (s.withA7 v).getSpSlot k = s.getSpSlot k := by
  rw [getSpSlot_other _ h, getSpSlot_other _ (by simpa using h)]
  rfl

/-- What entry leaves alone, whatever becomes of its accesses. -/
theorem enter_unchanged (s : State) (c : Cause) (v : Byte) (r : Word) (m : BitVec 3) :
    Unchanged [.a, .pc, .srHi, .record, .spSlots, .currentSp, .mem, .halted, .reply, .reads] s (s.enter c v r m) := by
  rcases enter_cases s c v r m with ⟨M, -, e⟩ | ⟨M, -, e⟩ | e <;> rw [e] <;> intro p hp <;> cases p <;>
    first | rfl | exact ⟨rfl, rfl⟩ | exact absurd (by simp) hp

/-- The memory after entry keeps what every store keeps. -/
theorem enter_kept (s : State) (c : Cause) (v : Byte) (r : Word) (m : BitVec 3) : Kept s (s.enter c v r m).mem := by
  rcases enter_cases s c v r m with ⟨M, h, e⟩ | ⟨M, h, e⟩ | e <;> rw [e]
  · exact h
  · exact h
  · exact frame3_kept s c v r

/-- Entry answers the exception, or a halt. -/
theorem enter_reply (s : State) (c : Cause) (v : Byte) (r : Word) (m : BitVec 3) :
    (s.enter c v r m).reply = .exception v ∨
      ((s.enter c v r m).reply = .halted ∧ (s.enter c v r m).halted = true ∧ (s.enter c v r m).pc = s.pc) := by
  rcases enter_cases s c v r m with ⟨M, -, e⟩ | ⟨M, -, e⟩ | e <;> rw [e]
  · exact .inr ⟨rfl, rfl, rfl⟩
  · exact .inr ⟨rfl, rfl, rfl⟩
  · exact .inl rfl

/-- A synchronous exception answers its own vector, or a halt. -/
theorem raiseSync_reply (s : State) (k : Kind) (r : Word) :
    (s.raiseSync k r).reply = .exception (vectorOf k) ∨ (s.raiseSync k r).reply = .halted :=
  (enter_reply s (.sync k) (vectorOf k) r s.mask).imp_right And.left

/-- After entry the block is in supervisor mode and the live slot is the one the status register selects. -/
theorem enter_status (s : State) (c : Cause) (v : Byte) (r : Word) (m : BitVec 3) :
    EnteredStatus s (s.enter c v r m) m ∧ (s.enter c v r m).SpLive := by
  rcases enter_cases s c v r m with ⟨M, -, e⟩ | ⟨M, -, e⟩ | e <;> rw [e] <;>
    exact ⟨(enteredStatus s m).congr rfl rfl rfl, rfl⟩

/-! ## Return (60_exceptions.md rule R297) -/

/-- The state with another count of reads. -/
def State.withReads (s : State) (n : Nat) : State := { s with reads := n }

/-- Return, read by read. -/
theorem returnFrom_eq (s : State) :
    s.returnFrom =
      if s.memAccessOk (s.xlateS s.a[7]) 2 .read = false then s.raiseSync .access s.pc
      else if s.memAccessOk (s.xlateS (s.a[7] + 2)) 4 .read = false then
        (s.withReads (s.reads + 1)).raiseSync .access s.pc
      else if s.memAccessOk (s.xlateS (s.a[7] + 6)) 2 .read = false then
        (s.withReads (s.reads + 2)).raiseSync .access s.pc
      else if (s.halfAt (s.reads + 2) (s.xlateS (s.a[7] + 6))).extractLsb' 12 4 = 0 then
        (s.withReads (s.reads + 3)).popFrame (s.halfAt s.reads (s.xlateS s.a[7]))
          (s.wordAt (s.reads + 1) (s.xlateS (s.a[7] + 2)))
      else (s.withReads (s.reads + 3)).raiseSync .format s.pc := by
  have hx : ∀ (n : Nat) (a : Word), (s.withReads n).xlateS a = s.xlateS a := fun n a => rfl
  have hok : ∀ (n : Nat) (a : Word) (k : Nat) (dir : Dir), (s.withReads n).memAccessOk a k dir = s.memAccessOk a k dir :=
    fun n a k dir => rfl
  have hr : ∀ (n : Nat) (a : Word) (k : Nat), s.memAccessOk a k .read = true →
      (s.withReads n).memRead a k = some (joinDigits 8 ((s.withReads n).loadBytes a k), s.withReads (n + 1)) := by
    intro n a k h
    rw [State.memRead, if_pos (by rw [hok]; exact h)]
    rfl
  rw [State.returnFrom]
  cases h1 : s.memAccessOk (s.xlateS s.a[7]) 2 .read with
  | false => rw [memRead_eq_none.mpr h1]; rfl
  | true =>
    have e1 := hr s.reads _ _ h1
    rw [show s.withReads s.reads = s from rfl] at e1
    rw [e1]
    simp only [hx]
    cases h2 : s.memAccessOk (s.xlateS (s.a[7] + 2)) 4 .read with
    | false => rw [memRead_eq_none.mpr (by rw [hok]; exact h2)]; rfl
    | true =>
      rw [hr _ _ _ h2]
      simp only [hx]
      cases h3 : s.memAccessOk (s.xlateS (s.a[7] + 6)) 2 .read with
      | false => rw [memRead_eq_none.mpr (by rw [hok]; exact h3)]; rfl
      | true =>
        rw [hr _ _ _ h3]
        simp only [Config.rteFormats, List.mem_singleton]
        rfl

/-- Return raises ACCESS or FORMAT on a state that differs in the count of reads, or pops the frame. -/
theorem returnFrom_cases (s : State) :
    (∃ n k, (k = .access ∨ k = .format) ∧ s.returnFrom = (s.withReads n).raiseSync k s.pc) ∨
    (s.memAccessOk (s.xlateS s.a[7]) 2 .read = true ∧ s.memAccessOk (s.xlateS (s.a[7] + 2)) 4 .read = true ∧
      s.memAccessOk (s.xlateS (s.a[7] + 6)) 2 .read = true ∧
      s.returnFrom = (s.withReads (s.reads + 3)).popFrame (s.halfAt s.reads (s.xlateS s.a[7]))
        (s.wordAt (s.reads + 1) (s.xlateS (s.a[7] + 2)))) := by
  rw [returnFrom_eq]
  split
  · exact .inl ⟨s.reads, .access, .inl rfl, rfl⟩
  · split
    · exact .inl ⟨_, .access, .inl rfl, rfl⟩
    · split
      · exact .inl ⟨_, .access, .inl rfl, rfl⟩
      · split
        · next h1 h2 h3 _ => exact .inr ⟨by simpa using h1, by simpa using h2, by simpa using h3, rfl⟩
        · exact .inl ⟨_, .format, .inr rfl, rfl⟩

/-- What a pop leaves alone. -/
theorem popFrame_unchanged (s : State) (sr : Half) (pc : Word) :
    Unchanged [.a, .pc, .srHi, .record, .spSlots, .currentSp, .reply] s (s.popFrame sr pc) := by
  intro p hp
  cases p <;> first | rfl | exact ⟨rfl, rfl⟩ | exact fun _ => rfl | exact absurd (by simp) hp

end Sys2Proof.Machine
end

