-- ==== Sys2Proof/Laws/Entry.lean ====
section
/-! SUPPORT. The state after exception entry and after a pop of the frame: the frame in memory, the stack pointers, the
status, the handler. -/

namespace Sys2Proof.Machine

variable {s t : State} {c : Cause} {v : Byte} {r : Word} {m : BitVec 3}

/-! ## The fields of the state after entry -/

theorem afterEntry_mem : (s.afterEntry c v r m).mem = s.frame3 c v r := by
  rw [State.afterEntry, atHandler_mem, withA7_mem, withMem_mem]

theorem afterEntry_regions : (s.afterEntry c v r m).regions = s.regions := by
  rw [State.afterEntry, atHandler_regions, withA7_regions, withMem_regions]
  exact setSr_regions s _

theorem afterEntry_cfg : (s.afterEntry c v r m).cfg = s.cfg := by
  rw [State.afterEntry, atHandler_cfg, withA7_cfg, withMem_cfg]
  exact setSr_cfg s _

theorem afterEntry_a : (s.afterEntry c v r m).a = (s.entered m).a.set 7 (s.entrySp - 8) := by
  rw [State.afterEntry, atHandler_a, withA7_a, withMem_a]

theorem afterEntry_a7 : (s.afterEntry c v r m).a[7] = s.entrySp - 8 := by
  simp only [afterEntry_a]
  exact Vector.getElem_set_self _

theorem afterEntry_currentSp : (s.afterEntry c v r m).currentSp = s.entrySlot := by
  rw [State.afterEntry, atHandler_currentSp, withA7_currentSp, withMem_currentSp]
  exact entered_currentSp s m

theorem afterEntry_pc :
    (s.afterEntry c v r m).pc = (s.withMem (s.frame3 c v r)).wordAt s.reads (s.handlerAt v) := by
  rw [State.afterEntry, atHandler_pc]

/-- The bytes memory holds after entry do not depend on the rest of the state. -/
theorem afterEntry_wordAt (n : Nat) (a : Word) :
    (s.afterEntry c v r m).wordAt n a = (s.withMem (s.frame3 c v r)).wordAt n a :=
  wordAt_congr (afterEntry_regions.trans (withMem_regions _ _).symm) afterEntry_mem n a

theorem afterEntry_halfAt (n : Nat) (a : Word) :
    (s.afterEntry c v r m).halfAt n a = (s.withMem (s.frame3 c v r)).halfAt n a :=
  halfAt_congr (afterEntry_regions.trans (withMem_regions _ _).symm) afterEntry_mem n a

theorem afterEntry_unchanged :
    Unchanged [.a, .pc, .srHi, .record, .spSlots, .currentSp, .mem, .reply, .reads] s (s.afterEntry c v r m) :=
  ((((setSr_unchanged s (entryStatus s.readSr m)).mono (by simp)).trans ((withMem_unchanged _ _).mono (by simp))).trans
    ((withA7_unchanged _ _).mono (by simp))).trans ((atHandler_unchanged _ _ _ _).mono (by simp))

/-! ## The stack pointers -/

theorem entered_a_other {n : Fin 8} (h : n ≠ 7) : (s.entered m).a[n] = s.a[n] := by
  change (s.setSr _).a[n.val] = s.a[n.val]
  exact setSr_a_other (s := s) (entryStatus s.readSr m) n.isLt fun e => h (Fin.ext e)

/-- The stack after entry's write of the status register. -/
theorem enteredStack_kept : EnteredStack s (s.entered m) 0 := by
  refine ⟨entered_currentSp s m, ?_, fun k _ => getSpSlot_setSr (s := s) _ k, fun _ hn => entered_a_other hn⟩
  rw [entered_a7, show (0 : Word) = 0#32 from rfl, BitVec.sub_zero]

/-- The stack once the stack pointer is written. -/
theorem enteredStack_pushed : EnteredStack s ((s.entered m).withA7 (s.entrySp - 8)) 8 := by
  refine ⟨entered_currentSp s m, ?_, fun k hk => ?_, fun n hn => ?_⟩
  · simp only [withA7_a, Vector.getElem_set_self]
  · rw [withA7_getSpSlot_other (by rw [entered_currentSp]; exact hk)]
    exact getSpSlot_setSr (s := s) _ k
  · rw [withA7_a, set7_other _ _ hn]
    exact entered_a_other hn

/-- What the stack clauses depend on. -/
theorem EnteredStack.congr {u : State} {w : Word} (h : EnteredStack s t w) (ha : u.a = t.a) (hs : u.spSlots = t.spSlots)
    (hc : u.currentSp = t.currentSp) : EnteredStack s u w := by
  have hg : ∀ k, u.getSpSlot k = t.getSpSlot k := fun k => by rw [State.getSpSlot, State.getSpSlot, hc, hs]; simp only [ha]
  exact ⟨hc.trans h.live, by simp only [ha]; exact h.pointer, fun k hk => (hg k).trans (h.slots k hk),
    fun n hn => by simp only [ha]; exact h.others n hn⟩

theorem afterEntry_stack : EnteredStack s (s.afterEntry c v r m) 8 :=
  enteredStack_pushed.congr rfl rfl rfl

theorem afterEntry_status : EnteredStatus s (s.afterEntry c v r m) m := (enteredStatus s m).congr rfl rfl rfl

/-! ## The whole of entry -/

/-- Entry when every access succeeds, clause by clause (60_exceptions.md rules R285 to R289). -/
theorem entered_of_entryOk (h : s.EntryOk v) : Entered s (s.enter c v r m) v m := by
  rw [enter_ok h]
  exact
    { status := afterEntry_status
      stack := afterEntry_stack
      handler := afterEntry_pc.trans (afterEntry_wordAt _ _).symm
      outcome := rfl
      memory := fun b h1 h2 h3 => by
        rw [afterEntry_mem, read_frame3_other h3, read_frame2_other h2, read_frame1_other h1]
      rest := afterEntry_unchanged }

/-! ## The frame in memory (60_exceptions.md rule R288) -/

theorem frameWord_eq (c : Cause) (v : Byte) : frameWord c v = BitVec.ofNat 16 (4 * v.toNat) := by
  unfold frameWord frameFormat; revert v; decide

/-- A store of the digits of a value, byte by byte. -/
theorem read_stored {a : Word} {n w : Nat} (hm : Memory.wf s.mem = true) (hn : n ≤ 2 ^ 32)
    (hw : ∀ i < n, s.Writable (a + BitVec.ofNat 32 i)) :
    ∀ i < n, Memory.read (s.storeBytes a (splitDigits 8 n w)).mem (a + BitVec.ofNat 32 i).toNat =
      BitVec.ofNat 8 (w >>> (8 * (n - 1 - i))) := by
  intro i hi
  rw [read_storeBytes s a _ hm (by simpa using hn) (by simpa using hi) (writable_isSome (hw i hi)).2, getElem_splitDigits]

theorem within_offset {a : Word} {n i : Nat} (hn : n ≤ 2 ^ 32) (h : i < n) : Within (a + BitVec.ofNat 32 i) a n := by
  unfold Within; bv_omega

/-- A read of bytes that hold the digits of a value. -/
theorem joinDigits_loadBytes {a : Word} {n w : Nat} (hw : ∀ i < n, s.Writable (a + BitVec.ofNat 32 i))
    (hr : t.regions = s.regions)
    (h : ∀ i < n, Memory.read t.mem (a + BitVec.ofNat 32 i).toNat = BitVec.ofNat 8 (w >>> (8 * (n - 1 - i)))) :
    joinDigits 8 (t.loadBytes a n) = w % 2 ^ (8 * n) := by
  rw [loadBytes_eq (vs := splitDigits 8 n w) (by simp), joinDigits_splitDigits]
  · intro i hi
    rw [regionAt_congr hr]
    exact (writable_isSome (hw i hi)).1
  · intro i hi
    rw [getElem_splitDigits]
    exact h i (by simpa using hi)

theorem halfAt_eq {a : Word} {n : Nat} {w : Half} (hw : ∀ i < 2, s.Writable (a + BitVec.ofNat 32 i))
    (hr : t.regions = s.regions)
    (h : ∀ i < 2, Memory.read t.mem (a + BitVec.ofNat 32 i).toNat = BitVec.ofNat 8 (w.toNat >>> (8 * (2 - 1 - i)))) :
    t.halfAt n a = w := by
  rw [State.halfAt, joinDigits_loadBytes (t := { t with reads := n }) hw hr h]
  apply BitVec.eq_of_toNat_eq
  rw [BitVec.toNat_ofNat]
  have := w.isLt
  omega

theorem wordAt_eq {a : Word} {n : Nat} {w : Word} (hw : ∀ i < 4, s.Writable (a + BitVec.ofNat 32 i))
    (hr : t.regions = s.regions)
    (h : ∀ i < 4, Memory.read t.mem (a + BitVec.ofNat 32 i).toNat = BitVec.ofNat 8 (w.toNat >>> (8 * (4 - 1 - i)))) :
    t.wordAt n a = w := by
  rw [State.wordAt, joinDigits_loadBytes (t := { t with reads := n }) hw hr h]
  apply BitVec.eq_of_toNat_eq
  rw [BitVec.toNat_ofNat]
  have := w.isLt
  omega

theorem read_frame1 (hm : Memory.wf s.mem = true)
    (hw : ∀ i < 2, s.Writable (s.xlateS (s.entrySp - 2) + BitVec.ofNat 32 i)) :
    ∀ i < 2, Memory.read (s.frame1 c v) (s.xlateS (s.entrySp - 2) + BitVec.ofNat 32 i).toNat =
      BitVec.ofNat 8 ((frameWord c v).toNat >>> (8 * (2 - 1 - i))) := read_stored hm (by omega) hw

theorem read_frame2 (hm : Memory.wf s.mem = true)
    (hw : ∀ i < 4, s.Writable (s.xlateS (s.entrySp - 6) + BitVec.ofNat 32 i)) :
    ∀ i < 4, Memory.read (s.frame2 c v r) (s.xlateS (s.entrySp - 6) + BitVec.ofNat 32 i).toNat =
      BitVec.ofNat 8 (r.toNat >>> (8 * (4 - 1 - i))) :=
  read_stored (s := s.withMem (s.frame1 c v)) ((frame1_kept s c v).wf hm) (by omega) hw

theorem read_frame3 (hm : Memory.wf s.mem = true)
    (hw : ∀ i < 2, s.Writable (s.xlateS (s.entrySp - 8) + BitVec.ofNat 32 i)) :
    ∀ i < 2, Memory.read (s.frame3 c v r) (s.xlateS (s.entrySp - 8) + BitVec.ofNat 32 i).toNat =
      BitVec.ofNat 8 (s.readSr.toNat >>> (8 * (2 - 1 - i))) :=
  read_stored (s := s.withMem (s.frame2 c v r)) ((frame2_kept s c v r).wf hm) (by omega) hw

/-- The three items of a frame that fits, as they are read back. -/
theorem frame_items (hm : Memory.wf s.mem = true) (hf : s.FrameFits) (hr : t.regions = s.regions)
    (hM : t.mem = s.frame3 c v r) (n : Nat) :
    t.halfAt n (s.xlateS (s.entrySp - 8)) = s.readSr ∧ t.wordAt n (s.xlateS (s.entrySp - 6)) = r ∧
      t.halfAt n (s.xlateS (s.entrySp - 2)) = BitVec.ofNat 16 (4 * v.toNat) := by
  refine ⟨halfAt_eq hf.status hr ?_, wordAt_eq hf.pc hr ?_, ?_⟩
  · rw [hM]
    exact read_frame3 hm hf.status
  · intro i hi
    rw [hM, read_frame3_other ((hf.apart _).2.2 (within_offset (by omega) hi))]
    exact read_frame2 hm hf.pc i hi
  · rw [← frameWord_eq c v]
    refine halfAt_eq hf.format hr fun i hi => ?_
    rw [hM, read_frame3_other ((hf.apart _).2.1 (within_offset (by omega) hi)),
      read_frame2_other ((hf.apart _).1 (within_offset (by omega) hi))]
    exact read_frame1 hm hf.format i hi

/-! ## The pop of a frame (60_exceptions.md rule R297) -/

section Pop

variable {sr : Half} {pc : Word}

theorem popFrame_readSr : (s.popFrame sr pc).readSr = sr &&& 0xFF1F := readSr_setSr (s := s.withA7 (s.a[7] + 8)) sr

theorem popFrame_currentSp : (s.popFrame sr pc).currentSp = s.sel sr := setSr_currentSp (s := s.withA7 (s.a[7] + 8)) sr

theorem popFrame_getSpSlot (k : SpSlot) : (s.popFrame sr pc).getSpSlot k = (s.withA7 (s.a[7] + 8)).getSpSlot k :=
  getSpSlot_setSr (s := s.withA7 (s.a[7] + 8)) sr k

/-- The stack that was live is popped. -/
theorem popFrame_popped : (s.popFrame sr pc).getSpSlot s.currentSp = s.a[7] + 8 := by
  rw [popFrame_getSpSlot]
  refine (getSpSlot_live (s := s.withA7 (s.a[7] + 8))).trans ?_
  simp only [withA7_a, Vector.getElem_set_self]

/-- No other stack is. -/
theorem popFrame_getSpSlot_other {k : SpSlot} (h : k ≠ s.currentSp) : (s.popFrame sr pc).getSpSlot k = s.getSpSlot k := by
  rw [popFrame_getSpSlot, withA7_getSpSlot_other h]

theorem popFrame_a_other {n : Fin 8} (h : n ≠ 7) : (s.popFrame sr pc).a[n] = s.a[n] := by
  refine (setSr_a_other (s := s.withA7 (s.a[7] + 8)) sr n.isLt fun e => h (Fin.ext e)).trans ?_
  exact set7_other _ _ h

end Pop

end Sys2Proof.Machine
end

