-- ==== Sys2Proof/Laws/ColdStart.lean ====
section
/-! SUPPORT. Cold start (70_reset_and_hazards.md rule R331): what it can do, said once, with the exact state it leaves. -/

namespace Sys2Proof.Machine

variable {s u : State}

/-- The state after cold start's writes of VBR and the status register. -/
def State.seeded (s : State) : State := { s with halted := false, vbr := 0 }.setSr s.cfg.initialSr

/-- Cold start's end at a read that fails. -/
def State.coldHalt (u : State) : State := { u with bootState := .running }.halt

/-- Cold start's end after its last read. -/
def State.coldDone (u : State) (n : Nat) (pc : Word) : State :=
  { u with reads := n, pc := pc, bootState := .running, reply := .done [] }

theorem loadResetPc_eq (u : State) :
    u.loadResetPc =
      if u.memAccessOk 4 4 .read = false then u.coldHalt else u.coldDone (u.reads + 1) (u.wordAt u.reads 4) := by
  rw [State.loadResetPc]
  change (match u.memRead 4 4 with
    | none => u.coldHalt
    | some (pc, u) => { u with pc := BitVec.ofNat 32 pc, bootState := .running, reply := .done [] }) = _
  cases h : u.memAccessOk 4 4 .read with
  | false => rw [memRead_eq_none.mpr h]; rfl
  | true => rw [State.memRead, if_pos h]; rfl

/-- Cold start, read by read. -/
theorem coldStart_eq (s : State) :
    s.coldStart =
      if s.cfg.resetLoadsSsp = true then
        if s.memAccessOk 0 4 .read = false then s.seeded.coldHalt
        else ((s.seeded.withReads (s.reads + 1)).withA7 (s.wordAt s.reads 0)).loadResetPc
      else s.seeded.loadResetPc := by
  have hok : s.seeded.memAccessOk 0 4 .read = s.memAccessOk 0 4 .read := memAccessOk_congr rfl rfl _ _ _
  rw [State.coldStart]
  change (if s.cfg.resetLoadsSsp = true then
    match s.seeded.memRead 0 4 with
    | none => s.seeded.coldHalt
    | some (ssp, u) => { u with a := u.a.set 7 (BitVec.ofNat 32 ssp) }.loadResetPc
    else s.seeded.loadResetPc) = _
  split
  · cases h : s.memAccessOk 0 4 .read with
    | false => rw [memRead_eq_none.mpr (hok.trans h)]; rfl
    | true => rw [State.memRead, if_pos (hok.trans h)]; rfl
  · rfl

/-! ## The seeds -/

/-- What cold start has done before its last read: the seeds, and possibly the stack pointer. -/
structure Seeds (s u : State) : Prop where
  vbr : u.vbr = 0
  status : u.readSr = s.cfg.initialSr &&& 0xFF1F
  known : u.ccOp = .flags
  live : u.currentSp = s.sel s.cfg.initialSr
  slots : ∀ k : SpSlot, k ≠ s.sel s.cfg.initialSr → u.getSpSlot k = s.getSpSlot k
  others : ∀ n : Fin 8, n ≠ 7 → u.a[n] = s.a[n]
  rest : Unchanged [.a, .srHi, .record, .spSlots, .currentSp, .vbr, .halted, .reads] s u
  running : u.halted = false
  spLive : u.SpLive

/-- The state with VBR cleared and no halt, before the status register is written. -/
abbrev State.unseeded (s : State) : State := { s with halted := false, vbr := 0 }

theorem seeded_seeds (s : State) : Seeds s s.seeded where
  vbr := rfl
  status := readSr_setSr (s := s.unseeded) s.cfg.initialSr
  known := rfl
  live := setSr_currentSp (s := s.unseeded) s.cfg.initialSr
  slots := fun k _ => getSpSlot_setSr (s := s.unseeded) s.cfg.initialSr k
  others := fun n hn => setSr_a_other (s := s.unseeded) s.cfg.initialSr n.isLt fun e => hn (Fin.ext e)
  rest := by
    intro p hp
    cases p <;> first | rfl | exact ⟨rfl, rfl⟩ | exact fun _ => rfl | exact absurd (by simp) hp
  running := rfl
  spLive := rfl

theorem seeded_a7 (s : State) : s.seeded.a[7] = s.getSpSlot (s.sel s.cfg.initialSr) :=
  setSr_a7 (s := s.unseeded) s.cfg.initialSr

theorem Seeds.withReads (h : Seeds s u) (n : Nat) : Seeds s (u.withReads n) where
  vbr := h.vbr
  status := h.status
  known := h.known
  live := h.live
  slots := h.slots
  others := h.others
  rest := by
    intro p hp
    cases p <;> first | exact h.rest _ hp | exact absurd (by simp) hp
  running := h.running
  spLive := h.spLive

theorem Seeds.withA7 (h : Seeds s u) (w : Word) : Seeds s (u.withA7 w) where
  vbr := h.vbr
  status := h.status
  known := h.known
  live := h.live
  slots := fun k hk => (withA7_getSpSlot_other (by rw [h.live]; exact hk)).trans (h.slots k hk)
  others := fun n hn => (set7_other _ _ hn).trans (h.others n hn)
  rest := h.rest.trans ((withA7_unchanged u w).mono (by simp))
  running := h.running
  spLive := h.spLive

/-! ## The whole of cold start -/

/-- What cold start changes at most. -/
abbrev coldParts : List Part :=
  [.a, .pc, .srHi, .record, .spSlots, .currentSp, .vbr, .halted, .bootState, .reply, .reads]

theorem coldHalt_unchanged (u : State) : Unchanged [.bootState, .halted, .reply] u u.coldHalt := by
  intro p hp
  cases p <;> first | rfl | exact ⟨rfl, rfl⟩ | exact ⟨rfl, rfl, rfl, rfl⟩ | exact fun _ => rfl | exact absurd (by simp) hp

theorem coldDone_unchanged (u : State) (n : Nat) (pc : Word) :
    Unchanged [.pc, .bootState, .reply, .reads] u (u.coldDone n pc) := by
  intro p hp
  cases p <;> first | rfl | exact ⟨rfl, rfl⟩ | exact ⟨rfl, rfl, rfl, rfl⟩ | exact fun _ => rfl | exact absurd (by simp) hp

theorem coldDone_mem (u : State) (n : Nat) (pc : Word) : (u.coldDone n pc).mem = u.mem := rfl

theorem coldHalt_spLive (h : u.SpLive) : u.coldHalt.SpLive := h

theorem coldDone_spLive (h : u.SpLive) (n : Nat) (pc : Word) : (u.coldDone n pc).SpLive := h

/-- The clauses of a cold start that ends in a halt. -/
theorem Seeds.coldHalt (h : Seeds s u)
    (hp : u.a[7] =
      if s.cfg.resetLoadsSsp && s.memAccessOk 0 4 .read then s.wordAt s.reads 0 else s.getSpSlot (s.sel s.cfg.initialSr))
    (hf : ¬ ((s.cfg.resetLoadsSsp = true → s.memAccessOk 0 4 .read = true) ∧ s.memAccessOk 4 4 .read = true)) :
    ColdStarted s u.coldHalt where
  running := rfl
  vbr := h.vbr
  status := h.status
  known := h.known
  live := h.live
  slots := h.slots
  others := h.others
  pointer := hp
  start := fun h1 h2 => absurd ⟨h1, h2⟩ hf
  failure := fun _ => ⟨rfl, rfl, h.rest .pc (by simp)⟩
  rest := (h.rest.mono (by simp)).trans ((coldHalt_unchanged u).mono (by simp))

/-- The clauses of a cold start that loads `PC`. -/
theorem Seeds.coldDone (h : Seeds s u)
    (hp : u.a[7] =
      if s.cfg.resetLoadsSsp && s.memAccessOk 0 4 .read then s.wordAt s.reads 0 else s.getSpSlot (s.sel s.cfg.initialSr))
    (hs : s.cfg.resetLoadsSsp = true → s.memAccessOk 0 4 .read = true) (hr : s.memAccessOk 4 4 .read = true) (n : Nat) {pc : Word}
    (hpc : pc = s.wordAt (if s.cfg.resetLoadsSsp then s.reads + 1 else s.reads) 4) : ColdStarted s (u.coldDone n pc) where
  running := rfl
  vbr := h.vbr
  status := h.status
  known := h.known
  live := h.live
  slots := h.slots
  others := h.others
  pointer := hp
  start := fun _ _ => ⟨rfl, h.running, hpc⟩
  failure := fun hf => by
    rcases hf with ⟨h1, h2⟩ | h2
    · exact absurd ((hs h1).symm.trans h2) (by decide)
    · exact absurd (hr.symm.trans h2) (by decide)
  rest := (h.rest.mono (by simp)).trans ((coldDone_unchanged u n pc).mono (by simp))

/-- Cold start, clause by clause. -/
theorem coldStarted (s : State) : ColdStarted s s.coldStart := by
  have hok : ∀ u : State, Seeds s u → u.memAccessOk 4 4 .read = s.memAccessOk 4 4 .read := fun u h =>
    memAccessOk_congr (h.rest .regions (by simp)) (h.rest .cfg (by simp)) _ _ _
  have hw : ∀ u : State, Seeds s u → ∀ n, u.wordAt n 4 = s.wordAt n 4 := fun u h n => by
    have hm : ∀ b : Word, Memory.read u.mem b.toNat = Memory.read s.mem b.toNat := h.rest .mem (by simp)
    have hr : u.regions = s.regions := h.rest .regions (by simp)
    have hb : ∀ a, ({ u with reads := n } : State).loadByte a = ({ s with reads := n } : State).loadByte a := fun a => by
      rw [State.loadByte, State.loadByte, regionAt_congr (s := { s with reads := n }) (t := { u with reads := n }) hr]
      exact if_congr Iff.rfl (hm a) rfl
    rw [State.wordAt, State.wordAt, State.loadBytes, State.loadBytes]
    simp only [hb]
  have hload : ∀ u : State, Seeds s u → u.reads = (if s.cfg.resetLoadsSsp then s.reads + 1 else s.reads) →
      (u.a[7] = if s.cfg.resetLoadsSsp && s.memAccessOk 0 4 .read then s.wordAt s.reads 0
        else s.getSpSlot (s.sel s.cfg.initialSr)) →
      (s.cfg.resetLoadsSsp = true → s.memAccessOk 0 4 .read = true) → ColdStarted s u.loadResetPc := by
    intro u h hn hp hs
    rw [loadResetPc_eq, hok u h, hw u h, hn]
    cases hr : s.memAccessOk 4 4 .read with
    | false => exact h.coldHalt hp fun hf => absurd (hr.symm.trans hf.2) (by decide)
    | true => exact h.coldDone hp hs hr _ rfl
  rw [coldStart_eq]
  cases h1 : s.cfg.resetLoadsSsp with
  | false =>
    rw [if_neg (by decide)]
    exact hload _ (seeded_seeds s) (by rw [h1]; rfl) (by rw [h1]; exact seeded_a7 s) (by rw [h1]; exact fun h => nomatch h)
  | true =>
    rw [if_pos rfl]
    cases h2 : s.memAccessOk 0 4 .read with
    | false =>
      rw [if_pos rfl]
      exact (seeded_seeds s).coldHalt (by rw [h1, h2]; exact seeded_a7 s) fun hf => absurd (h2.symm.trans (hf.1 h1)) (by decide)
    | true =>
      rw [if_neg (by decide)]
      exact hload _ (((seeded_seeds s).withReads _).withA7 _) (by rw [h1]; rfl)
        (by rw [h1, h2, withA7_a, Vector.getElem_set_self]; rfl) fun _ => h2

/-- After cold start the live slot is the one the status register selects. -/
theorem coldStart_live (s : State) : s.coldStart.SpLive := by
  have hload : ∀ u : State, u.SpLive → u.loadResetPc.SpLive := by
    intro u h
    rw [loadResetPc_eq]
    split
    · exact coldHalt_spLive h
    · exact coldDone_spLive h _ _
  rw [coldStart_eq]
  split
  · split
    · exact coldHalt_spLive (seeded_seeds s).spLive
    · exact hload _ (((seeded_seeds s).withReads _).withA7 _).spLive
  · exact hload _ (seeded_seeds s).spLive

/-- Cold start stores nothing. -/
theorem coldStart_mem (s : State) : s.coldStart.mem = s.mem := by
  have hload : ∀ u : State, u.loadResetPc.mem = u.mem := by
    intro u
    rw [loadResetPc_eq]
    split
    · rfl
    · exact coldDone_mem _ _ _
  rw [coldStart_eq]
  split
  · split
    · rfl
    · exact (hload _).trans (withA7_mem _ _)
  · exact hload _

/-- Cold start ends with no result, or with a halt. -/
theorem coldStart_reply (s : State) : s.coldStart.reply = .done [] ∨ s.coldStart.reply = .halted := by
  have c := coldStarted s
  by_cases h : (s.cfg.resetLoadsSsp = true ∧ s.memAccessOk 0 4 .read = false) ∨ s.memAccessOk 4 4 .read = false
  · exact .inr (c.failure h).1
  · simp only [not_or, not_and, Bool.not_eq_false] at h
    exact .inl (c.start h.1 h.2).1

/-- What cold start leaves alone. -/
theorem coldStart_unchanged (s : State) : Unchanged coldParts s s.coldStart := (coldStarted s).rest

end Sys2Proof.Machine
end

