-- ==== Sys2Proof/Laws/Commands.lean ====
section
/-! SUPPORT. When a command answers a next state, and which one: one lemma for each gate, and one for each command. -/

namespace Sys2Proof.Machine

variable {s t u : State}

/-! ## The gates -/

theorem stopped_eq_none : s.stopped = none ↔ s.Running := by
  unfold State.stopped State.Running
  cases s.fatal <;> cases s.halted <;> by_cases h : s.bootState = .running <;> simp [h]

theorem engine_eq_next {e : State} : s.engine e = .next t ↔ s.Running ∧ e = t := by
  rw [← stopped_eq_none]
  unfold State.engine
  cases s.stopped <;> simp

theorem engine_running {e : State} (h : s.Running) : s.engine e = .next e := engine_eq_next.mpr ⟨h, rfl⟩

theorem privileged_eq_next {e : State} :
    s.privileged e = .next t ↔
      s.Running ∧ ((s.supervisor = true ∧ e = t) ∨ (s.supervisor = false ∧ s.raiseSync .privilege s.pc = t)) := by
  rw [State.privileged, engine_eq_next]
  cases s.supervisor <;> simp

theorem privileged_supervisor {e : State} (h : s.Running) (hs : s.supervisor = true) : s.privileged e = .next e :=
  privileged_eq_next.mpr ⟨h, .inl ⟨hs, rfl⟩⟩

theorem privileged_user {e : State} (h : s.Running) (hs : s.supervisor = false) :
    s.privileged e = .next (s.raiseSync .privilege s.pc) := privileged_eq_next.mpr ⟨h, .inr ⟨hs, rfl⟩⟩

theorem boot_eq_next {accepted : Bool} {r : Refusal} {e : Host.Outcome State Fault Refusal} :
    s.boot accepted r e = .next t ↔ s.fatal = none ∧ accepted = true ∧ e = .next t := by
  unfold State.boot
  cases s.fatal <;> cases accepted <;> simp

/-- What an access to a numbered register answers. -/
theorem withRegister_cases {R : Type} {reg : Option R} {present : R → Bool} {effect : R → State}
    (h : s.withRegister reg present effect = t) :
    (reg = none ∧ t = s.raiseSync .illegal s.pc) ∨
    (∃ r, reg = some r ∧ present r = false ∧ t = s.raiseSync .unsupported s.pc) ∨
    (∃ r, reg = some r ∧ present r = true ∧ t = effect r) := by
  cases reg with
  | none => exact .inl ⟨rfl, h.symm⟩
  | some r =>
    cases hp : present r with
    | false => exact .inr (.inl ⟨r, rfl, hp, by rw [← h]; simp [State.withRegister, hp]⟩)
    | true => exact .inr (.inr ⟨r, rfl, hp, by rw [← h]; simp [State.withRegister, hp]⟩)

theorem withRegister_present {R : Type} {reg : Option R} {present : R → Bool} {effect : R → State} {r : R} (h : reg = some r)
    (hp : present r = true) : s.withRegister reg present effect = effect r := by simp [State.withRegister, h, hp]

theorem withRegister_absent {R : Type} {reg : Option R} {present : R → Bool} {effect : R → State} {r : R} (h : reg = some r)
    (hp : present r = false) : s.withRegister reg present effect = s.raiseSync .unsupported s.pc := by
  simp [State.withRegister, h, hp]

theorem withRegister_none {R : Type} {reg : Option R} {present : R → Bool} {effect : R → State} (h : reg = none) :
    s.withRegister reg present effect = s.raiseSync .illegal s.pc := by simp [State.withRegister, h]

/-! ## The register file -/

theorem rdD_next {n : Fin 8} : exec (.rdD n) s = .next t ↔ s.Running ∧ s.done [s.d[n]] = t := engine_eq_next

theorem wrD_next {n : Fin 8} {v : Word} :
    exec (.wrD n v) s = .next t ↔ s.Running ∧ { s with d := s.d.set n v }.done [] = t := engine_eq_next

theorem rdA_next {n : Fin 8} : exec (.rdA n) s = .next t ↔ s.Running ∧ s.done [s.a[n]] = t := engine_eq_next

theorem wrA_next {n : Fin 8} {v : Word} :
    exec (.wrA n v) s = .next t ↔ s.Running ∧ { s with a := s.a.set n v }.done [] = t := engine_eq_next

theorem rdPc_next : exec .rdPc s = .next t ↔ s.Running ∧ s.done [s.pc] = t := engine_eq_next

theorem wrPc_next {v : Word} : exec (.wrPc v) s = .next t ↔ s.Running ∧ { s with pc := v }.done [] = t := engine_eq_next

theorem rdSr_next : exec .rdSr s = .next t ↔ s.Running ∧ s.done [s.readSr.setWidth 32] = t := engine_eq_next

theorem wrSr_next {v : Word} : exec (.wrSr v) s = .next t ↔ s.Running ∧
    ((s.supervisor = true ∧ (s.setSr (v.extractLsb' 0 16)).done [] = t) ∨
      (s.supervisor = false ∧ s.raiseSync .privilege s.pc = t)) := privileged_eq_next

theorem rdCcr_next : exec .rdCcr s = .next t ↔ s.Running ∧ s.done [s.flags.setWidth 32] = t := engine_eq_next

theorem wrCcr_next {v : Word} :
    exec (.wrCcr v) s = .next t ↔ s.Running ∧ (s.setCcr (v.extractLsb' 0 8)).done [] = t := engine_eq_next

theorem rdSp_next {k : SpSlot} : exec (.rdSp k) s = .next t ↔ s.Running ∧
    ((s.supervisor = true ∧ s.done [s.getSpSlot k] = t) ∨ (s.supervisor = false ∧ s.raiseSync .privilege s.pc = t)) :=
  privileged_eq_next

theorem wrSp_next {k : SpSlot} {v : Word} : exec (.wrSp k v) s = .next t ↔ s.Running ∧
    ((s.supervisor = true ∧ (s.setSpSlot k v).done [] = t) ∨ (s.supervisor = false ∧ s.raiseSync .privilege s.pc = t)) :=
  privileged_eq_next

theorem rdFp_next {n : Fin 8} : exec (.rdFp n) s = .next t ↔ s.Running ∧
    (if s.has .fpu then s.done (s.fpResult n) else s.raiseSync .unsupported s.pc) = t := engine_eq_next

theorem wrFp_next {n : Fin 8} {v : Nat} : exec (.wrFp n v) s = .next t ↔ s.Running ∧
    (if s.has .fpu then (s.setFp n v).done [] else s.raiseSync .unsupported s.pc) = t := engine_eq_next

theorem rdUr_next {urid : Half} : exec (.rdUr urid) s = .next t ↔ s.Running ∧
    (s.withRegister (unitRegOf urid) s.unitPresent fun r => s.done (s.readUnit r)) = t := engine_eq_next

theorem wrUr_next {urid : Half} {v : Acc} : exec (.wrUr urid v) s = .next t ↔ s.Running ∧
    (s.withRegister (unitRegOf urid) s.unitPresent fun r => (s.writeUnit r v).done []) = t := engine_eq_next

/-! ## Condition codes, control registers -/

theorem ccSet_next {kind : CcKind} {x : Bool} {dest src : Word} :
    exec (.ccSet kind x dest src) s = .next t ↔ s.Running ∧ (s.setRecord kind x dest src).done [] = t := engine_eq_next

theorem ccFlags_next : exec .ccFlags s = .next t ↔ s.Running ∧ s.done [s.flags.setWidth 32] = t := engine_eq_next

theorem ctx_next : exec .ctx s = .next t ↔ s.Running ∧ s.done [activeContext s.readSr] = t := engine_eq_next

theorem rdCr_next {crid : Half} : exec (.rdCr crid) s = .next t ↔ s.Running ∧
    ((s.supervisor = true ∧ (s.withRegister (ctrlRegOf crid) s.ctrlPresent fun r => s.done [s.readCtrl r]) = t) ∨
      (s.supervisor = false ∧ s.raiseSync .privilege s.pc = t)) := privileged_eq_next

theorem wrCr_next {crid : Half} {v : Word} : exec (.wrCr crid v) s = .next t ↔ s.Running ∧
    ((s.supervisor = true ∧ (s.withRegister (ctrlRegOf crid) s.ctrlPresent fun r => (s.writeCtrl r v).done []) = t) ∨
      (s.supervisor = false ∧ s.raiseSync .privilege s.pc = t)) := privileged_eq_next

/-! ## Exceptions and interrupts -/

theorem intPend_next {level : BitVec 3} {vector : Byte} : exec (.intPend level vector) s = .next t ↔
    s.fatal = none ∧ { s with pendingLevel := level, pendingVector := vector }.done [] = t := by
  change execIntPend level vector s = _ ↔ _
  unfold execIntPend
  cases s.fatal <;> simp

theorem intCheck_next : exec .intCheck s = .next t ↔ s.Running ∧
    (if s.mask < s.pendingLevel then s.enter .interrupt s.pendingVector s.pc s.pendingLevel else s.done []) = t :=
  engine_eq_next

theorem raise_next {kind : Kind} {retpc : Word} : exec (.raise kind retpc) s = .next t ↔ s.Running ∧
    (if kind = .reset then s.coldStart else s.raiseSync kind retpc) = t := engine_eq_next

theorem rte_next : exec .rte s = .next t ↔ s.Running ∧
    ((s.supervisor = true ∧ s.returnFrom = t) ∨ (s.supervisor = false ∧ s.raiseSync .privilege s.pc = t)) :=
  privileged_eq_next

/-! ## The boot commands -/

theorem mapRam_next {size : Word} : exec (.mapRam size) s = .next t ↔
    s.fatal = none ∧ s.bootState = .idle ∧ s.halted = false ∧
      (if s.cfg.hostAlloc.any fun sp => inSpan sp size.toNat then
        { s with
          regions := { kind := .ram, base := 0, size := size.toNat, readOnly := false } :: s.regions
          ramSize := size
          bootState := .ramMapped }.done []
      else s.die (.ramAllocation size)) = t := by
  change execMapRam size s = _ ↔ _
  rw [execMapRam, boot_eq_next, beq_iff_eq]
  cases s.halted <;> by_cases h : (s.cfg.hostAlloc.any fun sp => inSpan sp size.toNat) = true <;> simp [h]

theorem bootKernel_next : exec .bootKernel s = .next t ↔
    s.fatal = none ∧ s.bootState = .ramMapped ∧ s.halted = false ∧ ∃ path, s.cfg.kernelPath = some path ∧
      (match s.cfg.loader.executables.lookup path with
        | none => s.die (.kernelLoad path)
        | some image => bootEnd ({ s with bootState := .kernelBootPrepared }.prepareKernel image)) = t := by
  change execBootKernel s = _ ↔ _
  rw [execBootKernel, boot_eq_next, beq_iff_eq]
  cases s.cfg.kernelPath with
  | none => simp
  | some path =>
    by_cases hh : s.halted = true
    · simp [hh]
    · simp only [Option.some.injEq, exists_eq_left']
      rw [if_neg hh]
      cases s.cfg.loader.executables.lookup path <;> simp [hh]

theorem bootRom_next : exec .bootRom s = .next t ↔
    s.fatal = none ∧ s.bootState = .ramMapped ∧ s.cfg.kernelPath = none ∧ s.halted = false ∧
      (match s.mapRom.loadRawImage s.cfg.romPath s.cfg.romBase s.cfg.romSize with
        | none => s.mapRom.die (.romLoad s.cfg.romPath)
        | some u => { u.protectRom with bootState := .ready }.done []) = t := by
  change execBootRom s = _ ↔ _
  rw [execBootRom, boot_eq_next, beq_iff_eq]
  cases s.cfg.kernelPath with
  | some path => simp
  | none =>
    by_cases hh : s.halted = true
    · simp [hh]
    · dsimp only
      rw [if_neg hh]
      cases s.mapRom.loadRawImage s.cfg.romPath s.cfg.romBase s.cfg.romSize <;> simp [hh]

theorem coldStart_next : exec .coldStart s = .next t ↔
    s.fatal = none ∧ (s.bootState = .ready ∨ (s.bootState = .running ∧ s.halted = true)) ∧ s.coldStart = t := by
  change execColdStart s = _ ↔ _
  rw [execColdStart, boot_eq_next]
  simp

end Sys2Proof.Machine
end

