-- ==== Sys2Proof/Laws/Decode.lean ====
section
/-! SUPPORT. The fields of a command word and the codes of the closed sets are read back as they were written, and the
small decoders answer exactly on what they accept. -/

namespace Sys2Proof

@[simp] theorem opField_commandWord (op a : Byte) (b : Half) : opField (commandWord op a b) = op := by
  apply BitVec.eq_of_getLsbD_eq
  intro i hi
  simp only [opField, commandWord, BitVec.getLsbD_extractLsb', BitVec.getLsbD_append]
  rw [if_neg (by omega), if_neg (by omega), show 24 + i - 16 - 8 = i by omega]
  simp [hi]

@[simp] theorem aField_commandWord (op a : Byte) (b : Half) : aField (commandWord op a b) = a := by
  apply BitVec.eq_of_getLsbD_eq
  intro i hi
  simp only [aField, commandWord, BitVec.getLsbD_extractLsb', BitVec.getLsbD_append]
  rw [if_neg (by omega), if_pos (by omega), show 16 + i - 16 = i by omega]
  simp [hi]

@[simp] theorem bField_commandWord (op a : Byte) (b : Half) : bField (commandWord op a b) = b := by
  apply BitVec.eq_of_getLsbD_eq
  intro i hi
  simp only [bField, commandWord, BitVec.getLsbD_extractLsb', BitVec.getLsbD_append]
  simp [hi]

/-- What it takes for two computations in sequence to succeed. -/
theorem bind_eq_ok {e α β : Type} {x : Except e α} {f : α → Except e β} {b : β} :
    (x >>= f) = .ok b ↔ ∃ a, x = .ok a ∧ f a = .ok b := by
  cases x <;> simp [bind, Except.bind]

/-- A command word is the word of its fields. -/
theorem commandWord_fields (w : Word) : commandWord (opField w) (aField w) (bField w) = w := by
  apply BitVec.eq_of_getLsbD_eq
  intro i hi
  simp only [opField, aField, bField, commandWord, BitVec.getLsbD_extractLsb', BitVec.getLsbD_append]
  by_cases h1 : i < 16
  · simp [h1]
  · by_cases h2 : i - 16 < 8
    · simp [h1, h2]; rw [show 16 + (i - 16) = i by omega]
    · have h3 : i - 16 - 8 < 8 := by omega
      simp [h1, h2, h3]; rw [show 24 + (i - 16 - 8) = i by omega]

@[simp] theorem ccKind_ofCode_code (k : CcKind) : CcKind.ofCode k.code = some k := by
  cases k <;> first | rfl | (rename_i w; cases w <;> rfl)

theorem ccKind_code_lt (k : CcKind) : k.code < 19 := by
  cases k <;> first | decide | (rename_i w; cases w <;> decide)

theorem ccKind_code_of_ofCode {c : Nat} {k : CcKind} (h : CcKind.ofCode c = some k) : k.code = c := by
  unfold CcKind.ofCode at h
  split at h <;> first | (cases h; rfl) | cases h

/-- The reserved condition-code kinds (41_condition_codes.md rule R167). -/
theorem ccKind_ofCode_reserved {c : Nat} (h : 19 ≤ c) : CcKind.ofCode c = none := by
  cases hk : CcKind.ofCode c with
  | none => rfl
  | some k => have := ccKind_code_lt k; have := ccKind_code_of_ofCode hk; omega

theorem kind_code_lt (k : Kind) : k.code < 62 := by
  cases k <;> first | decide | (rename_i n; have := n.isLt; simp only [Kind.code]; omega)

@[simp] theorem kind_ofCode_code (k : Kind) : Kind.ofCode k.code = some k := by
  cases k <;> first | rfl | (rename_i n; revert n; decide)

theorem kind_code_of_ofCode {c : Nat} {k : Kind} (h : Kind.ofCode c = some k) : k.code = c := by
  unfold Kind.ofCode at h
  split at h <;> first | (cases h; rfl) | skip
  split at h
  · split at h
    · cases h; simp only [Kind.code]; omega
    · cases h
  · cases h

@[simp] theorem spSlot_ofCode_code (k : SpSlot) : SpSlot.ofCode k.code = some k := by cases k <;> rfl

theorem spSlot_code_lt (k : SpSlot) : k.code < 3 := by cases k <;> decide

theorem spSlot_code_of_ofCode {c : Nat} {k : SpSlot} (h : SpSlot.ofCode c = some k) : k.code = c := by
  unfold SpSlot.ofCode at h
  split at h <;> first | (cases h; rfl) | cases h

@[simp] theorem regIndex_ofNat (n : Fin 8) : regIndex (BitVec.ofNat 8 n.val) = .ok n := by
  revert n; decide

theorem regIndex_eq_ok {a : Byte} {n : Fin 8} : regIndex a = .ok n ↔ BitVec.ofNat 8 n.val = a := by
  constructor
  · intro h
    unfold regIndex at h
    split at h
    · cases h; exact BitVec.ofNat_toNat .. |>.trans (by simp)
    · cases h
  · rintro rfl; exact regIndex_ofNat n

@[simp] theorem slotField_ofNat (k : SpSlot) : slotField (BitVec.ofNat 8 k.code) = .ok k := by cases k <;> rfl

theorem slotField_eq_ok {a : Byte} {k : SpSlot} : slotField a = .ok k ↔ BitVec.ofNat 8 k.code = a := by
  constructor
  · intro h
    unfold slotField at h
    split at h
    · next hk => cases h; rw [spSlot_code_of_ofCode hk]; simp
    · cases h
  · rintro rfl; exact slotField_ofNat k

@[simp] theorem noA_zero : noA 0#8 = .ok () := rfl

@[simp] theorem noB_zero : noB 0#16 = .ok () := rfl

theorem noA_eq_ok {a : Byte} {u : Unit} : noA a = .ok u ↔ a = 0 := by
  unfold noA; split <;> simp_all

theorem noB_eq_ok {b : Half} {u : Unit} : noB b = .ok u ↔ b = 0 := by
  unfold noB; split <;> simp_all

@[simp] theorem operand_cons (v : Word) (rest : List Word) : operand (v :: rest) = .ok (v, rest) := rfl

theorem operand_eq_ok {ws : List Word} {v : Word} {rest : List Word} : operand ws = .ok (v, rest) ↔ v :: rest = ws := by
  cases ws with
  | nil => simp [operand]
  | cons w ws => simp [operand]; tauto

/-- The operand words of a number are read back as that number. -/
theorem operands_append (k v : Nat) (rest : List Word) :
    operands k (splitDigits 32 k v ++ rest) = .ok (v % 2 ^ (32 * k), rest) := by
  have hl : k ≤ (splitDigits 32 k v ++ rest).length := by simp
  rw [operands, if_pos hl, List.take_left' (length_splitDigits ..), List.drop_left' (length_splitDigits ..),
    joinDigits_splitDigits]

theorem operands_eq_ok {k : Nat} {ws : List Word} {v : Nat} {rest : List Word} (h : operands k ws = .ok (v, rest)) :
    splitDigits 32 k v ++ rest = ws ∧ v < 2 ^ (32 * k) := by
  unfold operands at h
  split at h
  · next hk =>
    cases h
    have hlen : (ws.take k).length = k := by simp [hk]
    have h1 := splitDigits_joinDigits 32 (ws.take k)
    have h2 := joinDigits_lt 32 (ws.take k)
    rw [hlen] at h1 h2
    exact ⟨by rw [h1, List.take_append_drop], h2⟩
  · cases h

/-- The operand words hold every bit of a floating-point register (30_encoding.md rule R102). -/
theorem fpBits_le_words (fpBits : Nat) : fpBits ≤ 32 * fpWords fpBits := by
  unfold fpWords; omega

theorem lt_words_of_lt {fpBits v : Nat} (h : v < 2 ^ fpBits) : v < 2 ^ (32 * fpWords fpBits) :=
  Nat.lt_of_lt_of_le h (Nat.pow_le_pow_right (by decide) (fpBits_le_words fpBits))

/-- What a command with neither field nor operand is read from. -/
theorem plain_eq_ok {i j : Instr} {a : Byte} {b : Half} {rest rest' : List Word}
    (h : plain i a b rest = .ok (j, rest')) : a = 0 ∧ b = 0 ∧ j = i ∧ rest' = rest := by
  simp only [plain, bind_eq_ok, noA_eq_ok, noB_eq_ok, Except.ok.injEq, Prod.mk.injEq] at h
  obtain ⟨-, ha, -, hb, rfl, rfl⟩ := h
  exact ⟨ha, hb, rfl, rfl⟩

/-- What a command with no field and one operand is read from. -/
theorem plainOperand_eq_ok {i : Word → Instr} {j : Instr} {a : Byte} {b : Half} {rest rest' : List Word}
    (h : plainOperand i a b rest = .ok (j, rest')) : a = 0 ∧ b = 0 ∧ ∃ v, j = i v ∧ v :: rest' = rest := by
  simp only [plainOperand, bind_eq_ok, noA_eq_ok, noB_eq_ok, Prod.exists, operand_eq_ok, Except.ok.injEq,
    Prod.mk.injEq] at h
  obtain ⟨-, ha, -, hb, v, r, hr, rfl, rfl⟩ := h
  exact ⟨ha, hb, v, rfl, hr⟩

/-- A byte is the literal of its value. -/
theorem byte_eq_ofNat {op : Byte} {k : Nat} (h : op.toNat = k) : op = BitVec.ofNat 8 k := by
  rw [← h, BitVec.ofNat_toNat, BitVec.setWidth_eq]

end Sys2Proof
end

