-- ==== Sys2Proof/Laws/Effects.lean ====
section
/-! SUPPORT. What a command can do, said once for all commands: `Effect` lists the next states, and `effect_of_exec` says that
there is no other. -/

namespace Sys2Proof.Machine

/-- The next states of the commands. -/
inductive Effect (s : State) : Instr → State → Prop
  /-- The command answers and changes nothing. -/
  | answer {i : Instr} (h : s.Running) (ws : List Word) : Effect s i (s.done ws)
  | wrD (h : s.Running) (n : Fin 8) (v : Word) : Effect s (.wrD n v) ({ s with d := s.d.set n v }.done [])
  | wrA (h : s.Running) (n : Fin 8) (v : Word) : Effect s (.wrA n v) ({ s with a := s.a.set n v }.done [])
  | wrPc (h : s.Running) (v : Word) : Effect s (.wrPc v) ({ s with pc := v }.done [])
  | wrSr (h : s.Running) (hs : s.supervisor = true) (v : Word) :
    Effect s (.wrSr v) ((s.setSr (v.extractLsb' 0 16)).done [])
  | wrCcr (h : s.Running) (v : Word) : Effect s (.wrCcr v) ((s.setCcr (v.extractLsb' 0 8)).done [])
  | wrSp (h : s.Running) (hs : s.supervisor = true) (k : SpSlot) (v : Word) :
    Effect s (.wrSp k v) ((s.setSpSlot k v).done [])
  | wrFp (h : s.Running) (hf : s.has .fpu = true) (n : Fin 8) (v : Nat) : Effect s (.wrFp n v) ((s.setFp n v).done [])
  | wrUr (h : s.Running) {urid : Half} {r : UnitReg} (hr : unitRegOf urid = some r) (hp : s.unitPresent r = true) (v : Acc) :
    Effect s (.wrUr urid v) ((s.writeUnit r v).done [])
  | ccSet (h : s.Running) (kind : CcKind) (x : Bool) (dest src : Word) :
    Effect s (.ccSet kind x dest src) ((s.setRecord kind x dest src).done [])
  | wrCr (h : s.Running) (hs : s.supervisor = true) {crid : Half} {r : CtrlReg} (hr : ctrlRegOf crid = some r)
      (hp : s.ctrlPresent r = true) (v : Word) :
    Effect s (.wrCr crid v) ((s.writeCtrl r v).done [])
  | intPend (h : s.fatal = none) (level : BitVec 3) (vector : Byte) :
    Effect s (.intPend level vector) ({ s with pendingLevel := level, pendingVector := vector }.done [])
  /-- The command takes an exception; RTE may have made reads before. -/
  | entered {i : Instr} (h : s.Running) (n : Nat) (c : Cause) (v : Byte) (r : Word) (m : BitVec 3) :
    Effect s i ((s.withReads n).enter c v r m)
  | popped (h : s.Running) (hs : s.supervisor = true) (n : Nat) (sr : Half) (pc : Word) :
    Effect s .rte ((s.withReads n).popFrame sr pc)
  | cold {i : Instr} (hf : s.fatal = none) (hb : s.bootState = .ready ∨ s.bootState = .running)
      (hi : i = .coldStart ∨ ∃ retpc, i = .raise .reset retpc) :
    Effect s i s.coldStart
  | mapped (hf : s.fatal = none) (hb : s.bootState = .idle) (hh : s.halted = false) (size : Word) :
    Effect s (.mapRam size)
      ({ s with
        regions := { kind := .ram, base := 0, size := size.toNat, readOnly := false } :: s.regions
        ramSize := size
        bootState := .ramMapped }.done [])
  /-- MAP_RAM without host memory, BOOT_KERNEL without an image. -/
  | died {i : Instr} (hb : s.bootState = .idle ∨ s.bootState = .ramMapped) (hh : s.halted = false) (r : FatalReason) :
    Effect s i (s.die r)
  | kernel (hf : s.fatal = none) (hb : s.bootState = .ramMapped) (hh : s.halted = false) (hk : s.cfg.kernelPath.isSome = true)
      {x : Except State State} (hx : BootEffect { s with bootState := .kernelBootPrepared } x) :
    Effect s .bootKernel (bootEnd x)
  | romFailed (hb : s.bootState = .ramMapped) (hh : s.halted = false) (hk : s.cfg.kernelPath = none) (r : FatalReason) :
    Effect s .bootRom (s.mapRom.die r)
  | romLoaded (hf : s.fatal = none) (hb : s.bootState = .ramMapped) (hh : s.halted = false) (hk : s.cfg.kernelPath = none)
      {M : Memory} (hM : Kept s.mapRom M) :
    Effect s .bootRom ({ (s.mapRom.withMem M).protectRom with bootState := .ready }.done [])

variable {s t : State}

/-- An exception raised by a check. -/
theorem Effect.raised {i : Instr} (h : s.Running) (k : Kind) (r : Word) : Effect s i (s.raiseSync k r) :=
  .entered h s.reads (.sync k) (vectorOf k) r s.mask

theorem effect_bootRom (h : exec .bootRom s = .next t) : Effect s .bootRom t := by
  obtain ⟨hf, hb, hk, hh, h⟩ := bootRom_next.mp h
  cases hl : s.mapRom.loadRawImage s.cfg.romPath s.cfg.romBase s.cfg.romSize with
  | none =>
    rw [hl] at h
    dsimp only at h
    subst h
    exact .romFailed hb hh hk _
  | some u =>
    rw [hl] at h
    dsimp only at h
    subst h
    obtain ⟨e, hM⟩ := loadRawImage_effect hl
    generalize u.mem = M at e hM
    subst e
    exact .romLoaded hf hb hh hk hM

theorem effect_bootKernel (h : exec .bootKernel s = .next t) : Effect s .bootKernel t := by
  obtain ⟨hf, hb, hh, path, hk, h⟩ := bootKernel_next.mp h
  cases hl : s.cfg.loader.executables.lookup path with
  | none =>
    rw [hl] at h
    dsimp only at h
    subst h
    exact .died (.inr hb) hh _
  | some image =>
    rw [hl] at h
    dsimp only at h
    subst h
    exact .kernel hf hb hh (by rw [hk]; rfl) (prepareKernel_effect _ image)

theorem effect_rte (h : exec .rte s = .next t) : Effect s .rte t := by
  obtain ⟨hR, ⟨hs, rfl⟩ | ⟨-, rfl⟩⟩ := rte_next.mp h
  · rcases returnFrom_cases s with ⟨n, k, -, e⟩ | ⟨-, -, -, e⟩ <;> rw [e]
    · exact .entered hR n (.sync k) (vectorOf k) s.pc _
    · exact .popped hR hs _ _ _
  · exact .raised hR _ _

/-- A command that answers a next state has one of the listed effects. -/
theorem effect_of_exec {i : Instr} (h : exec i s = .next t) : Effect s i t := by
  cases i with
  | rdD n => obtain ⟨hR, rfl⟩ := rdD_next.mp h; exact .answer hR _
  | wrD n v => obtain ⟨hR, rfl⟩ := wrD_next.mp h; exact .wrD hR n v
  | rdA n => obtain ⟨hR, rfl⟩ := rdA_next.mp h; exact .answer hR _
  | wrA n v => obtain ⟨hR, rfl⟩ := wrA_next.mp h; exact .wrA hR n v
  | rdPc => obtain ⟨hR, rfl⟩ := rdPc_next.mp h; exact .answer hR _
  | wrPc v => obtain ⟨hR, rfl⟩ := wrPc_next.mp h; exact .wrPc hR v
  | rdSr => obtain ⟨hR, rfl⟩ := rdSr_next.mp h; exact .answer hR _
  | wrSr v =>
    obtain ⟨hR, ⟨hs, rfl⟩ | ⟨-, rfl⟩⟩ := wrSr_next.mp h
    · exact .wrSr hR hs v
    · exact .raised hR _ _
  | rdCcr => obtain ⟨hR, rfl⟩ := rdCcr_next.mp h; exact .answer hR _
  | wrCcr v => obtain ⟨hR, rfl⟩ := wrCcr_next.mp h; exact .wrCcr hR v
  | rdSp k =>
    obtain ⟨hR, ⟨-, rfl⟩ | ⟨-, rfl⟩⟩ := rdSp_next.mp h
    · exact .answer hR _
    · exact .raised hR _ _
  | wrSp k v =>
    obtain ⟨hR, ⟨hs, rfl⟩ | ⟨-, rfl⟩⟩ := wrSp_next.mp h
    · exact .wrSp hR hs k v
    · exact .raised hR _ _
  | rdFp n =>
    obtain ⟨hR, h⟩ := rdFp_next.mp h
    split at h <;> subst h
    · exact .answer hR _
    · exact .raised hR _ _
  | wrFp n v =>
    obtain ⟨hR, h⟩ := wrFp_next.mp h
    split at h
    · next hf => subst h; exact .wrFp hR hf n v
    · subst h; exact .raised hR _ _
  | rdUr urid =>
    obtain ⟨hR, h⟩ := rdUr_next.mp h
    rcases withRegister_cases h with ⟨-, rfl⟩ | ⟨r, -, -, rfl⟩ | ⟨r, -, -, rfl⟩
    · exact .raised hR _ _
    · exact .raised hR _ _
    · exact .answer hR _
  | wrUr urid v =>
    obtain ⟨hR, h⟩ := wrUr_next.mp h
    rcases withRegister_cases h with ⟨-, rfl⟩ | ⟨r, -, -, rfl⟩ | ⟨r, hr, hp, rfl⟩
    · exact .raised hR _ _
    · exact .raised hR _ _
    · exact .wrUr hR hr hp v
  | ccSet kind x dest src => obtain ⟨hR, rfl⟩ := ccSet_next.mp h; exact .ccSet hR kind x dest src
  | ccFlags => obtain ⟨hR, rfl⟩ := ccFlags_next.mp h; exact .answer hR _
  | ctx => obtain ⟨hR, rfl⟩ := ctx_next.mp h; exact .answer hR _
  | rdCr crid =>
    obtain ⟨hR, ⟨-, h⟩ | ⟨-, rfl⟩⟩ := rdCr_next.mp h
    · rcases withRegister_cases h with ⟨-, rfl⟩ | ⟨r, -, -, rfl⟩ | ⟨r, -, -, rfl⟩
      · exact .raised hR _ _
      · exact .raised hR _ _
      · exact .answer hR _
    · exact .raised hR _ _
  | wrCr crid v =>
    obtain ⟨hR, ⟨hs, h⟩ | ⟨-, rfl⟩⟩ := wrCr_next.mp h
    · rcases withRegister_cases h with ⟨-, rfl⟩ | ⟨r, -, -, rfl⟩ | ⟨r, hr, hp, rfl⟩
      · exact .raised hR _ _
      · exact .raised hR _ _
      · exact .wrCr hR hs hr hp v
    · exact .raised hR _ _
  | intPend level vector => obtain ⟨hf, rfl⟩ := intPend_next.mp h; exact .intPend hf level vector
  | intCheck =>
    obtain ⟨hR, h⟩ := intCheck_next.mp h
    split at h <;> subst h
    · exact .entered hR s.reads _ _ _ _
    · exact .answer hR _
  | raise kind retpc =>
    obtain ⟨hR, h⟩ := raise_next.mp h
    split at h
    · next hk => subst h hk; exact .cold hR.1 (.inr hR.2.2) (.inr ⟨retpc, rfl⟩)
    · subst h; exact .raised hR _ _
  | rte => exact effect_rte h
  | mapRam size =>
    obtain ⟨hf, hb, hh, h⟩ := mapRam_next.mp h
    split at h <;> subst h
    · exact .mapped hf hb hh size
    · exact .died (.inl hb) hh _
  | bootKernel => exact effect_bootKernel h
  | bootRom => exact effect_bootRom h
  | coldStart =>
    obtain ⟨hf, hb, rfl⟩ := coldStart_next.mp h
    exact .cold hf (hb.imp_right And.left) (.inl rfl)

/-- A part of a boot command answers no exception. -/
theorem BootEffect.reply {x : Except State State} (h : BootEffect s x) (v : Byte) : (bootEnd x).reply ≠ .exception v := by
  cases h <;> exact nofun

/-- What a part of a boot command leaves alone. -/
theorem BootEffect.unchanged {x : Except State State} (h : BootEffect s x) :
    Unchanged [.mem, .bootState, .fatal, .reply] s (bootEnd x) := by
  cases h <;> intro p hp <;> cases p <;>
    first | rfl | exact ⟨rfl, rfl⟩ | exact ⟨rfl, rfl, rfl, rfl⟩ | exact absurd (by simp) hp

/-- No command changes the configuration or the words issued. -/
theorem Effect.cfg_inbox {i : Instr} (h : Effect s i t) : t.cfg = s.cfg ∧ t.inbox = s.inbox := by
  cases h with
  | entered hR n c v r m =>
    have hu := enter_unchanged (s.withReads n) c v r m
    exact ⟨hu .cfg (by simp), hu .inbox (by simp)⟩
  | cold => exact ⟨coldStart_unchanged s .cfg (by simp), coldStart_unchanged s .inbox (by simp)⟩
  | kernel _ _ _ _ hx => exact ⟨hx.unchanged .cfg (by simp), hx.unchanged .inbox (by simp)⟩
  | wrSp _ _ k v => exact ⟨setSpSlot_unchanged s k v .cfg (by simp), setSpSlot_unchanged s k v .inbox (by simp)⟩
  | @wrUr _ _ r _ _ v => exact ⟨writeUnit_unchanged s r v .cfg (by simp), writeUnit_unchanged s r v .inbox (by simp)⟩
  | @wrCr _ _ _ r _ _ v => exact ⟨writeCtrl_unchanged s r v .cfg (by simp), writeCtrl_unchanged s r v .inbox (by simp)⟩
  | _ => exact ⟨rfl, rfl⟩

end Sys2Proof.Machine
end

