-- ==== Sys2Proof/Laws/PerInstr.lean ====
section
/-! SUPPORT. Statements made once for each constructor of `Instr`: the command word lies in the command's row of
spec/opcode_table.json, and the operand words number what the decoder asks for. -/

namespace Sys2Proof.Laws

/-- The mask and the match of a command's row in spec/opcode_table.json. -/
def tableRow : Instr → Word × Word
  | .rdD _ => (0xFFF8FFFF, 0x01000000)
  | .wrD _ _ => (0xFFF8FFFF, 0x02000000)
  | .rdA _ => (0xFFF8FFFF, 0x03000000)
  | .wrA _ _ => (0xFFF8FFFF, 0x04000000)
  | .rdPc => (0xFFFFFFFF, 0x05000000)
  | .wrPc _ => (0xFFFFFFFF, 0x06000000)
  | .rdSr => (0xFFFFFFFF, 0x07000000)
  | .wrSr _ => (0xFFFFFFFF, 0x08000000)
  | .rdCcr => (0xFFFFFFFF, 0x09000000)
  | .wrCcr _ => (0xFFFFFFFF, 0x0A000000)
  | .rdSp _ => (0xFFFCFFFF, 0x0B000000)
  | .wrSp _ _ => (0xFFFCFFFF, 0x0C000000)
  | .rdFp _ => (0xFFF8FFFF, 0x0D000000)
  | .wrFp _ _ => (0xFFF8FFFF, 0x0E000000)
  | .rdUr _ => (0xFFFF0000, 0x0F000000)
  | .wrUr _ _ => (0xFFFF0000, 0x10000000)
  | .ccSet _ _ _ _ => (0xFF00FFFE, 0x20000000)
  | .ccFlags => (0xFFFFFFFF, 0x21000000)
  | .ctx => (0xFFFFFFFF, 0x30000000)
  | .rdCr _ => (0xFFFF0000, 0x31000000)
  | .wrCr _ _ => (0xFFFF0000, 0x32000000)
  | .intPend _ _ => (0xFFF8FF00, 0x40000000)
  | .intCheck => (0xFFFFFFFF, 0x41000000)
  | .raise _ _ => (0xFF00FFFF, 0x42000000)
  | .rte => (0xFFFFFFFF, 0x43000000)
  | .mapRam _ => (0xFFFFFFFF, 0x50000000)
  | .bootKernel => (0xFFFFFFFF, 0x51000000)
  | .bootRom => (0xFFFFFFFF, 0x52000000)
  | .coldStart => (0xFFFFFFFF, 0x53000000)

/-- A command word agrees with a row when each of its fields does. -/
theorem commandWord_and (op a opMask aMask : Byte) (b bMask : Half) :
    commandWord op a b &&& commandWord opMask aMask bMask = commandWord (op &&& opMask) (a &&& aMask) (b &&& bMask) := by
  apply BitVec.eq_of_getLsbD_eq
  intro i hi
  simp only [commandWord, BitVec.getLsbD_and, BitVec.getLsbD_append]
  split
  · rfl
  · split <;> rfl

namespace TableWord

/-- The command word lies in its row (30_encoding.md rules R101 and R104). -/
def Statement (i : Instr) : Prop := commandWord i.op i.a i.b &&& (tableRow i).1 = (tableRow i).2

theorem rdD (n : Fin 8) : Statement (.rdD n) := by
  change commandWord 0x01 (BitVec.ofNat 8 n.val) 0 &&& 0xFFF8FFFF = 0x01000000
  revert n; decide

theorem wrD (n : Fin 8) (v : Word) : Statement (.wrD n v) := by
  change commandWord 0x02 (BitVec.ofNat 8 n.val) 0 &&& 0xFFF8FFFF = 0x02000000
  revert n; decide

theorem rdA (n : Fin 8) : Statement (.rdA n) := by
  change commandWord 0x03 (BitVec.ofNat 8 n.val) 0 &&& 0xFFF8FFFF = 0x03000000
  revert n; decide

theorem wrA (n : Fin 8) (v : Word) : Statement (.wrA n v) := by
  change commandWord 0x04 (BitVec.ofNat 8 n.val) 0 &&& 0xFFF8FFFF = 0x04000000
  revert n; decide

theorem rdPc : Statement .rdPc := by
  change commandWord 0x05 0 0 &&& 0xFFFFFFFF = 0x05000000
  decide

theorem wrPc (v : Word) : Statement (.wrPc v) := by
  change commandWord 0x06 0 0 &&& 0xFFFFFFFF = 0x06000000
  decide

theorem rdSr : Statement .rdSr := by
  change commandWord 0x07 0 0 &&& 0xFFFFFFFF = 0x07000000
  decide

theorem wrSr (v : Word) : Statement (.wrSr v) := by
  change commandWord 0x08 0 0 &&& 0xFFFFFFFF = 0x08000000
  decide

theorem rdCcr : Statement .rdCcr := by
  change commandWord 0x09 0 0 &&& 0xFFFFFFFF = 0x09000000
  decide

theorem wrCcr (v : Word) : Statement (.wrCcr v) := by
  change commandWord 0x0A 0 0 &&& 0xFFFFFFFF = 0x0A000000
  decide

theorem rdSp (k : SpSlot) : Statement (.rdSp k) := by
  change commandWord 0x0B (BitVec.ofNat 8 k.code) 0 &&& 0xFFFCFFFF = 0x0B000000
  cases k <;> decide

theorem wrSp (k : SpSlot) (v : Word) : Statement (.wrSp k v) := by
  change commandWord 0x0C (BitVec.ofNat 8 k.code) 0 &&& 0xFFFCFFFF = 0x0C000000
  cases k <;> decide

theorem rdFp (n : Fin 8) : Statement (.rdFp n) := by
  change commandWord 0x0D (BitVec.ofNat 8 n.val) 0 &&& 0xFFF8FFFF = 0x0D000000
  revert n; decide

theorem wrFp (n : Fin 8) (v : Nat) : Statement (.wrFp n v) := by
  change commandWord 0x0E (BitVec.ofNat 8 n.val) 0 &&& 0xFFF8FFFF = 0x0E000000
  revert n; decide

theorem rdUr (urid : Half) : Statement (.rdUr urid) := by
  change commandWord 0x0F 0 urid &&& 0xFFFF0000 = 0x0F000000
  rw [show (0xFFFF0000 : Word) = commandWord 0xFF 0xFF 0 by decide, commandWord_and, show urid &&& (0 : Half) = 0 from BitVec.and_zero]; decide

theorem wrUr (urid : Half) (v : Acc) : Statement (.wrUr urid v) := by
  change commandWord 0x10 0 urid &&& 0xFFFF0000 = 0x10000000
  rw [show (0xFFFF0000 : Word) = commandWord 0xFF 0xFF 0 by decide, commandWord_and, show urid &&& (0 : Half) = 0 from BitVec.and_zero]; decide

theorem ccSet (kind : CcKind) (x : Bool) (dest src : Word) : Statement (.ccSet kind x dest src) := by
  change commandWord 0x20 (BitVec.ofNat 8 kind.code) ((BitVec.ofBool x).setWidth 16) &&& 0xFF00FFFE = 0x20000000
  cases x <;> cases kind <;> first | decide | (rename_i w; cases w <;> decide)

theorem ccFlags : Statement .ccFlags := by
  change commandWord 0x21 0 0 &&& 0xFFFFFFFF = 0x21000000
  decide

theorem ctx : Statement .ctx := by
  change commandWord 0x30 0 0 &&& 0xFFFFFFFF = 0x30000000
  decide

theorem rdCr (crid : Half) : Statement (.rdCr crid) := by
  change commandWord 0x31 0 crid &&& 0xFFFF0000 = 0x31000000
  rw [show (0xFFFF0000 : Word) = commandWord 0xFF 0xFF 0 by decide, commandWord_and, show crid &&& (0 : Half) = 0 from BitVec.and_zero]; decide

theorem wrCr (crid : Half) (v : Word) : Statement (.wrCr crid v) := by
  change commandWord 0x32 0 crid &&& 0xFFFF0000 = 0x32000000
  rw [show (0xFFFF0000 : Word) = commandWord 0xFF 0xFF 0 by decide, commandWord_and, show crid &&& (0 : Half) = 0 from BitVec.and_zero]; decide

theorem intPend (level : BitVec 3) (vector : Byte) : Statement (.intPend level vector) := by
  change commandWord 0x40 (level.setWidth 8) (vector.setWidth 16) &&& 0xFFF8FF00 = 0x40000000
  revert level vector; decide

theorem intCheck : Statement .intCheck := by
  change commandWord 0x41 0 0 &&& 0xFFFFFFFF = 0x41000000
  decide

theorem raise (kind : Kind) (retpc : Word) : Statement (.raise kind retpc) := by
  change commandWord 0x42 (BitVec.ofNat 8 kind.code) 0 &&& 0xFF00FFFF = 0x42000000
  cases kind <;> first | decide | (rename_i n; revert n; decide)

theorem rte : Statement .rte := by
  change commandWord 0x43 0 0 &&& 0xFFFFFFFF = 0x43000000
  decide

theorem mapRam (size : Word) : Statement (.mapRam size) := by
  change commandWord 0x50 0 0 &&& 0xFFFFFFFF = 0x50000000
  decide

theorem bootKernel : Statement .bootKernel := by
  change commandWord 0x51 0 0 &&& 0xFFFFFFFF = 0x51000000
  decide

theorem bootRom : Statement .bootRom := by
  change commandWord 0x52 0 0 &&& 0xFFFFFFFF = 0x52000000
  decide

theorem coldStart : Statement .coldStart := by
  change commandWord 0x53 0 0 &&& 0xFFFFFFFF = 0x53000000
  decide

end TableWord

namespace OperandWords

/-- The operand words of a command number what its command word asks for, on every machine (rule R111). -/
def Statement (i : Instr) : Prop :=
  ∀ fpBits : Nat, (i.operandWords fpBits).length = operandCount fpBits (commandWord i.op i.a i.b)

theorem rdD (n : Fin 8) : Statement (.rdD n) := by
  intro fpBits; simp [operandCount, Instr.op, Instr.a, Instr.b, Instr.operandWords]

theorem wrD (n : Fin 8) (v : Word) : Statement (.wrD n v) := by
  intro fpBits; simp [operandCount, Instr.op, Instr.a, Instr.b, Instr.operandWords]

theorem rdA (n : Fin 8) : Statement (.rdA n) := by
  intro fpBits; simp [operandCount, Instr.op, Instr.a, Instr.b, Instr.operandWords]

theorem wrA (n : Fin 8) (v : Word) : Statement (.wrA n v) := by
  intro fpBits; simp [operandCount, Instr.op, Instr.a, Instr.b, Instr.operandWords]

theorem rdPc : Statement .rdPc := by
  intro fpBits; simp [operandCount, Instr.op, Instr.a, Instr.b, Instr.operandWords]

theorem wrPc (v : Word) : Statement (.wrPc v) := by
  intro fpBits; simp [operandCount, Instr.op, Instr.a, Instr.b, Instr.operandWords]

theorem rdSr : Statement .rdSr := by
  intro fpBits; simp [operandCount, Instr.op, Instr.a, Instr.b, Instr.operandWords]

theorem wrSr (v : Word) : Statement (.wrSr v) := by
  intro fpBits; simp [operandCount, Instr.op, Instr.a, Instr.b, Instr.operandWords]

theorem rdCcr : Statement .rdCcr := by
  intro fpBits; simp [operandCount, Instr.op, Instr.a, Instr.b, Instr.operandWords]

theorem wrCcr (v : Word) : Statement (.wrCcr v) := by
  intro fpBits; simp [operandCount, Instr.op, Instr.a, Instr.b, Instr.operandWords]

theorem rdSp (k : SpSlot) : Statement (.rdSp k) := by
  intro fpBits; simp [operandCount, Instr.op, Instr.a, Instr.b, Instr.operandWords]

theorem wrSp (k : SpSlot) (v : Word) : Statement (.wrSp k v) := by
  intro fpBits; simp [operandCount, Instr.op, Instr.a, Instr.b, Instr.operandWords]

theorem rdFp (n : Fin 8) : Statement (.rdFp n) := by
  intro fpBits; simp [operandCount, Instr.op, Instr.a, Instr.b, Instr.operandWords]

theorem wrFp (n : Fin 8) (v : Nat) : Statement (.wrFp n v) := by
  intro fpBits; simp [operandCount, Instr.op, Instr.a, Instr.b, Instr.operandWords]

theorem rdUr (urid : Half) : Statement (.rdUr urid) := by
  intro fpBits; simp [operandCount, Instr.op, Instr.a, Instr.b, Instr.operandWords]

theorem wrUr (urid : Half) (v : Acc) : Statement (.wrUr urid v) := by
  intro fpBits; simp [operandCount, Instr.op, Instr.a, Instr.b, Instr.operandWords]

theorem ccSet (kind : CcKind) (x : Bool) (dest src : Word) : Statement (.ccSet kind x dest src) := by
  intro fpBits; simp [operandCount, Instr.op, Instr.a, Instr.b, Instr.operandWords]

theorem ccFlags : Statement .ccFlags := by
  intro fpBits; simp [operandCount, Instr.op, Instr.a, Instr.b, Instr.operandWords]

theorem ctx : Statement .ctx := by
  intro fpBits; simp [operandCount, Instr.op, Instr.a, Instr.b, Instr.operandWords]

theorem rdCr (crid : Half) : Statement (.rdCr crid) := by
  intro fpBits; simp [operandCount, Instr.op, Instr.a, Instr.b, Instr.operandWords]

theorem wrCr (crid : Half) (v : Word) : Statement (.wrCr crid v) := by
  intro fpBits; simp [operandCount, Instr.op, Instr.a, Instr.b, Instr.operandWords]

theorem intPend (level : BitVec 3) (vector : Byte) : Statement (.intPend level vector) := by
  intro fpBits; simp [operandCount, Instr.op, Instr.a, Instr.b, Instr.operandWords]

theorem intCheck : Statement .intCheck := by
  intro fpBits; simp [operandCount, Instr.op, Instr.a, Instr.b, Instr.operandWords]

theorem raise (kind : Kind) (retpc : Word) : Statement (.raise kind retpc) := by
  intro fpBits; simp [operandCount, Instr.op, Instr.a, Instr.b, Instr.operandWords]

theorem rte : Statement .rte := by
  intro fpBits; simp [operandCount, Instr.op, Instr.a, Instr.b, Instr.operandWords]

theorem mapRam (size : Word) : Statement (.mapRam size) := by
  intro fpBits; simp [operandCount, Instr.op, Instr.a, Instr.b, Instr.operandWords]

theorem bootKernel : Statement .bootKernel := by
  intro fpBits; simp [operandCount, Instr.op, Instr.a, Instr.b, Instr.operandWords]

theorem bootRom : Statement .bootRom := by
  intro fpBits; simp [operandCount, Instr.op, Instr.a, Instr.b, Instr.operandWords]

theorem coldStart : Statement .coldStart := by
  intro fpBits; simp [operandCount, Instr.op, Instr.a, Instr.b, Instr.operandWords]

end OperandWords

end Sys2Proof.Laws
end

