-- ==== Sys2Proof/Tests/Slice0.lean ====
section
/-! SUPPORT. Tests: one step each, with the expected values of spec/95_test_vectors.md, and witnesses that the hypotheses of
the statements can be met. -/

namespace Sys2Proof.Tests

open Sys2Proof.Machine

/-! ## Small states -/

/-- 1 MiB of RAM at 0. -/
def ram : Region := { kind := .ram, base := 0, size := 0x100000, readOnly := false }

/-- A classic machine with the given features that booted a kernel. -/
def machine (features : List Feature) : Config := { Config.initial with features := features, kernelPath := some [] }

/-- The state the vectors of 95_test_vectors.md start from: SR = 0x2700, A[7] = 0x00010000 (the INTERRUPT slot), PC = 0x1000. -/
def live (features : List Feature) : State :=
  { State.zeroed (machine features) [] with
    srHi := 0x27
    currentSp := .interrupt
    a := #v[0, 0, 0, 0, 0, 0, 0, 0x10000]
    pc := 0x1000
    bootState := .running
    regions := [ram]
    ramSize := 0x100000 }

/-- The classic machine with an FPU, an MMU and an EMAC. -/
def full : State := live [.m68000, .fpu, .mmu, .emac]

/-- The classic machine with nothing else. -/
def bare : State := live [.m68000]

/-- The same state in user mode, A[7] = 0x00080000. -/
def inUser (s : State) : State :=
  { s with srHi := 0, currentSp := .user, a := s.a.set 7 0x80000, spSlots := ⟨0, 0, 0x10000⟩ }

/-- A word in memory. -/
def poke (s : State) (a v : Word) : State := s.storeBytes a (splitDigits 8 4 v.toNat)

/-- One step on the given words. -/
def run (s : State) (ws : List Word) : Option State :=
  match step { s with inbox := ws } with
  | .next t => some t
  | .fault _ => none
  | .refused _ => none

/-- What one step on the given words answers. -/
def answer (s : State) (ws : List Word) : Option (List Word) :=
  match run s ws with
  | some t =>
    match t.reply with
    | .done r => some r
    | _ => none
  | none => none

/-- Bytes of memory. -/
def peek (s : State) (a n : Nat) : Bytes := (List.range n).map fun i => Memory.read s.mem (a + i)

/-! ## Well-formedness (30_encoding.md rules R102, R108 (f) and R111) -/

theorem test_wellFormed_wrFp_too_wide : (Instr.wrFp 2 (2 ^ 80)).wellFormed 80 = false := by decide
theorem test_wellFormed_wrFp_widest : (Instr.wrFp 2 (2 ^ 80 - 1)).wellFormed 80 = true := by decide
theorem test_wellFormed_wrUr_too_wide : (Instr.wrUr 0x00 0x100000000).wellFormed 80 = false := by decide
theorem test_wellFormed_wrUr_acc : (Instr.wrUr 0x18 0xFFFFFFFFFFFFFFFF).wellFormed 80 = true := by decide

/-! ## Words written out from 30_encoding.md rule R104: OP in bits 31:24, A in 23:16, B in 15:0 -/

theorem test_word_rdD : decode 80 [0x01050000] = .ok (.rdD 5, []) := by decide
theorem test_word_wrD : decode 80 [0x02030000, 0xDEADBEEF] = .ok (.wrD 3 0xDEADBEEF, []) := by decide
theorem test_word_rdA : decode 80 [0x03070000] = .ok (.rdA 7, []) := by decide
theorem test_word_wrA : decode 80 [0x04070000, 0x20001] = .ok (.wrA 7 0x20001, []) := by decide
theorem test_word_rdPc : decode 80 [0x05000000] = .ok (.rdPc, []) := by decide
theorem test_word_wrPc : decode 80 [0x06000000, 0xFFFFFFFF] = .ok (.wrPc 0xFFFFFFFF, []) := by decide
theorem test_word_rdSr : decode 80 [0x07000000] = .ok (.rdSr, []) := by decide
theorem test_word_wrSr : decode 80 [0x08000000, 0x3F1F] = .ok (.wrSr 0x3F1F, []) := by decide
theorem test_word_rdCcr : decode 80 [0x09000000] = .ok (.rdCcr, []) := by decide
theorem test_word_wrCcr : decode 80 [0x0A000000, 0xE4] = .ok (.wrCcr 0xE4, []) := by decide
theorem test_word_rdSp : decode 80 [0x0B020000] = .ok (.rdSp .interrupt, []) := by decide
theorem test_word_wrSp : decode 80 [0x0C010000, 0x80000] = .ok (.wrSp .user 0x80000, []) := by decide
theorem test_word_rdFp : decode 80 [0x0D010000] = .ok (.rdFp 1, []) := by decide
theorem test_word_wrFp : decode 80 [0x0E020000, 0xFFFF, 0x80000000, 0] = .ok (.wrFp 2 0xFFFF8000000000000000, []) := by decide
theorem test_word_rdUr : decode 80 [0x0F000100] = .ok (.rdUr 0x100, []) := by decide
theorem test_word_wrUr : decode 80 [0x1000001B, 1, 0x80000000, 7] = .ok (.wrUr 0x1B 0x180000000, [7]) := by decide
theorem test_word_ccSet : decode 80 [0x200E0001, 0x7FFF, 2] = .ok (.ccSet (.subx .word) true 0x7FFF 2, []) := by decide
theorem test_word_ccFlags : decode 80 [0x21000000] = .ok (.ccFlags, []) := by decide
theorem test_word_ctx : decode 80 [0x30000000] = .ok (.ctx, []) := by decide
theorem test_word_rdCr : decode 80 [0x31000003] = .ok (.rdCr 3, []) := by decide
theorem test_word_wrCr : decode 80 [0x32000002, 0xF0000000] = .ok (.wrCr 2 0xF0000000, []) := by decide
theorem test_word_intPend : decode 80 [0x4003001B] = .ok (.intPend 3 27, []) := by decide
theorem test_word_intCheck : decode 80 [0x41000000] = .ok (.intCheck, []) := by decide
theorem test_word_raise : decode 80 [0x422F0000, 0x1002] = .ok (.raise (.trap 15) 0x1002, []) := by decide
theorem test_word_rte : decode 80 [0x43000000] = .ok (.rte, []) := by decide
theorem test_word_mapRam : decode 80 [0x50000000, 0x08000000] = .ok (.mapRam 0x08000000, []) := by decide
theorem test_word_bootKernel : decode 80 [0x51000000] = .ok (.bootKernel, []) := by decide
theorem test_word_bootRom : decode 80 [0x52000000] = .ok (.bootRom, []) := by decide
theorem test_word_coldStart : decode 80 [0x53000000] = .ok (.coldStart, []) := by decide

/-- V23 to V26, E5, E6, E11, P5 step 4, B11: words that are refused (30_encoding.md rule R108). -/
theorem test_words_refused :
    ([0x01080000, 0x01000001, 0x0B030000, 0x00000000, 0x11000000, 0xFF000000, 0x42010000, 0x42180000, 0x40030100, 0x20130000,
      0x51000001] : List Word).all (fun w => (decode 80 [w, 0, 0]).isOk == false) = true := by decide

/-- V16: bit 80 of a WR_FP operand is set. -/
theorem test_wrFp_high_bit_refused : decode 80 [0x0E020000, 0x00010000, 0, 0] = .error .fpHighBits := by decide

/-! ## Register file (95_test_vectors.md L2.1) -/

theorem test_rdD : answer { full with d := full.d.set 3 0xDEADBEEF } [0x01030000] = some [0xDEADBEEF] := by decide
theorem test_wrD : (run full [0x02030000, 0xDEADBEEF]).map (fun t => t.d.toList) = some [0, 0, 0, 0xDEADBEEF, 0, 0, 0, 0] := by
  decide
theorem test_rdA : answer full [0x03070000] = some [0x10000] := by decide
theorem test_wrA : (run full [0x04070000, 0x20001]).map (fun t => (t.a[7], t.spSlots)) = some (0x20001, ⟨0, 0, 0⟩) := by decide
theorem test_rdPc : answer full [0x05000000] = some [0x1000] := by decide
theorem test_wrPc : (run full [0x06000000, 0xFFFFFFFF]).map State.pc = some 0xFFFFFFFF := by decide
theorem test_rdSr : answer { full with ccOp := .add .word, ccDest := 0x8000, ccSrc := 1 } [0x07000000] = some [0x270A] := by decide
theorem test_wrSr : (run full [0x08000000, 0xFFFF27E5]).map State.readSr = some 0x2705 := by decide
theorem test_wrSr_switches :
    (run { full with spSlots := ⟨0x40000, 0, 0⟩ } [0x08000000, 0x3000]).map (fun t => (t.a[7], t.spSlots.interrupt, t.currentSp)) =
      some (0x40000, 0x10000, .supervisor) := by decide
theorem test_rdCcr : answer { full with ccOp := .sub .byte, ccDest := 0xFF, ccSrc := 1, ccX := true } [0x09000000] = some [0x19] := by
  decide
theorem test_wrCcr : (run full [0x0A000000, 0xFF]).map State.readSr = some 0x271F := by decide
theorem test_rdSp : answer full [0x0B020000] = some [0x10000] := by decide
theorem test_rdSp_user : (run (poke (inUser full) 0x20 0x5080) [0x0B010000]).map (fun t => (t.reply, t.pc)) =
    some (.exception 8, 0x5080) := by decide
theorem test_wrSp : (run full [0x0C020000, 0x30000]).map (fun t => (t.a[7], t.spSlots)) = some (0x30000, ⟨0, 0, 0⟩) := by decide
theorem test_wrSp_saved : (run full [0x0C000000, 0x40000]).map (fun t => (t.a[7], t.spSlots)) = some (0x10000, ⟨0x40000, 0, 0⟩) := by
  decide
theorem test_rdFp : answer { full with fp := full.fp.set 2 0xFFFF8000000000000000 } [0x0D020000] = some [0xFFFF, 0x80000000, 0] := by
  decide
theorem test_wrFp : (run full [0x0E020000, 0xFFFF, 0x80000000, 0]).map (fun t => t.fp[2]) = some 0xFFFF8000000000000000 := by decide
theorem test_rdUr : answer { full with acc := full.acc.set 3 0x180000000 } [0x0F00001B] = some [1, 0x80000000] := by decide
theorem test_rdUr_illegal : (run full [0x0F000002]).map State.reply = some (.exception 4) := by decide
theorem test_wrUr : (run full [0x10000001, 0xFFFFFFFF]).map (fun t => (t.fpsr, t.readSr)) = some (0xFFFFFFFF, 0x2700) := by decide
theorem test_wrUr_one_accumulator : (run (live [.m68000, .mac]) [0x10000019, 0, 0]).map State.reply = some (.exception 61) := by decide

/-! ## Condition codes (L2.2) -/

theorem test_ccSet : (run full [0x200E0001, 0x7FFF, 2]).map (fun t => (t.ccOp, t.ccX, t.ccDest, t.ccSrc)) =
    some (.subx .word, true, 0x7FFF, 2) := by decide
theorem test_ccFlags_known : answer { full with ccDest := 0xFFFFFFF5, ccSrc := 0x12345678 } [0x21000000] = some [0x05] := by decide
theorem test_ccFlags_addx :
    answer { full with ccOp := .addx .long, ccX := true } [0x21000000] = some [0x15] := by decide

/-! ## Contexts and control registers (L1.2, L1.3, P5) -/

theorem test_ctx_kernel : answer full [0x30000000] = some [0] := by decide
theorem test_ctx_user : answer { inUser full with srHi := 0xDF } [0x30000000] = some [1] := by decide
theorem test_rdCr : answer { full with tcr := 0x8000 } [0x31000003] = some [0x8000] := by decide
theorem test_rdCr_unsupported : (run bare [0x31000003]).map State.reply = some (.exception 61) := by decide
theorem test_wrCr : (run full [0x32000000, 0xFFFFFFFD]).map State.sfc = some 5 := by decide
theorem test_wrCr_ttr : (run full [0x32000026, 0x12345678]).map (fun t => t.ttr[1][2]) = some 0x12345678 := by decide

/-! ## Exceptions and interrupts (L2.4, P4) -/

theorem test_intPend : (run full [0x4003001B]).map (fun t => (t.pendingLevel, t.pendingVector)) = some (3, 27) := by decide
theorem test_intPend_halted : (run { full with halted := true } [0x4003001B]).map (fun t => t.pendingLevel) = some 3 := by decide

/-- E10. -/
theorem test_intCheck :
    (run (poke { full with srHi := 0x26, pendingLevel := 7, pendingVector := 0x40 } 0x100 0x5400) [0x41000000]).map
      (fun t => (peek t 0xFFF8 8, t.readSr, t.pc)) = some ([0x26, 0, 0, 0, 0x10, 0, 1, 0], 0x2700, 0x5400) := by decide

/-- P4 step 2. -/
theorem test_intCheck_masked : answer { full with pendingLevel := 3, pendingVector := 27 } [0x41000000] = some [] := by decide

/-- E2. -/
theorem test_raise :
    (run (poke full 0x14 0x5050) [0x42050000, 0x1004]).map (fun t => (peek t 0xFFF8 8, t.readSr, t.a[7], t.pc)) =
      some ([0x27, 0, 0, 0, 0x10, 4, 0, 0x14], 0x2700, 0xFFF8, 0x5050) := by decide

/-- P2 step 4: from user mode. -/
theorem test_raise_from_user :
    (run (poke (inUser full) 0x80 0x3000) [0x42200000, 0x1004]).map (fun t => (t.readSr, t.a[7], t.spSlots.user, t.pc)) =
      some (0x2000, 0xFFF8, 0x80000, 0x3000) := by decide

/-- The frame of the return vectors. -/
def frameAt (s : State) (bytes : Bytes) : State := { s.storeBytes 0xFFF8 bytes with a := s.a.set 7 0xFFF8, pc := 0x5000 }

/-- E14. -/
theorem test_rte :
    (run (frameAt full [0x27, 0x15, 0, 0, 0x20, 0, 0, 0x80]) [0x43000000]).map (fun t => (t.readSr, t.a[7], t.pc)) =
      some (0x2715, 0x10000, 0x2000) := by decide

/-- E17: format 1. -/
theorem test_rte_format :
    (run (poke (frameAt full [0x27, 0, 0, 0, 0x20, 0, 0x10, 0x80]) 0x38 0x50E0) [0x43000000]).map
      (fun t => (t.reply, peek t 0xFFF0 8, t.a[7], t.pc)) =
        some (.exception 14, [0x27, 0, 0, 0, 0x50, 0, 0, 0x38], 0xFFF0, 0x50E0) := by decide

/-! ## Boot (L2.5, L2.6, P3) -/

/-- A constructed machine that boots a kernel of one segment. -/
def kernelMachine : Config :=
  { machine [.m68000] with
    cmdline := some [0x72, 0x6F]
    kernelPath := some [1]
    initrdPath := some [2]
    romSize := 4
    loader :=
      { executables := [([1], { size := 10, entry := 0x1000, highest := 0x2001, segs := [(0, [0, 1, 0, 0, 0xFF, 0xFF, 0xFF, 0xFF])] })]
        imageSizes := [([2], 3)]
        rawImages := [([2], [7, 8, 9]), ([], [0xAA, 0xBB])] } }

/-- After MAP_RAM of 1 MiB. -/
def mapped : State :=
  { State.zeroed kernelMachine [] with bootState := .ramMapped, regions := [ram], ramSize := 0x100000 }

/-- The same without a kernel path. -/
def romMachine : State := { mapped with cfg := { kernelMachine with kernelPath := none } }

theorem test_mapRam :
    (run (State.zeroed kernelMachine []) [0x50000000, 0x100000]).map (fun t => (t.bootState, t.regions, t.ramSize)) =
      some (.ramMapped, [ram], 0x100000) := by decide
theorem test_mapRam_no_memory :
    (run (State.zeroed { kernelMachine with hostAlloc := [] } []) [0x50000000, 0x100000]).map State.fatal =
      some (some (.ramAllocation 0x100000)) := by decide

/-- P3: the entry point replaces the segment's bytes at 4, and the COMMAND_LINE record. -/
theorem test_bootKernel :
    (run mapped [0x51000000]).map (fun t => (t.bootState, peek t 0 8, peek t 0x206E 8)) =
      some (.ready, [0, 1, 0, 0, 0, 0, 0x10, 0], [0, 7, 0, 8, 0x72, 0x6F, 0, 0]) := by decide

/-- L1.6: the initrd at `R - S` rounded down, its record, then LAST. -/
theorem test_bootKernel_initrd :
    (run mapped [0x51000000]).map (fun t => (peek t 0xFF000 3, peek t 0x2076 16)) =
      some ([7, 8, 9], [0, 6, 0, 12, 0, 0x0F, 0xF0, 0, 0, 0, 0, 3, 0, 0, 0, 4]) := by decide

theorem test_bootRom :
    (run romMachine [0x52000000]).map (fun t => (t.bootState, peek t 0x40000000 3, (t.regionAt 0x40000003).map Region.readOnly)) =
      some (.ready, [0xAA, 0xBB, 0], some true) := by decide

/-- L1.7: one byte too long. -/
theorem test_bootRom_too_long :
    (run { romMachine with cfg := { romMachine.cfg with romSize := 1 } } [0x52000000]).map State.fatal = some (some (.romLoad [])) := by
  decide

/-- R2. -/
theorem test_coldStart :
    (run (poke (poke { mapped with bootState := .ready } 0 0x4000) 4 0x40800030) [0x53000000]).map
      (fun t => (t.readSr, t.a[7], t.currentSp, t.pc, t.bootState)) =
        some (0x2700, 0x4000, .interrupt, 0x40800030, .running) := by decide

/-- R5: the read of address 4 fails. -/
theorem test_coldStart_failure :
    (run { mapped with bootState := .ready, cfg := { mapped.cfg with resetLoadsSsp := false }, regions := [] } [0x53000000]).map
      (fun t => (t.halted, t.bootState)) = some (true, .running) := by decide

/-- B10: after a fatal error no command has a step. -/
theorem test_fatal : exec .rdPc { full with fatal := some (.bootWrite 4) } = .fault (.fatal (.bootWrite 4)) := rfl

/-! ## Words in the opcode table's numbering, from the state right after reset -/

theorem test_decodeTableWord :
    decodeTableWord 32 0x01050000 = some (.rdD 5) ∧ decodeTableWord 32 0x0E020000 = some (.wrFp 2 0) ∧
      decodeTableWord 64 0x0000000702030000 = some (.wrD 3 7) ∧ decodeTableWord 32 0x42010000 = none := by decide

theorem test_withFetchWord : ∀ w ∈ [0x02030000, 0x08000000, 0x1000001B, 0x31000002, 0x40030018, 0x43000000, 0x51000000, 0x52000000,
    0x53000000, 0x50000000], (match step (State.reset.withFetchWord 32 w) with | .next _ => true | _ => false) = true := by decide

/-! ## Witnesses: the hypotheses of the statements are met, clause by clause, at the ends of their ranges -/

/-! ### Encoding and steps -/

theorem witness_DecodeInvertsEncode :
    (Instr.wrFp 7 (2 ^ 80 - 1)).wellFormed 80 = true ∧ (Instr.wrUr 0x1B 0xFFFFFFFFFFFFFFFF).wellFormed 80 = true ∧
      (Instr.wrUr 0x17 0xFFFFFFFF).wellFormed 80 = true := by decide

theorem witness_EncodeInvertsDecode :
    decode 80 [0x0E070000, 0xFFFF, 0xFFFFFFFF, 0xFFFFFFFF, 5] = .ok (.wrFp 7 (2 ^ 80 - 1), [5]) := by decide

theorem witness_DecodableWords :
    (decode 80 [0x0E070000, 0xFFFF, 0xFFFFFFFF, 0xFFFFFFFF]).isOk = true ∧
      (decode 80 [0x0E070000, 0x10000, 0, 0]).isOk = false ∧ (decode 80 [0x0E070000, 0, 0]).isOk = false ∧
      (decode 80 [0x10000018, 0]).isOk = false ∧ (decode 80 [0x10000017, 0]).isOk = true := by decide

/-- The state with commands issued. -/
def issued (s : State) (ws : List Word) : State := { s with inbox := ws }

theorem witness_StepPerformsTheNextCommand :
    let s := issued full [0x02070000, 5, 0x05000000]
    let u := issued full [0x02070000]
    (Instr.wrD 7 5).wellFormed s.cfg.fpBits = true ∧ s.inbox = encode s.cfg.fpBits (.wrD 7 5) ++ [0x05000000] ∧
      full.inbox = [] ∧ 1 < (encode u.cfg.fpBits (.wrD 7 5)).length ∧ u.inbox = (encode u.cfg.fpBits (.wrD 7 5)).take 1 := by decide

theorem witness_IllegalCommandsRefused :
    legalA 0x0B 3 = false ∧ legalB 0x40 0x100 = false ∧ (issued full [0x0B030000]).inbox = [commandWord 0x0B 3 0] ∧
      (issued full [0x40000100]).inbox = [commandWord 0x40 0 0x100] ∧ ([0x10000, 0, 0] : List Word).length = (full.cfg.fpBits + 31) / 32 ∧
      2 ^ full.cfg.fpBits ≤ joinDigits 32 ([0x10000, 0, 0] : List Word) ∧
      (mapped.fatal = none ∧ mapped.bootState ≠ .idle) ∧ (full.fatal = none ∧ full.bootState ≠ .ramMapped) ∧
      (romMachine.bootState = .ramMapped ∧ romMachine.cfg.kernelPath = none) ∧
      (mapped.bootState = .ramMapped ∧ mapped.cfg.kernelPath.isSome = true) ∧
      ¬ (full.bootState = .ready ∨ (full.bootState = .running ∧ full.halted = true)) := by decide

/-- The full machine with another stack pointer. -/
def withSp (v : Word) : State := { full with a := full.a.set 7 v }

/-- The full machine, halted. -/
def stuck : State := { full with halted := true }

theorem witness_HaltedBlockIsStuck :
    ¬ (withSp 0).EntryOk 4 ∧ stuck.fatal = none ∧ stuck.halted = true ∧ stuck.bootState = .running ∧
      Instr.rte.privClass ≠ .host ∧ Instr.mapRam 0 ≠ .coldStart := by decide

theorem witness_FatalIsTerminal :
    (Setup.initial.models.find? fun m => m.name == Setup.initial.cpuModel.getD Setup.initial.defaultCpuModel).isSome = true ∧
      ({ full with fatal := some (.bootWrite 4) } : State).fatal = some (.bootWrite 4) := by decide

theorem witness_EngineWaitsForColdStart :
    (mapped.fatal = none ∧ mapped.halted = false ∧ mapped.bootState ≠ .running) ∧ full.Running ∧ Instr.ctx.privClass ≠ .host := by
  decide

/-! ### Registers -/

/-- The hypotheses of the statements about the engine's commands: the block runs, in supervisor mode and in user mode. -/
theorem witness_running :
    (full.Running ∧ full.supervisor = true) ∧ (inUser full).Running ∧ (inUser full).supervisor = false := by decide

theorem witness_ProgramCounterWriters : ∃ t, exec (.wrPc 2) full = .next t ∧ t.pc ≠ full.pc := ⟨_, rfl, by decide⟩

theorem witness_PlainFlags :
    full.ccOp = .flags ∧ ({ full with ccOp := .logic .long } : State).ccOp = .logic .long ∧
      ({ full with ccOp := .shift .byte } : State).ccOp = .shift .byte := by decide

/-- A record with bits above its width. -/
def record (kind : CcKind) (dest src : Word) : State := { full with ccOp := kind, ccDest := dest, ccSrc := src }

theorem witness_FlagsMatchReferenceAlu :
    (record (.add .byte) 0xFF80 0xAA01).ccDest.setWidth (widthBits .byte) = (0x7F : BitVec (widthBits .byte)) + 1 ∧
      (record (.add .byte) 0xFF80 0xAA01).ccSrc.setWidth (widthBits .byte) = (1 : BitVec (widthBits .byte)) ∧
      (record (.addx .long) 0 0xFFFFFFFF).ccDest.setWidth (widthBits .long) = (0 : BitVec (widthBits .long)) + 0xFFFFFFFF + 1 ∧
      (record (.sub .word) 0x10001 0xFFFF).ccDest.setWidth (widthBits .word) = (0 : BitVec (widthBits .word)) - 0xFFFF ∧
      (record (.subx .word) 0x7FFF 0).ccDest.setWidth (widthBits .word) = (0x8000 : BitVec (widthBits .word)) - 0 - 1 := by decide

theorem witness_StackSlotAccess :
    full.Running ∧ full.supervisor = true ∧ SpSlot.interrupt = full.currentSp ∧ SpSlot.user ≠ full.currentSp := by decide

theorem witness_StackSwitch : full.sel full.readSr = full.currentSp ∧ full.sel 0x2000 = full.currentSp := by decide

theorem witness_SlotSelection :
    (0xDFFF : Half).getLsbD 13 = false ∧ (0x2000 : Half).getLsbD 13 = true ∧ (live []).has .m68000 = false ∧
      full.has .m68000 = true ∧ (0x3000 : Half).getLsbD 12 = true ∧ (0x2000 : Half).getLsbD 12 = false := by decide

theorem witness_FloatingPointAccess :
    full.has .fpu = true ∧ full.fp[7] < 2 ^ full.cfg.fpBits ∧ 2 ^ 80 - 1 < 2 ^ full.cfg.fpBits ∧ bare.has .fpu = false ∧
      ([0, 0, 0] : List Word).length = (80 + 31) / 32 := by decide

theorem witness_UnitRegisters :
    full.has .emac = true ∧ bare.has .emac = false ∧ (live [.mac]).has .mac = true ∧
      (0x02 : Half).toNat ∉ [0x00, 0x01, 0x10, 0x11, 0x18, 0x19, 0x1A, 0x1B] ∧
      (0x1C : Half).toNat ∉ [0x00, 0x01, 0x10, 0x11, 0x18, 0x19, 0x1A, 0x1B] ∧
      ¬ (0x18 ≤ (0x17 : Half).toNat ∧ (0x17 : Half).toNat ≤ 0x1B) ∧ 0x18 ≤ (0x1B : Half).toNat ∧ (0x1B : Half).toNat ≤ 0x1B := by decide

theorem witness_ControlRegisters :
    full.has .mmu = true ∧ bare.has .mmu = false ∧ bare.Running ∧ bare.supervisor = true ∧
      (0x005 : Half).toNat ∉ [0, 1, 2, 3, 4, 0x10, 0x11, 0x20, 0x21, 0x22, 0x23, 0x24, 0x25, 0x26, 0x27] ∧
      (0x028 : Half).toNat ∉ [0, 1, 2, 3, 4, 0x10, 0x11, 0x20, 0x21, 0x22, 0x23, 0x24, 0x25, 0x26, 0x27] := by decide

/-- RAISE of PRIVILEGE enters vector 8 without a check of the mode. -/
theorem witness_UserModeIsChecked_raise :
    ∃ t, exec (.raise .privilege 0) full = .next t ∧ t.reply = .exception 8 := ⟨_, rfl, by decide⟩

theorem witness_UserModeIsChecked :
    (inUser full).Running ∧ (inUser full).supervisor = false ∧ Instr.rte.privClass = .supervisor := by decide

theorem witness_ModeChanges :
    (∃ t, exec (.raise (.trap 0) 0x1004) (inUser full) = .next t ∧ (inUser full).supervisor = false ∧ t.supervisor = true) ∧
      ∃ t, exec (.wrSr 0xFFFFDFFF) full = .next t ∧ full.supervisor = true ∧ t.supervisor = false :=
  ⟨⟨_, rfl, by decide, by decide⟩, ⟨_, rfl, by decide, by decide⟩⟩

theorem witness_MmuStatusWriter : ∃ t, exec (.wrCr 0x004 7) full = .next t ∧ t.mmusr ≠ full.mmusr := ⟨_, rfl, by decide⟩

theorem witness_ConfigurationIsFixed : ∃ t, step (issued full [0x05000000]) = .next t := ⟨_, rfl⟩

/-! ### Exceptions and interrupts -/

theorem witness_InterruptAssertion :
    mapped.fatal = none ∧ stuck.fatal = none ∧ { full with fatal := some (.bootWrite 4) }.fatal = some (.bootWrite 4) := by decide

theorem witness_PendingInterruptWriter :
    (∃ t, exec .rdPc full = .next t) ∧ ∀ level vector, Instr.rdPc ≠ .intPend level vector := ⟨⟨_, rfl⟩, by simp⟩

/-- A pending interrupt of the given level, with mask 2. -/
def pendingAt (level : BitVec 3) : State := { full with srHi := 0x22, pendingLevel := level, pendingVector := 27 }

theorem witness_InterruptSampling :
    (pendingAt 2).Running ∧ (pendingAt 2).pendingLevel ≤ (pendingAt 2).mask ∧
      (pendingAt 3).mask < (pendingAt 3).pendingLevel ∧ (pendingAt 3).EntryOk (pendingAt 3).pendingVector := by decide

theorem witness_InterruptNotTakenTwice :
    (pendingAt 7).Running ∧ (pendingAt 7).mask < (pendingAt 7).pendingLevel ∧ (pendingAt 7).EntryOk (pendingAt 7).pendingVector := by
  decide

theorem witness_SynchronousEntry :
    full.Running ∧ Kind.trap 15 ≠ .reset ∧ full.EntryOk (vectorOf (.trap 15)) ∧ full.EntryOk (vectorOf .access) := by decide

/-- Where RAM is the only region, the addresses below its size are writable. -/
theorem ram_writable {s : State} (hs : s.regions = [ram]) (a : Word) (h : a.toNat < 0x100000) : s.Writable a := by
  have hr : ram.holds a = true := by simpa [Region.holds, ram] using h
  rw [State.Writable, State.regionAt, hs]
  simp only [List.find?, hr]
  rfl

theorem full_writable (a : Word) (h : a.toNat < 0x100000) : full.Writable a := ram_writable rfl a h

/-- Without translation the items of a frame do not overlap. -/
theorem frameApart_of_identity {s : State} (h : s.cfg.xlate = []) : s.FrameApart := by
  have hx : ∀ a, s.xlateS a = a := fun a => by simp [State.xlateS, h]
  intro b
  simp only [hx, Within]
  refine ⟨?_, ?_, ?_⟩ <;> bv_omega

theorem full_frameFits : full.FrameFits where
  format := by
    intro i hi
    exact full_writable _ (by rw [show full.xlateS (full.entrySp - 2) = 0xFFFE by decide]; bv_omega)
  pc := by
    intro i hi
    exact full_writable _ (by rw [show full.xlateS (full.entrySp - 6) = 0xFFFA by decide]; bv_omega)
  status := by
    intro i hi
    exact full_writable _ (by rw [show full.xlateS (full.entrySp - 8) = 0xFFF8 by decide]; bv_omega)
  apart := frameApart_of_identity rfl

theorem witness_EntryFrame : Memory.wf full.mem = true ∧ full.EntryOk 255 ∧ full.FrameFits :=
  ⟨by decide, by decide, full_frameFits⟩

/-- The full machine with a vector table outside RAM. -/
def noTable : State := { full with vbr := 0xF0000000 }

/-- Each place where entry can fail: the first, the second, the third item, and the vector; and in the last two the items
written before lie on writable bytes, apart from each other. -/
theorem witness_EntryFailureHalts :
    (¬ (withSp 0).EntryOk 4 ∧ (withSp 0).memAccessOk ((withSp 0).xlateS ((withSp 0).entrySp - 2)) 2 .write = false) ∧
    ((withSp 2).memAccessOk ((withSp 2).xlateS ((withSp 2).entrySp - 2)) 2 .write = true ∧
      (withSp 2).memAccessOk ((withSp 2).xlateS ((withSp 2).entrySp - 6)) 4 .write = false) ∧
    ((withSp 6).memAccessOk ((withSp 6).xlateS ((withSp 6).entrySp - 6)) 4 .write = true ∧
      (withSp 6).memAccessOk ((withSp 6).xlateS ((withSp 6).entrySp - 8)) 2 .write = false) ∧
    (¬ noTable.EntryOk 32 ∧ noTable.memAccessOk (noTable.xlateS (noTable.entrySp - 8)) 2 .write = true) ∧
    ((∀ i < 2, (withSp 2).Writable ((withSp 2).xlateS ((withSp 2).entrySp - 2) + BitVec.ofNat 32 i)) ∧
      (∀ i < 2, (withSp 6).Writable ((withSp 6).xlateS ((withSp 6).entrySp - 2) + BitVec.ofNat 32 i)) ∧
      (∀ i < 4, (withSp 6).Writable ((withSp 6).xlateS ((withSp 6).entrySp - 6) + BitVec.ofNat 32 i)) ∧
      (∀ i < 2, noTable.Writable (noTable.xlateS (noTable.entrySp - 8) + BitVec.ofNat 32 i)) ∧
      Memory.wf full.mem = true) := by decide

theorem witness_EntryFailureHalts_apart : (withSp 6).FrameApart ∧ noTable.FrameApart :=
  ⟨frameApart_of_identity rfl, frameApart_of_identity rfl⟩

theorem witness_ReturnEffect :
    ((inUser full).Running ∧ (inUser full).supervisor = false) ∧
    (withSp 0xFFFFC).memAccessOk ((withSp 0xFFFFC).xlateS ((withSp 0xFFFFC).a[7] + 2)) 4 .read = false ∧
    full.memAccessOk (full.xlateS full.a[7]) 2 .read = true ∧ full.memAccessOk (full.xlateS (full.a[7] + 2)) 4 .read = true ∧
    full.memAccessOk (full.xlateS (full.a[7] + 6)) 2 .read = true ∧
    (full.halfAt 2 (full.xlateS (full.a[7] + 6))).extractLsb' 12 4 = 0 ∧
    ((poke full 0x10004 0x00001080).halfAt 2 (full.xlateS (full.a[7] + 6))).extractLsb' 12 4 ≠ 0 := by decide

theorem full_inv : full.Inv where
  memory := by decide
  spLive := by unfold State.SpLive; decide
  fpBounded := by unfold State.FpBounded; decide
  absentZero := by unfold State.AbsentZero; decide
  map := by change full.regions = [full.ramRegion]; decide
  order := by unfold State.BootOrder; decide

theorem witness_ReturnUndoesEntry :
    full.Inv ∧ full.Running ∧ Kind.trap 0 ≠ .reset ∧ full.EntryOk (vectorOf (.trap 0)) ∧ full.FrameFits :=
  ⟨full_inv, by decide, by decide, by decide, full_frameFits⟩

/-! ### Boot and cold start -/

theorem witness_ColdStartEffect :
    (({ mapped with bootState := .ready } : State).bootState = .ready ∧ mapped.fatal = none ∧ mapped.memAccessOk 0 4 .read = true ∧
      mapped.memAccessOk 4 4 .read = true) ∧
    (stuck.fatal = none ∧ stuck.bootState = .running ∧ stuck.halted = true) ∧
    ¬ (full.bootState = .ready ∨ (full.bootState = .running ∧ full.halted = true)) ∧
    (State.zeroed kernelMachine []).memAccessOk 0 4 .read = false ∧ (State.zeroed kernelMachine []).cfg.resetLoadsSsp = true := by decide

theorem witness_RamMapping :
    let s := State.zeroed kernelMachine []
    (s.fatal = none ∧ s.halted = false ∧ s.bootState = .idle) ∧
    (s.cfg.hostAlloc.any fun sp => inSpan sp (0xFFFFFFFF : Word).toNat) = true ∧
    (({ kernelMachine with hostAlloc := [⟨1, 4⟩] } : Config).hostAlloc.any fun sp => inSpan sp (0 : Word).toNat) = false ∧
    ((s.cfg.hostAlloc.any fun sp => inSpan sp (0 : Word).toNat) = true ∧ s.regions = []) ∧
    mapped.bootState ≠ .idle := by decide

/-- The machine without an initrd. -/
def noInitrd : State := { mapped with cfg := { kernelMachine with initrdPath := none } }

/-- The image of the kernel machine. -/
def kernelImage : ExecImage :=
  { size := 10, entry := 0x1000, highest := 0x2001, segs := [(0, [0, 1, 0, 0, 0xFF, 0xFF, 0xFF, 0xFF])] }

/-- Every byte of a list lies in RAM. -/
def inRam (ws : List (Word × Byte)) : Bool := ws.all fun w => decide (w.1.toNat < 0x100000)

theorem writable_of_inRam {s : State} {ws : List (Word × Byte)} (hs : s.regions = [ram]) (h : inRam ws = true) :
    ∀ w ∈ ws, s.Writable w.1 := fun w hw => ram_writable hs w.1 (by simpa using List.all_eq_true.mp h w hw)

theorem kernelMachine_bytes_inRam : inRam (bootBytes mapped kernelImage (some (3, [7, 8, 9]))) = true := by decide +kernel

theorem noInitrd_bytes_inRam : inRam (bootBytes noInitrd kernelImage none) = true := by decide +kernel

theorem witness_KernelBoot :
    (mapped.fatal = none ∧ mapped.halted = false ∧ mapped.bootState = .ramMapped ∧ mapped.cfg.kernelPath = some [1] ∧
      mapped.cfg.loader.executables.lookup [1] = some kernelImage ∧ Memory.wf mapped.mem = true) ∧
    (mapped.InitrdIs (some (3, [7, 8, 9])) ∧ ∀ w ∈ bootBytes mapped kernelImage (some (3, [7, 8, 9])), mapped.Writable w.1) ∧
    noInitrd.InitrdIs none ∧ ∀ w ∈ bootBytes noInitrd kernelImage none, noInitrd.Writable w.1 :=
  ⟨by decide, ⟨⟨3, [7, 8, 9], by decide, by decide, by decide, rfl⟩, writable_of_inRam rfl kernelMachine_bytes_inRam⟩, rfl,
    writable_of_inRam rfl noInitrd_bytes_inRam⟩

/-- The machine whose loader has the size of the initrd and not its bytes. -/
def noRawInitrd : State :=
  { mapped with cfg := { kernelMachine with loader := { kernelMachine.loader with rawImages := [] } } }

/-- An image with a segment outside RAM. -/
def strayImage : ExecImage := { kernelImage with segs := [(0xFFFFF, [1, 2])] }

/-- An image that leaves room for the leading records alone. -/
def tightImage : ExecImage := { kernelImage with highest := 0xFFF8C }

theorem mapped_initrdLoads : mapped.InitrdLoads [2] 3 [7, 8, 9] := ⟨by decide, by decide, by decide, by decide⟩

theorem noRawInitrd_fails (size : Nat) (raw : Bytes) : ¬ noRawInitrd.InitrdLoads [2] size raw := fun h => nomatch h.image

/-- Each way a kernel boot can end: no image, a segment that fails, an initrd that fails, a record after the initrd that
fails, and no failure with and without an initrd. -/
theorem witness_KernelBootFailure :
    (mapped.fatal = none ∧ mapped.halted = false ∧ mapped.bootState = .ramMapped ∧ mapped.cfg.kernelPath = some [1]) ∧
    kernelMachine.loader.executables.lookup [2] = none ∧ (kernelMachine.loader.executables.lookup [1]).isSome = true ∧
    mapped.cfg.initrdPath = some [2] ∧ mapped.InitrdPassed (some 3) ∧ noInitrd.InitrdPassed none :=
  ⟨by decide, by decide, by decide, by decide, ⟨3, [7, 8, 9], mapped_initrdLoads, rfl⟩, rfl⟩

theorem witness_KernelBootFailure_writes :
    mapped.failedWrite (leadingWrites mapped strayImage) = some 0x100000 ∧
    noRawInitrd.failedWrite (leadingWrites noRawInitrd kernelImage) = none ∧
    mapped.failedWrite (leadingWrites mapped tightImage) = none ∧
    mapped.failedWrite (trailingWrites mapped tightImage (some 3)) = some 0x100000 ∧
    mapped.failedWrite (trailingWrites mapped kernelImage (some 3)) = none := by decide +kernel

theorem witness_ParametersBase :
    ((0x1000 : Word).getLsbD 0 = false ∧ parametersBase 0x1000 = 0x1000) ∧
    ((0x1001 : Word).getLsbD 0 = true ∧ parametersBase 0x1001 = 0x1002) ∧ parametersBase 0xFFFFFFFF = 0 := by decide

theorem witness_InitrdPlacement :
    0x00123456 ≤ (0x08000000 : Word).toNat ∧ initrdBase 0x08000000 0x00123456 = 0x07EDC000 ∧
      0x08000000 ≤ (0x08000000 : Word).toNat ∧ initrdBase 0x00100000 0x00200000 = 0xFFF00000 := by decide

theorem witness_BootRecordLayout : kernelMachine.tags = { last := 0 } := by decide

theorem witness_LeadingRecordPayloads :
    (kernelMachine.cmdline.isSome = true ∧ Config.initial.cmdline = none) ∧ Config.initial.profile.videoRowStride = none ∧
      ({ Config.initial.profile with videoRowStride := some 0x400 } : BootProfile).videoRowStride = some 0x400 := by decide

theorem romMachine_inv : romMachine.Inv where
  memory := by decide
  spLive := by unfold State.SpLive; decide
  fpBounded := by unfold State.FpBounded; decide
  absentZero := by unfold State.AbsentZero; decide
  map := by change romMachine.regions = [romMachine.ramRegion]; decide
  order := by unfold State.BootOrder; decide

/-- The image is as long as the region, longer than it, and missing. -/
theorem witness_RomBoot :
    romMachine.Inv ∧ (romMachine.fatal = none ∧ romMachine.bootState = .ramMapped ∧ romMachine.cfg.kernelPath = none) ∧
    (kernelMachine.loader.rawImages.lookup [] = some [0xAA, 0xBB] ∧ ([0xAA, 0xBB] : Bytes).length ≤ 2) ∧
    ¬ ([0xAA, 0xBB] : Bytes).length ≤ 1 ∧ kernelMachine.loader.rawImages.lookup [9] = none ∧
    (full.fatal = none ∧ full.bootState ≠ .ramMapped) ∧ mapped.cfg.kernelPath.isSome = true :=
  ⟨romMachine_inv, by decide, by decide, by decide, by decide, by decide, by decide⟩

/-- A running machine with a protected ROM at 0x40000000. -/
def withRom (write : RomWrite) : State :=
  { full with
    cfg := { full.cfg with kernelPath := none, romWrite := write }
    regions := [{ kind := .rom, base := 0x40000000, size := 4, readOnly := true }, ram] }

theorem witness_RomIsImmutable :
    (∃ t, exec (.wrD 0 1) (withRom .ignore) = .next t) ∧ (withRom .ignore).bootState = .running ∧
      ((withRom .ignore).regionAt 0x40000003).any Region.readOnly = true := ⟨⟨_, rfl⟩, by decide, by decide⟩

theorem witness_MemoryWriters :
    ∃ t, exec (.raise (.trap 0) 0x1004) full = .next t ∧
      Memory.read t.mem (0xFFF8 : Word).toNat ≠ Memory.read full.mem (0xFFF8 : Word).toNat := ⟨_, rfl, by decide⟩

/-! ### Memory and construction -/

/-- The last four bytes of RAM. -/
theorem witness_BigEndianAccess :
    Memory.wf full.mem = true ∧ (4 ≤ 2 ^ 32) ∧ ∀ i < 4, full.Writable (0xFFFFC + BitVec.ofNat 32 i) := by decide

theorem witness_MixedWidthView : Memory.wf full.mem = true ∧ ∀ i < 4, full.Writable (0 + BitVec.ofNat 32 i) := by decide

theorem witness_AccessSuccess :
    (∀ i < 4, full.Writable (0xFFFFC + BitVec.ofNat 32 i)) ∧
    (∀ i < 4, ((withRom .ignore).regionAt (0x40000000 + BitVec.ofNat 32 i)).isSome = true) ∧
    (∃ i < 4, ((withRom .accessError).regionAt (0x40000000 + BitVec.ofNat 32 i)).any Region.readOnly = true) ∧
    (withRom .accessError).cfg.romWrite = .accessError ∧ (withRom .ignore).cfg.romWrite = .ignore ∧
    (¬ (∀ i < 4, ((withRom .ignore).regionAt (0x40000002 + BitVec.ofNat 32 i)).isSome = true) ∧
      ∃ i < 4, ((withRom .ignore).regionAt (0x40000002 + BitVec.ofNat 32 i)).any Region.readOnly = true) ∧
    (¬ ∀ i < 4, (full.regionAt (0xFFFFD + BitVec.ofNat 32 i)).isSome = true) ∧
    ¬ ∃ i < 4, (full.regionAt (0xFFFFD + BitVec.ofNat 32 i)).any Region.readOnly = true := by decide

theorem witness_CanonicalMemoryIsUnique : Memory.wf [(5, 1), (0xFFFFFFFF, 2)] = true := by decide

theorem witness_ConstructionValues :
    (Setup.initial.models.find? fun m => m.name == Setup.initial.cpuModel.getD Setup.initial.defaultCpuModel).isSome = true ∧
      ({ Setup.initial with cpuModel := some [1] } : Setup).models.find? (fun m => m.name == [1]) = none := by decide

theorem witness_ConstructionInvariant : Memory.wf [(0, 1), (0xFFFFFFFF, 0xFF)] = true := by decide

theorem witness_StepKeepsInvariant :
    (issued full [0x05000000]).Inv ∧ ∃ t, step (issued full [0x05000000]) = .next t :=
  ⟨⟨full_inv.memory, full_inv.spLive, full_inv.fpBounded, full_inv.absentZero, full_inv.map, full_inv.order⟩, ⟨_, rfl⟩⟩

end Sys2Proof.Tests
end

section
/-! PROOFS. The rules of 10_state.md: what construction leaves, who writes `PC` and the pending interrupt, the stack-pointer
switch, the halt and the fatal error, and the invariant of the block, clause by clause. -/

namespace Sys2Proof.Machine

variable {s t : State} {i : Instr}

/-! ## Construction -/

/-- The CPU model construction looks for (10_state.md rule R49). -/
abbrev modelOf (setup : Setup) : Option CpuModel :=
  setup.models.find? fun m => m.name == setup.cpuModel.getD setup.defaultCpuModel

/-- The configuration of a machine of a known CPU model (44_boot.md rule R252). -/
def configOf (setup : Setup) (m : CpuModel) : Config :=
  { setup.machine with features := m.features, initialSr := m.initialSr.getD Config.defaultInitialSr }

theorem construct_known {setup : Setup} {m : CpuModel} (h : modelOf setup = some m) (draw : Memory) :
    State.construct setup draw = State.zeroed (configOf setup m) draw := by
  unfold State.construct
  dsimp only
  split
  · next hm => cases hm.symm.trans h; rfl
  · next hm => cases hm.symm.trans h

theorem construct_unknown {setup : Setup} (h : modelOf setup = none) (draw : Memory) :
    State.construct setup draw =
      (State.zeroed setup.machine draw).die (.unknownModel (setup.cpuModel.getD setup.defaultCpuModel)) := by
  unfold State.construct
  dsimp only
  split
  · next hm => cases hm.symm.trans h
  · rfl

/-- Construction zeroes every component; an unknown model only adds the fatal error. -/
theorem construct_cases (setup : Setup) (draw : Memory) :
    (∃ cfg, State.construct setup draw = State.zeroed cfg draw) ∨
      ∃ cfg r, State.construct setup draw = (State.zeroed cfg draw).die r := by
  cases h : modelOf setup with
  | some m => exact .inl ⟨_, construct_known h draw⟩
  | none => exact .inr ⟨_, _, construct_unknown h draw⟩

/-- Every component at its construction value but `fatal` and the outcome, which a known and an unknown model set apart. -/
theorem construct_zeroed (setup : Setup) (draw : Memory) :
    ∃ cfg f a, State.construct setup draw = { State.zeroed cfg draw with fatal := f, reply := a } := by
  rcases construct_cases setup draw with ⟨cfg, e⟩ | ⟨cfg, r, e⟩
  · exact ⟨cfg, none, .done [], e⟩
  · exact ⟨cfg, some r, .fatal r, e⟩

theorem construct_halted (setup : Setup) (draw : Memory) : (State.construct setup draw).halted = false := by
  rcases construct_cases setup draw with ⟨cfg, e⟩ | ⟨cfg, r, e⟩ <;> rw [e] <;> rfl

/-! ## A step -/

theorem refuse_ne_next (e : DecodeError) : refuse e ≠ .next t := by
  cases e <;> exact nofun

/-- A step that answers a next state performs the command its first words spell. -/
theorem exec_of_step (h : step s = .next t) :
    ∃ i rest, decode s.cfg.fpBits s.inbox = .ok (i, rest) ∧ exec i { s with inbox := rest } = .next t := by
  unfold step at h
  split at h
  · next i rest hd => exact ⟨i, rest, hd, h⟩
  · next e _ => exact absurd h (refuse_ne_next e)

theorem effect_of_step (h : step s = .next t) :
    ∃ i rest, decode s.cfg.fpBits s.inbox = .ok (i, rest) ∧ Effect { s with inbox := rest } i t := by
  obtain ⟨i, rest, hd, he⟩ := exec_of_step h
  exact ⟨i, rest, hd, effect_of_exec he⟩

/-! ## Frames of parts of commands -/

theorem withReads_unchanged (s : State) (n : Nat) : Unchanged [.reads] s (s.withReads n) := by
  intro p hp
  cases p <;> first | rfl | exact ⟨rfl, rfl⟩ | exact ⟨rfl, rfl, rfl, rfl⟩ | exact fun _ => rfl | exact absurd (by simp) hp

/-- What an entry leaves alone, reads made before it included. -/
theorem enter_withReads_unchanged (s : State) (n : Nat) (c : Cause) (v : Byte) (r : Word) (m : BitVec 3) :
    Unchanged [.a, .pc, .srHi, .record, .spSlots, .currentSp, .mem, .halted, .reply, .reads] s
      ((s.withReads n).enter c v r m) :=
  ((withReads_unchanged s n).mono (by simp)).trans (enter_unchanged (s.withReads n) c v r m)

/-- What a pop leaves alone, the reads before it included. -/
theorem popFrame_withReads_unchanged (s : State) (n : Nat) (sr : Half) (pc : Word) :
    Unchanged [.a, .pc, .srHi, .record, .spSlots, .currentSp, .reply, .reads] s ((s.withReads n).popFrame sr pc) :=
  ((withReads_unchanged s n).mono (by simp)).trans ((popFrame_unchanged (s.withReads n) sr pc).mono (by simp))

theorem withBootState_unchanged (s : State) (b : BootState) : Unchanged [.bootState] s { s with bootState := b } := by
  intro p hp
  cases p <;> first | rfl | exact ⟨rfl, rfl⟩ | exact ⟨rfl, rfl, rfl, rfl⟩ | exact fun _ => rfl | exact absurd (by simp) hp

theorem mapRom_unchanged (s : State) : Unchanged [.regions, .bootState] s s.mapRom := by
  intro p hp
  cases p <;> first | rfl | exact ⟨rfl, rfl⟩ | exact ⟨rfl, rfl, rfl, rfl⟩ | exact fun _ => rfl | exact absurd (by simp) hp

theorem protectRom_unchanged (s : State) : Unchanged [.regions] s s.protectRom := by
  intro p hp
  cases p <;> first | rfl | exact ⟨rfl, rfl⟩ | exact ⟨rfl, rfl, rfl, rfl⟩ | exact fun _ => rfl | exact absurd (by simp) hp

/-- The state BOOT_ROM leaves when the firmware loads into memory `M`. -/
abbrev State.romLoaded (s : State) (M : Memory) : State :=
  { (s.mapRom.withMem M).protectRom with bootState := .ready }.done []

/-- What BOOT_ROM leaves alone when the firmware loads. -/
theorem romLoaded_unchanged (s : State) (M : Memory) :
    Unchanged [.mem, .regions, .bootState, .reply] s (s.romLoaded M) :=
  (((((mapRom_unchanged s).mono (by simp)).trans ((withMem_unchanged _ M).mono (by simp))).trans
    ((protectRom_unchanged _).mono (by simp))).trans ((withBootState_unchanged _ .ready).mono (by simp))).trans
    ((done_unchanged _ []).mono (by simp))

/-- What a boot command that first sets the boot state leaves alone. -/
theorem BootEffect.unchanged_withBoot {b : BootState} {x : Except State State} (h : BootEffect { s with bootState := b } x) :
    Unchanged [.mem, .bootState, .fatal, .reply] s (bootEnd x) :=
  ((withBootState_unchanged s b).mono (by simp)).trans h.unchanged

/-! ## The clauses of the invariant, one by one -/

/-- Every command keeps the canonical form of the memory. -/
theorem Effect.memory (h : Effect s i t) (hm : Memory.wf s.mem = true) : Memory.wf t.mem = true := by
  cases h with
  | entered _ n c v r m => exact (enter_kept (s.withReads n) c v r m).wf hm
  | cold => rw [coldStart_mem]; exact hm
  | kernel _ _ _ _ hx => cases hx with | ok h | write h | initrd h => exact h.wf hm
  | romLoaded _ _ _ _ hM => exact hM.wf hm
  | wrSp | wrUr | wrCr => simpa using hm
  | _ => exact hm

/-- After a pop the live slot is the one the status register selects. -/
theorem popFrame_spLive (s : State) (sr : Half) (pc : Word) : (s.popFrame sr pc).SpLive := by
  rw [State.SpLive, popFrame_currentSp, popFrame_readSr]
  exact (selectSlot_mask _ sr).symm

/-- Every command leaves the slot live that the status register selects (10_state.md rule R35): what writes the status register
switches the stack pointer. -/
theorem Effect.spLive (h : Effect s i t) (hs : s.SpLive) : t.SpLive := by
  cases h with
  | wrSr => exact spLive_setSr s _
  | entered _ n c v r m => exact (enter_status (s.withReads n) c v r m).2
  | popped => exact popFrame_spLive _ _ _
  | cold => exact coldStart_live s
  | kernel _ _ _ _ hx =>
    exact spLive_of_eq hs (hx.unchanged .currentSp (by simp)) (hx.unchanged .srHi (by simp)) (hx.unchanged .cfg (by simp))
  | @romLoaded _ _ _ _ M =>
    have hu := romLoaded_unchanged s M
    exact spLive_of_eq hs (hu .currentSp (by simp)) (hu .srHi (by simp)) (hu .cfg (by simp))
  | wrSp | wrUr | wrCr => exact spLive_of_eq hs (by simp) (by simp) (by simp)
  | _ => exact spLive_of_eq hs rfl rfl rfl

/-! ### The registers of the units -/

/-- The components that `FpBounded` and `AbsentZero` speak of. -/
abbrev unitParts : List Part := [.fp, .fpcr, .fpsr, .acc, .macMask, .macsr, .root, .ttr, .tcr, .mmusr, .cfg]

/-- The registers of the units and the configuration are the same. -/
def SameUnits (s t : State) : Prop := ∀ p ∈ unitParts, p.Same s t

theorem Unchanged.sameUnits {l : List Part} (h : Unchanged l s t) (hl : ∀ p ∈ unitParts, p ∉ l) : SameUnits s t :=
  fun p hp => h p (hl p hp)

theorem SameUnits.trans {u : State} (h1 : SameUnits s t) (h2 : SameUnits t u) : SameUnits s u :=
  fun p hp => (h1 p hp).trans (h2 p hp)

/-- A command writes a register of a unit only when the machine has it, and then that register alone of the units. -/
theorem Effect.units (h : Effect s i t) :
    SameUnits s t ∨ (s.has .fpu = true ∧ ∃ n v, SameUnits (s.setFp n v) t) ∨
      (∃ r v, s.unitPresent r = true ∧ SameUnits (s.writeUnit r v) t) ∨
      ∃ r v, s.ctrlPresent r = true ∧ SameUnits (s.writeCtrl r v) t := by
  have hdone : ∀ (u : State) ws, SameUnits u (u.done ws) := fun u ws => (done_unchanged u ws).sameUnits (by decide)
  cases h with
  | wrFp _ hf n v => exact .inr (.inl ⟨hf, n, v, hdone _ _⟩)
  | wrUr _ _ hp v => exact .inr (.inr (.inl ⟨_, v, hp, hdone _ _⟩))
  | wrCr _ _ _ hp v => exact .inr (.inr (.inr ⟨_, v, hp, hdone _ _⟩))
  | wrSp _ _ k v => exact .inl (((setSpSlot_unchanged s k v).sameUnits (by decide)).trans (hdone _ _))
  | entered _ n c v r m => exact .inl ((enter_withReads_unchanged s n c v r m).sameUnits (by decide))
  | cold => exact .inl ((coldStart_unchanged s).sameUnits (by decide))
  | popped _ _ n sr pc => exact .inl ((popFrame_withReads_unchanged s n sr pc).sameUnits (by decide))
  | kernel _ _ _ _ hx => exact .inl (hx.unchanged_withBoot.sameUnits (by decide))
  | romLoaded => exact .inl ((romLoaded_unchanged s _).sameUnits (by decide))
  | _ => exact .inl fun p hp => by fin_cases hp <;> rfl

/-! `FpBounded` and `AbsentZero` depend on these components alone. -/

theorem SameUnits.fpBounded (h : SameUnits s t) (hs : s.FpBounded) : t.FpBounded := by
  have hfp : t.fp = s.fp := h .fp (by decide)
  have hcfg : t.cfg = s.cfg := h .cfg (by decide)
  simpa only [State.FpBounded, hfp, hcfg] using hs

theorem SameUnits.absentZero (h : SameUnits s t) (hs : s.AbsentZero) : t.AbsentZero := by
  have hfp : t.fp = s.fp := h .fp (by decide)
  have hfpcr : t.fpcr = s.fpcr := h .fpcr (by decide)
  have hfpsr : t.fpsr = s.fpsr := h .fpsr (by decide)
  have hacc : t.acc = s.acc := h .acc (by decide)
  have hmask : t.macMask = s.macMask := h .macMask (by decide)
  have hmacsr : t.macsr = s.macsr := h .macsr (by decide)
  have hroot : t.root = s.root := h .root (by decide)
  have httr : t.ttr = s.ttr := h .ttr (by decide)
  have htcr : t.tcr = s.tcr := h .tcr (by decide)
  have hmmusr : t.mmusr = s.mmusr := h .mmusr (by decide)
  have hcfg : t.cfg = s.cfg := h .cfg (by decide)
  simp only [State.AbsentZero, State.hasMac, State.nAcc, State.has, hfp, hfpcr, hfpsr, hacc, hmask, hmacsr, hroot, httr,
    htcr, hmmusr, hcfg] at hs ⊢
  exact hs

theorem setFp_fpBounded (hs : s.FpBounded) (n : Fin 8) (v : Nat) : (s.setFp n v).FpBounded := by
  intro m
  change (s.fp.set n (v % 2 ^ s.cfg.fpBits))[m.val] < 2 ^ s.cfg.fpBits
  rw [Vector.getElem_set]
  split
  · exact Nat.mod_lt _ (Nat.two_pow_pos _)
  · exact hs m

theorem setFp_absentZero (hs : s.AbsentZero) (hf : s.has .fpu = true) (n : Fin 8) (v : Nat) :
    (s.setFp n v).AbsentZero := by
  obtain ⟨-, hmac, hacc, hmmu⟩ := hs
  exact ⟨fun hn => absurd (hf.symm.trans hn) (by decide), hmac, hacc, hmmu⟩

theorem writeUnit_absentZero (hs : s.AbsentZero) {r : UnitReg} (hp : s.unitPresent r = true) (v : Acc) :
    (s.writeUnit r v).AbsentZero := by
  obtain ⟨hfpu, hmac, hacc, hmmu⟩ := hs
  cases r with
  | fpcr | fpsr => exact ⟨fun hn => absurd (hp.symm.trans hn) (by decide), hmac, hacc, hmmu⟩
  | macsr | macMask => exact ⟨hfpu, fun hn => absurd (hp.symm.trans hn) (by decide), hacc, hmmu⟩
  | acc i =>
    refine ⟨hfpu, hmac, fun j hj => ?_, hmmu⟩
    have hi : i.val < s.nAcc := by simpa [State.unitPresent] using (Bool.and_eq_true_iff.mp hp).2
    have hij : i.val ≠ j.val := Nat.ne_of_lt (Nat.lt_of_lt_of_le hi hj)
    change (s.acc.set i.val v)[j.val] = 0
    rw [Vector.getElem_set_ne (h := hij)]
    exact hacc j hj

theorem writeCtrl_absentZero (hs : s.AbsentZero) {r : CtrlReg} (hp : s.ctrlPresent r = true) (v : Word) :
    (s.writeCtrl r v).AbsentZero := by
  obtain ⟨hfpu, hmac, hacc, hmmu⟩ := hs
  cases r with
  | sfc | dfc | vbr => exact ⟨hfpu, hmac, hacc, hmmu⟩
  | tcr | mmusr | root | ttr => exact ⟨hfpu, hmac, hacc, fun hn => absurd (hp.symm.trans hn) (by decide)⟩

/-- Every command keeps the floating-point registers within their width (10_state.md rule R42). -/
theorem Effect.fpBounded (h : Effect s i t) (hs : s.FpBounded) : t.FpBounded := by
  rcases h.units with h | ⟨-, n, v, h⟩ | ⟨r, v, -, h⟩ | ⟨r, v, -, h⟩
  · exact h.fpBounded hs
  · exact h.fpBounded (setFp_fpBounded hs n v)
  · exact h.fpBounded (by simpa [State.FpBounded] using hs)
  · exact h.fpBounded (by simpa [State.FpBounded] using hs)

/-- Every command leaves the registers of an absent unit at 0 (10_state.md rule R50). -/
theorem Effect.absentZero (h : Effect s i t) (hs : s.AbsentZero) : t.AbsentZero := by
  rcases h.units with h | ⟨hf, n, v, h⟩ | ⟨r, v, hp, h⟩ | ⟨r, v, hp, h⟩
  · exact h.absentZero hs
  · exact h.absentZero (setFp_absentZero hs hf n v)
  · exact h.absentZero (writeUnit_absentZero hs hp v)
  · exact h.absentZero (writeCtrl_absentZero hs hp v)

/-! ### The boot sequencer -/

/-- The address map's clause depends on these components alone. -/
theorem mapMatchesBoot_congr (hs : s.MapMatchesBoot) (hb : t.bootState = s.bootState) (hr : t.regions = s.regions)
    (hz : t.ramSize = s.ramSize) (hc : t.cfg = s.cfg) : t.MapMatchesBoot := by
  simpa only [State.MapMatchesBoot, State.ramRegion, hb, hr, hz, hc] using hs

/-- The map after MAP_RAM. -/
theorem mapMatchesBoot_ramMapped (hs : s.MapMatchesBoot) (hb : s.bootState = .ramMapped) : s.regions = [s.ramRegion] := by
  simpa only [State.MapMatchesBoot, hb] using hs

/-- The regions after BOOT_ROM: a protected ROM above those mapped before. -/
theorem romLoaded_regions (s : State) (M : Memory) :
    (s.romLoaded M).regions = { kind := .rom, base := s.cfg.romBase, size := s.cfg.romSize, readOnly := true } ::
      s.regions.map fun r => if r.kind = .rom then { r with readOnly := true } else r := rfl

/-- After BOOT_ROM the address map is the one of `Ready` without a kernel path (44_boot.md rule R247). -/
theorem romLoaded_mapMatchesBoot (hr : s.regions = [s.ramRegion]) (hk : s.cfg.kernelPath = none) (M : Memory) :
    (s.romLoaded M).MapMatchesBoot := by
  have hu := romLoaded_unchanged s M
  have hmap : ({ s with bootState := .ready, regions := (s.romLoaded M).regions } : State).MapMatchesBoot := by
    rw [romLoaded_regions, hr, State.MapMatchesBoot]
    simp [hk, State.ramRegion]
  exact mapMatchesBoot_congr hmap rfl rfl (hu .ramSize (by simp)) (hu .cfg (by simp))

/-- Cold start keeps the map: `Ready` and `Running` have the same one. -/
theorem coldStart_mapMatchesBoot (hs : s.MapMatchesBoot) (hb : s.bootState = .ready ∨ s.bootState = .running) :
    s.coldStart.MapMatchesBoot := by
  have hu := coldStart_unchanged s
  have hrun : ({ s with bootState := .running } : State).MapMatchesBoot := by
    rcases hb with hb | hb <;> rw [State.MapMatchesBoot, hb] at hs <;> exact hs
  exact mapMatchesBoot_congr hrun (coldStarted s).running (hu .regions (by simp)) (hu .ramSize (by simp)) (hu .cfg (by simp))

/-- Every command leaves the address map that the boot state says (44_boot.md rules R230, R233 and R247). -/
theorem Effect.mapMatchesBoot (h : Effect s i t) (hs : s.MapMatchesBoot) : t.MapMatchesBoot := by
  cases h with
  | mapped _ hb _ size =>
    have hr : s.regions = [] := by rw [State.MapMatchesBoot, hb] at hs; exact hs.1
    change _ :: s.regions = [_]
    rw [hr]
    rfl
  | kernel _ hb _ hk hx =>
    have hr := mapMatchesBoot_ramMapped hs hb
    cases hx with
    | ok => exact (if_pos hk).mpr hr
    | write | initrd => exact hr
  | romFailed hb => exact congrArg (_ :: ·) (mapMatchesBoot_ramMapped hs hb)
  | romLoaded _ hb _ hk => exact romLoaded_mapMatchesBoot (mapMatchesBoot_ramMapped hs hb) hk _
  | entered _ n c v r m =>
    have hu := enter_withReads_unchanged s n c v r m
    exact mapMatchesBoot_congr hs (hu .bootState (by simp)) (hu .regions (by simp)) (hu .ramSize (by simp)) (hu .cfg (by simp))
  | cold _ hb => exact coldStart_mapMatchesBoot hs hb
  | wrSp | wrUr | wrCr => exact mapMatchesBoot_congr hs (by simp) (by simp) (by simp) (by simp)
  | _ => exact mapMatchesBoot_congr hs rfl rfl rfl rfl

/-- A running block's boot order leaves `halted` free. -/
theorem bootOrder_running (hb : s.bootState = .running) (hf : s.fatal = none) : s.BootOrder :=
  ⟨fun _ => by simp [hb], fun _ => hf, fun _ => hb⟩

theorem bootOrder_not_halted (hh : s.halted = false)
    (hn : s.fatal = none → s.bootState ≠ .kernelBootPrepared ∧ s.bootState ≠ .romMapped)
    (hr : s.bootState = .ready ∨ s.bootState = .running → s.fatal = none) : s.BootOrder :=
  ⟨hn, hr, fun h => absurd (hh.symm.trans h) (by decide)⟩

/-- Every command keeps the order of the boot states, of `fatal` and of `halted` (44_boot.md rule R230, 10_state.md rule
R46). -/
theorem Effect.bootOrder (h : Effect s i t) (hs : s.BootOrder) : t.BootOrder := by
  cases h with
  | mapped _ _ hh => exact bootOrder_not_halted hh (fun _ => ⟨nofun, nofun⟩) nofun
  | died hb hh => exact bootOrder_not_halted hh nofun fun h => by rcases hb with e | e <;> simp [e] at h
  | kernel hf _ hh _ hx =>
    cases hx with
    | ok => exact bootOrder_not_halted hh (fun _ => ⟨nofun, nofun⟩) fun _ => hf
    | write | initrd => exact bootOrder_not_halted hh nofun nofun
  | romFailed _ hh => exact bootOrder_not_halted hh nofun nofun
  | @romLoaded hf _ hh _ M =>
    have hu := romLoaded_unchanged s M
    exact bootOrder_not_halted (Eq.trans (hu .halted (by simp)) hh) (fun _ => ⟨nofun, nofun⟩)
      fun _ => Eq.trans (hu .fatal (by simp)) hf
  | entered hR n c v r m =>
    have hu := enter_withReads_unchanged s n c v r m
    exact bootOrder_running (Eq.trans (hu .bootState (by simp)) hR.2.2) (Eq.trans (hu .fatal (by simp)) hR.1)
  | cold hf => exact bootOrder_running (coldStarted s).running (Eq.trans (coldStart_unchanged s .fatal (by simp)) hf)
  | wrSp | wrUr | wrCr => simpa [State.BootOrder] using hs
  | _ => exact hs

/-- Every command keeps the invariant. -/
theorem Effect.inv (h : Effect s i t) (hs : s.Inv) : t.Inv where
  memory := h.memory hs.memory
  spLive := h.spLive hs.spLive
  fpBounded := h.fpBounded hs.fpBounded
  absentZero := h.absentZero hs.absentZero
  map := h.mapMatchesBoot hs.map
  order := h.bootOrder hs.order

theorem inv_inbox (hs : s.Inv) (ws : List Word) : ({ s with inbox := ws } : State).Inv :=
  ⟨hs.memory, hs.spLive, hs.fpBounded, hs.absentZero, hs.map, hs.order⟩

/-- Settles O59, clause by clause over the effects a command can have. -/
theorem stepKeepsInvariant : Obligations.StepKeepsInvariant := by
  intro s t hs h
  obtain ⟨i, rest, -, he⟩ := effect_of_step h
  exact he.inv (inv_inbox hs rest)

/-! ## The obligations on construction -/

theorem zeroed_inv (cfg : Config) {draw : Memory} (hm : Memory.wf draw = true) : (State.zeroed cfg draw).Inv where
  memory := hm
  spLive := by
    have hsup : (State.zeroed cfg draw).supervisor = false := BitVec.getLsbD_zero
    rw [State.SpLive, State.sel, selectSlot, readSr_supervisor, hsup]
    rfl
  fpBounded := fun n => by
    change (Vector.replicate 8 0)[n.val] < 2 ^ cfg.fpBits
    rw [Vector.getElem_replicate]
    exact Nat.two_pow_pos _
  absentZero := by simp [State.AbsentZero, State.zeroed]
  map := ⟨rfl, rfl⟩
  order := ⟨fun _ => ⟨nofun, nofun⟩, nofun, nofun⟩

/-- A fatal error before `Ready` keeps the invariant. -/
theorem die_inv (hs : s.Inv) (hb : s.bootState ≠ .ready ∧ s.bootState ≠ .running) (r : FatalReason) : (s.die r).Inv where
  memory := hs.memory
  spLive := spLive_of_eq hs.spLive rfl rfl rfl
  fpBounded := hs.fpBounded
  absentZero := hs.absentZero
  map := hs.map
  order := by
    obtain ⟨-, -, hhalt⟩ := hs.order
    exact ⟨nofun, fun h => (h.elim hb.1 hb.2).elim, hhalt⟩

/-- Settles O58: the zeroed state meets the invariant, and the fatal error of an unknown model keeps it. -/
theorem constructionInvariant : Obligations.ConstructionInvariant := by
  intro setup draw hm
  rcases construct_cases setup draw with ⟨cfg, e⟩ | ⟨cfg, r, e⟩ <;> rw [e]
  · exact zeroed_inv cfg hm
  · exact die_inv (zeroed_inv cfg hm) ⟨nofun, nofun⟩ r

/-- Settles O57: the components by the shared form of the two constructions, the last two clauses by their own. -/
theorem constructionValues : Obligations.ConstructionValues := by
  intro setup draw
  dsimp only
  have hknown : ∀ m, modelOf setup = some m → (State.construct setup draw).fatal = none ∧
      (State.construct setup draw).cfg.features = m.features ∧
      (State.construct setup draw).cfg.initialSr = m.initialSr.getD 0x2700 := by
    intro m h
    rw [construct_known h]
    exact ⟨rfl, rfl, rfl⟩
  have hunknown : modelOf setup = none → (State.construct setup draw).fatal =
      some (.unknownModel (setup.cpuModel.getD setup.defaultCpuModel)) := by
    intro h
    rw [construct_unknown h]
    rfl
  obtain ⟨cfg, f, a, e⟩ := construct_zeroed setup draw
  rw [e] at hknown hunknown ⊢
  refine ⟨fun n => ⟨?_, ?_, ?_⟩, rfl, rfl, rfl, rfl, rfl, rfl, fun k => by cases k <;> rfl, rfl, rfl, rfl, rfl, rfl, rfl,
    fun i => ?_, rfl, rfl, rfl, rfl, fun c => ?_, fun c j => ?_, rfl, rfl, rfl, rfl, rfl, rfl, rfl, hknown, hunknown⟩ <;>
    simp [State.zeroed]

/-! ## The halt and the fatal error -/

theorem engine_fault {f : Fault} (h : s.stopped = some f) (e : State) : s.engine e = .fault f := by
  rw [State.engine, h]

theorem stopped_fatal {r : FatalReason} (h : s.fatal = some r) : s.stopped = some (.fatal r) := by
  rw [State.stopped, h]

theorem stopped_halted (hf : s.fatal = none) (hh : s.halted = true) : s.stopped = some .halted := by
  simp [State.stopped, hf, hh]

/-- A command of the engine makes check 2 (40_register_file.md rule R138) and then has its effect. -/
theorem exec_engine (h : i.privClass ≠ .host) (s : State) : ∃ e, exec i s = s.engine e := by
  cases i with
  | intPend | mapRam | bootKernel | bootRom | coldStart => exact absurd rfl h
  | _ => exact ⟨_, rfl⟩

theorem boot_fatal {r : FatalReason} (h : s.fatal = some r) (accepted : Bool) (q : Refusal)
    (e : Host.Outcome State Fault Refusal) : s.boot accepted q e = .fault (.fatal r) := by
  rw [State.boot, h]

/-- Once `fatal` is set every command answers it (10_state.md rule R47). -/
theorem exec_fatal {r : FatalReason} (h : s.fatal = some r) (i : Instr) : exec i s = .fault (.fatal r) := by
  by_cases hi : i.privClass = .host
  · cases i with
    | intPend level vector =>
      change execIntPend level vector s = _
      rw [execIntPend, h]
    | mapRam | bootKernel | bootRom | coldStart => exact boot_fatal h _ _ _
    | _ => exact nomatch hi
  · obtain ⟨e, he⟩ := exec_engine hi s
    rw [he, engine_fault (stopped_fatal h)]

/-- While the block is halted no command of the engine has a step (10_state.md rule R46). -/
theorem exec_halted (hf : s.fatal = none) (hh : s.halted = true) (hi : i.privClass ≠ .host) : exec i s = .fault .halted := by
  obtain ⟨e, he⟩ := exec_engine hi s
  rw [he, engine_fault (stopped_halted hf hh)]

/-- While the block is halted only INT_PEND and COLD_START have a step. -/
theorem exec_halted_ne_next (hf : s.fatal = none) (hh : s.halted = true) (hc : i ≠ .coldStart)
    (hp : ∀ level vector, i ≠ .intPend level vector) : exec i s ≠ .next t := by
  by_cases hi : i.privClass = .host
  · intro h
    have hn : s.halted = false := by
      cases i with
      | intPend level vector => exact absurd rfl (hp level vector)
      | coldStart => exact absurd rfl hc
      | mapRam => obtain ⟨-, -, hn, -⟩ := mapRam_next.mp h; exact hn
      | bootKernel => obtain ⟨-, -, hn, -⟩ := bootKernel_next.mp h; exact hn
      | bootRom => obtain ⟨-, -, -, hn, -⟩ := bootRom_next.mp h; exact hn
      | _ => exact nomatch hi
    exact absurd (hh.symm.trans hn) (by decide)
  · rw [exec_halted hf hh hi]
    exact nofun

/-- An entry whose access fails halts the block (60_exceptions.md rule R296). -/
theorem enter_halted {v : Byte} (h : ¬ s.EntryOk v) (c : Cause) (r : Word) (m : BitVec 3) :
    (s.enter c v r m).halted = true := by
  rw [enter_eq]
  split
  · rfl
  · split
    · rfl
    · split
      · rfl
      · next h1 h2 h3 =>
        rw [takeVector_failed]
        · rfl
        · rw [State.handlerAt, memAccessOk_congr (s := s) (by simp) (by simp), xlateS_congr (s := s) (by simp)]
          by_contra h4
          exact h ⟨by simpa using h1, by simpa using h2, by simpa using h3, by simpa using h4⟩

/-- Settles O8: the accesses of entry one by one, then the gates of the commands while the block is halted. -/
theorem haltedBlockIsStuck : Obligations.HaltedBlockIsStuck := by
  refine ⟨construct_halted, fun s cause v retpc newI h => enter_halted h cause retpc newI, fun s hf hh => ⟨?_, ?_, ?_, ?_⟩⟩
  · exact fun level vector => ⟨_, intPend_next.mpr ⟨hf, rfl⟩⟩
  · exact fun hb => ⟨_, coldStart_next.mpr ⟨hf, .inr ⟨hb, hh⟩, rfl⟩⟩
  · exact fun i hi => exec_halted hf hh hi
  · exact fun i hc hp t => exec_halted_ne_next hf hh hc hp

/-- Settles O9: both kinds of gate look at `fatal` first. -/
theorem fatalIsTerminal : Obligations.FatalIsTerminal := by
  refine ⟨fun setup draw m h => ?_, fun s r i h => exec_fatal h i⟩
  rw [construct_known h]
  exact ⟨rfl, rfl⟩

/-! ## Who writes `PC` and the pending interrupt -/

/-- What a command that leaves `PC` changed has done (10_state.md rule R24). -/
theorem Effect.pc (h : Effect s i t) :
    t.pc = s.pc ∨ (∃ v, i = .wrPc v) ∨ i = .rte ∨ (i = .coldStart ∨ ∃ retpc, i = .raise .reset retpc) ∨
      ∃ v, t.reply = .exception v := by
  cases h with
  | wrPc _ v => exact .inr (.inl ⟨v, rfl⟩)
  | popped => exact .inr (.inr (.inl rfl))
  | cold _ _ hi => exact .inr (.inr (.inr (.inl hi)))
  | entered _ n c v r m =>
    rcases enter_reply (s.withReads n) c v r m with hr | ⟨-, -, hpc⟩
    · exact .inr (.inr (.inr (.inr ⟨v, hr⟩)))
    · exact .inl hpc
  | kernel _ _ _ _ hx => exact .inl (hx.unchanged_withBoot .pc (by simp))
  | romLoaded => exact .inl (romLoaded_unchanged s _ .pc (by simp))
  | wrSp | wrUr | wrCr => exact .inl (by simp)
  | _ => exact .inl rfl

/-- Settles O14, from the effects a command can have. -/
theorem programCounterWriters : Obligations.ProgramCounterWriters := by
  intro i s t h hpc
  rcases (effect_of_exec h).pc with e | e | e | (e | e) | e
  · exact absurd e hpc
  · exact .inl e
  · exact .inr (.inl e)
  · exact .inr (.inr (.inl e))
  · exact .inr (.inr (.inr (.inl e)))
  · exact .inr (.inr (.inr (.inr e)))

/-- Settles O35, effect by effect. -/
theorem pendingInterruptWriter : Obligations.PendingInterruptWriter := by
  intro i s t h hi
  change Part.Same s t .pending
  cases effect_of_exec h with
  | intPend _ level vector => exact absurd rfl (hi level vector)
  | entered _ n c v r m => exact enter_withReads_unchanged s n c v r m .pending (by simp)
  | cold => exact coldStart_unchanged s .pending (by simp)
  | kernel _ _ _ _ hx => exact hx.unchanged_withBoot .pending (by simp)
  | romLoaded => exact romLoaded_unchanged s _ .pending (by simp)
  | wrSp | wrUr | wrCr => exact ⟨by simp, by simp⟩
  | _ => exact ⟨rfl, rfl⟩

/-! ## The stack-pointer switch -/

/-- A switch saves the outgoing pointer in its slot. -/
theorem switchSp_saved (s : State) : s.switchSp.spSlots.get s.currentSp = s.a[7] := SpSlots.get_set_same _ _ _

theorem switchSp_spSlots_other (s : State) {k : SpSlot} (h : k ≠ s.currentSp) :
    s.switchSp.spSlots.get k = s.spSlots.get k := SpSlots.get_set_other _ _ h

/-- A switch to the slot that is live leaves the address registers alone. -/
theorem switchSp_a_same (h : s.sel s.readSr = s.currentSp) : s.switchSp.a = s.a := by
  have h7 : s.switchSp.a[7] = s.a[7] := by rw [switchSp_a7, h, getSpSlot_live]
  ext n hn : 1
  by_cases e : n = 7
  · subst e; exact h7
  · exact switchSp_a_other s hn e

theorem switchSp_unchanged (s : State) : Unchanged [.a, .spSlots, .currentSp] s s.switchSp := by
  intro p hp
  cases p <;> first | rfl | exact ⟨rfl, rfl⟩ | exact ⟨rfl, rfl, rfl, rfl⟩ | exact fun _ => rfl | exact absurd (by simp) hp

/-- Settles O22: a switch moves no slot's value, and `A[7]` is the value of the live slot. -/
theorem stackSwitch : Obligations.StackSwitch := by
  refine ⟨fun s => ⟨rfl, switchSp_saved s, switchSp_a7 s, getSpSlot_switchSp s, ?_, ?_, switchSp_unchanged s⟩, ?_⟩
  · exact fun n hn => switchSp_a_other s n.isLt fun e => hn (Fin.ext e)
  · exact fun h => ⟨switchSp_a_same h, h, fun k hk => switchSp_spSlots_other s hk⟩
  · intro s away back h
    refine ⟨SpSlots.get_set_same _ _ _, ?_⟩
    have hsel : (s.setSr away).sel back = s.currentSp := h
    rw [setSr_a7, hsel, getSpSlot_setSr, getSpSlot_live]

/-! ## The words a step takes -/

/-- Whatever command a decoder reads from `ws` or from words after them, it leaves an end of `ws`. -/
def Leaves (ws : List Word) (x : Except DecodeError (Instr × List Word)) : Prop :=
  ∀ i rest, x = .ok (i, rest) → rest <:+ ws

theorem Leaves.ok (i : Instr) (ws : List Word) : Leaves ws (.ok (i, ws)) := by
  rintro _ _ ⟨⟩
  exact List.suffix_rfl

theorem Leaves.error (e : DecodeError) (ws : List Word) : Leaves ws (.error e) := nofun

/-- A check takes no word. -/
theorem Leaves.check {α : Type} {ws : List Word} {x : Except DecodeError α} {f : α → Except DecodeError (Instr × List Word)}
    (hf : ∀ a, Leaves ws (f a)) : Leaves ws (x >>= f) := by
  intro i rest h
  obtain ⟨a, -, h⟩ := bind_eq_ok.mp h
  exact hf a i rest h

/-- Operand words are taken from the front. -/
theorem Leaves.taken {α : Type} {ws : List Word} {x : Except DecodeError (α × List Word)}
    {f : α × List Word → Except DecodeError (Instr × List Word)} (hx : ∀ v ws', x = .ok (v, ws') → ws' <:+ ws)
    (hf : ∀ v ws', Leaves ws' (f (v, ws'))) : Leaves ws (x >>= f) := by
  intro i rest h
  obtain ⟨⟨v, ws'⟩, hv, h⟩ := bind_eq_ok.mp h
  exact (hf v ws' i rest h).trans (hx v ws' hv)

theorem Leaves.operand {ws : List Word} {f : Word × List Word → Except DecodeError (Instr × List Word)}
    (hf : ∀ v ws', Leaves ws' (f (v, ws'))) : Leaves ws (operand ws >>= f) :=
  .taken (fun v _ h => ⟨[v], operand_eq_ok.mp h⟩) hf

theorem Leaves.operands {k : Nat} {ws : List Word} {f : Nat × List Word → Except DecodeError (Instr × List Word)}
    (hf : ∀ v ws', Leaves ws' (f (v, ws'))) : Leaves ws (operands k ws >>= f) :=
  .taken (fun _ _ h => ⟨_, (operands_eq_ok h).1⟩) hf

theorem Leaves.plain (i : Instr) (a : Byte) (b : Half) (ws : List Word) : Leaves ws (plain i a b ws) :=
  .check fun _ => .check fun _ => .ok i ws

theorem Leaves.plainOperand (i : Word → Instr) (a : Byte) (b : Half) (ws : List Word) :
    Leaves ws (plainOperand i a b ws) :=
  .check fun _ => .check fun _ => .operand fun v ws' => .ok (i v) ws'

/-- The words after a command word are left but for operands taken from their front: the rows of 30_encoding.md rule R104 in
their order, then the unassigned `OP`. -/
theorem decodeFields_leaves (fpBits : Nat) (op a : Byte) (b : Half) (ws : List Word) :
    Leaves ws (decodeFields fpBits op a b ws) := by
  unfold decodeFields
  split
  · exact .check fun _ => .check fun _ => .ok _ _
  · exact .check fun _ => .check fun _ => .operand fun _ _ => .ok _ _
  · exact .check fun _ => .check fun _ => .ok _ _
  · exact .check fun _ => .check fun _ => .operand fun _ _ => .ok _ _
  · exact .plain _ _ _ _
  · exact .plainOperand _ _ _ _
  · exact .plain _ _ _ _
  · exact .plainOperand _ _ _ _
  · exact .plain _ _ _ _
  · exact .plainOperand _ _ _ _
  · exact .check fun _ => .check fun _ => .ok _ _
  · exact .check fun _ => .check fun _ => .operand fun _ _ => .ok _ _
  · exact .check fun _ => .check fun _ => .ok _ _
  · refine .check fun _ => .check fun _ => .operands fun v ws' => ?_
    dsimp only
    split
    · exact .ok _ _
    · exact .error _ _
  · exact .check fun _ => .ok _ _
  · exact .check fun _ => .operands fun _ _ => .ok _ _
  · split
    · exact .error _ _
    · split
      · exact .operand fun _ _ => .operand fun _ _ => .ok _ _
      · exact .error _ _
  · exact .plain _ _ _ _
  · exact .plain _ _ _ _
  · exact .check fun _ => .ok _ _
  · exact .check fun _ => .operand fun _ _ => .ok _ _
  · split
    · split
      · exact .ok _ _
      · exact .error _ _
    · exact .error _ _
  · exact .plain _ _ _ _
  · split
    · exact .error _ _
    · exact .check fun _ => .operand fun _ _ => .ok _ _
  · exact .plain _ _ _ _
  · exact .plainOperand _ _ _ _
  · exact .plain _ _ _ _
  · exact .plain _ _ _ _
  · exact .plain _ _ _ _
  · exact .error _ _

/-- Decoding takes words from the front, at least the command word. -/
theorem decode_taken {fpBits : Nat} {ws rest : List Word} (h : decode fpBits ws = .ok (i, rest)) :
    ∃ taken, ws = taken ++ rest ∧ taken ≠ [] := by
  cases ws with
  | nil => cases h
  | cons w ws =>
    obtain ⟨taken, e⟩ := decodeFields_leaves _ _ _ _ _ i rest h
    exact ⟨w :: taken, by rw [List.cons_append, e], nofun⟩

/-- Settles O33: no effect changes the configuration or the inbox, and decoding takes words from its front. -/
theorem configurationIsFixed : Obligations.ConfigurationIsFixed := by
  intro s t h
  obtain ⟨i, rest, hd, he⟩ := effect_of_step h
  obtain ⟨hcfg, hinbox⟩ := he.cfg_inbox
  refine ⟨hcfg, ?_⟩
  rw [hinbox]
  exact decode_taken hd

end Sys2Proof.Machine
end

section
/-! PROOFS. The rules of 20_memory.md: who writes memory, the byte order of an access, when an access succeeds, and canonical
memories. -/

namespace Sys2Proof.Machine

variable {s t : State} {i : Instr}

/-! ## Who writes memory -/

/-- What a command that leaves a byte of memory changed has done (20_memory.md rule R71). -/
theorem Effect.mem (h : Effect s i t) :
    Part.Same s t .mem ∨ i = .bootKernel ∨ i = .bootRom ∨ (∃ v, t.reply = .exception v) ∨ t.reply = .halted := by
  cases h with
  | kernel => exact .inr (.inl rfl)
  | romFailed | romLoaded => exact .inr (.inr (.inl rfl))
  | entered _ n c v r m =>
    rcases enter_reply (s.withReads n) c v r m with hr | ⟨hr, -⟩
    · exact .inr (.inr (.inr (.inl ⟨v, hr⟩)))
    · exact .inr (.inr (.inr (.inr hr)))
  | cold => exact .inl fun b => by rw [coldStart_mem]
  | wrSp | wrUr | wrCr => exact .inl fun b => by simp
  | _ => exact .inl fun _ => rfl

/-- Settles O52, from the effects a command can have. -/
theorem memoryWriters : Obligations.MemoryWriters := by
  intro i s t b h hb
  exact (effect_of_exec h).mem.resolve_left fun hsame => hb (hsame b)

/-! ## The byte order of an access -/

/-- A store of bytes changes no component but the memory. -/
theorem storeBytes_unchanged (s : State) (a : Word) (vs : Bytes) : Unchanged [.mem] s (s.storeBytes a vs) := by
  rw [storeBytes_eq]
  exact withMem_unchanged s _

/-- Settles O53: the write stores the digits of the value in the base of a byte, and the read joins them again. -/
theorem bigEndianAccess : Obligations.BigEndianAccess := by
  intro s a n v hm hn hw
  have hbytes := read_stored (w := v) hm hn hw
  refine ⟨s.storeBytes a (splitDigits 8 n v), memWrite_eq_some.mpr ⟨memAccessOk_write hw, rfl⟩, hbytes, ?_,
    storeBytes_unchanged _ _ _, _, memRead_eq_some.mpr ⟨memAccessOk_read ?_, ?_, rfl⟩, withReads_unchanged _ _⟩
  · exact fun b hb => read_storeBytes_other _ _ _ (by rwa [length_splitDigits])
  · exact fun i hi => (writable_isSome (writable_congr (storeBytes_regions _ _ _) (hw i hi))).1
  · exact joinDigits_loadBytes hw (storeBytes_regions _ _ _) hbytes

/-! ## When an access succeeds -/

/-- Every byte of an access belongs to a region. -/
abbrev State.Mapped (s : State) (a : Word) (n : Nat) : Prop := ∀ i < n, (s.regionAt (a + BitVec.ofNat 32 i)).isSome = true

/-- A byte of an access belongs to a read-only region. -/
abbrev State.TouchesRom (s : State) (a : Word) (n : Nat) : Prop :=
  ∃ i < n, (s.regionAt (a + BitVec.ofNat 32 i)).any Region.readOnly = true

theorem all_regionsOf_isSome {a : Word} {n : Nat} : (s.regionsOf a n).all Option.isSome = true ↔ s.Mapped a n := by
  simp [State.regionsOf]

theorem writeForbidden_eq (s : State) (r : Option Region) :
    s.writeForbidden r = (r.any Region.readOnly && s.cfg.romWrite == .accessError) := by
  cases r <;> rfl

theorem any_regionsOf_writeForbidden {a : Word} {n : Nat} :
    (s.regionsOf a n).any s.writeForbidden = true ↔ s.TouchesRom a n ∧ s.cfg.romWrite = .accessError := by
  simp only [State.regionsOf, List.any_map, List.any_eq_true, List.mem_range, Function.comp, writeForbidden_eq,
    Bool.and_eq_true, beq_iff_eq]
  exact ⟨fun ⟨i, hi, hr, hc⟩ => ⟨⟨i, hi, hr⟩, hc⟩, fun ⟨⟨i, hi, hr⟩, hc⟩ => ⟨i, hi, hr, hc⟩⟩

/-- A write that touches a protected ROM fails when `ROM_WRITE` reports it (20_memory.md rule R78, log entry 5). -/
theorem memAccessOk_reported {a : Word} {n : Nat} (hr : s.TouchesRom a n) (hc : s.cfg.romWrite = .accessError) :
    s.memAccessOk a n .write = false := by
  have hf := any_regionsOf_writeForbidden.mpr ⟨hr, hc⟩
  simp [State.memAccessOk, hf]

/-- Any other access succeeds inside the regions, and is the platform's when a byte lies outside them (20_memory.md rules R76
to R79, log entry 4). -/
theorem memAccessOk_unreported {a : Word} {n : Nat} {dir : Dir}
    (h : dir = .write → s.TouchesRom a n → s.cfg.romWrite ≠ .accessError) :
    s.memAccessOk a n dir = (decide (s.Mapped a n) || s.platformOk a n dir) := by
  have hm : (s.regionsOf a n).all Option.isSome = decide (s.Mapped a n) := by
    rw [Bool.eq_iff_iff, all_regionsOf_isSome, decide_eq_true_iff]
  have hf : (dir == .write && (s.regionsOf a n).any s.writeForbidden) = false := by
    rw [Bool.and_eq_false_imp]
    intro hd
    rw [← Bool.not_eq_true, any_regionsOf_writeForbidden]
    exact fun ⟨hr, hc⟩ => h (eq_of_beq hd) hr hc
  rw [State.memAccessOk, hf, hm, Bool.not_false, Bool.true_and]

/-- Settles O55: a write that is reported, and the two cases of every other access. -/
theorem accessSuccess : Obligations.AccessSuccess := by
  intro s a n
  dsimp only
  refine ⟨fun hw dir => ?_, memAccessOk_read, memAccessOk_reported, fun hm hc => ?_, fun hm => ?_, fun hm hr => ?_,
    fun hm hc => ?_⟩
  · cases dir with
    | read => exact memAccessOk_read fun i hi => (writable_isSome (hw i hi)).1
    | write => exact memAccessOk_write hw
  · rw [memAccessOk_unreported fun _ _ => by rw [hc]; decide, decide_eq_true hm, Bool.true_or]
  · rw [memAccessOk_unreported (dir := .read) nofun, decide_eq_false hm, Bool.false_or]
  · rw [memAccessOk_unreported fun _ h => absurd h hr, decide_eq_true hm, Bool.true_or]
  · rw [memAccessOk_unreported fun _ h => by rw [hc h]; decide, decide_eq_false hm, Bool.false_or]

/-! ## Canonical memories -/

theorem Memory.read_cons_same (k : Nat) (v : Byte) (m : Memory) : Memory.read ((k, v) :: m) k = v := if_pos rfl

theorem Memory.read_cons_other {k a : Nat} (v : Byte) (m : Memory) (h : k ≠ a) :
    Memory.read ((k, v) :: m) a = Memory.read m a := if_neg h

/-- A canonical memory that holds more than the blank byte at an address lists this address or one below. -/
theorem Memory.not_above_of_read {m : Memory} {a : Nat} (hm : Memory.wf m = true) (h : Memory.read m a ≠ blankByte) :
    ¬ Memory.above a m :=
  fun ha => h (Memory.read_of_above hm ha)

/-- Canonical memories that hold the same byte at every address below 2^32 are equal: their first addresses are, neither being
below the other, and so are their first bytes and what is left. -/
theorem Memory.eq_of_read_eq {m n : Memory} (hm : Memory.wf m = true) (hn : Memory.wf n = true)
    (h : ∀ a < 2 ^ 32, Memory.read m a = Memory.read n a) : m = n := by
  induction m generalizing n with
  | nil =>
    cases n with
    | nil => rfl
    | cons c n =>
      obtain ⟨j, w⟩ := c
      obtain ⟨hj, hw, -, -⟩ := Memory.wf_cons.mp hn
      exact absurd trivial (Memory.not_above_of_read hm (by rwa [h j hj, Memory.read_cons_same]))
  | cons c m ih =>
    obtain ⟨k, v⟩ := c
    obtain ⟨hk, hv, hkm, hm'⟩ := Memory.wf_cons.mp hm
    have hkn : ¬ Memory.above k n := Memory.not_above_of_read hn (by rwa [← h k hk, Memory.read_cons_same])
    cases n with
    | nil => exact absurd trivial hkn
    | cons c n =>
      obtain ⟨j, w⟩ := c
      obtain ⟨hj, hw, hjn, hn'⟩ := Memory.wf_cons.mp hn
      have hjm : ¬ j < k := Memory.not_above_of_read hm (by rwa [h j hj, Memory.read_cons_same])
      obtain rfl : k = j := Nat.le_antisymm (Nat.le_of_not_lt hjm) (Nat.le_of_not_lt hkn)
      obtain rfl : v = w := by simpa only [Memory.read_cons_same] using h k hk
      have htail : ∀ a < 2 ^ 32, Memory.read m a = Memory.read n a := by
        intro a ha
        by_cases e : k = a
        · rw [← e, Memory.read_of_above hm' hkm, Memory.read_of_above hn' hjn]
        · simpa only [Memory.read_cons_other v _ e] using h a ha
      rw [ih hm' hn' htail]

/-- Settles O56: the addresses of a canonical memory are below 2^32, so the addresses of the machine are all that count. -/
theorem canonicalMemoryIsUnique : Obligations.CanonicalMemoryIsUnique := by
  intro m n hm hn h
  refine Memory.eq_of_read_eq hm hn fun a ha => ?_
  simpa only [BitVec.toNat_ofNatLT] using h (BitVec.ofNatLT a ha)

end Sys2Proof.Machine
end

section
/-! PROOFS. The command encoding of 30_encoding.md: every outcome of the decoder, the two halves of the round trip between
commands and words, and the refusals of rule R108. -/

namespace Sys2Proof.Machine

variable {s : State} {fpBits : Nat} {op a : Byte} {b : Half} {ws : List Word}

/-! ## Fields and operand words of a command -/

/-- Both fields are legal for the `OP` (30_encoding.md rules R104 and R106). -/
abbrev LegalFields (op a : Byte) (b : Half) : Prop := legalA op a = true ∧ legalB op b = true

theorem not_legalFields (h : legalA op a = false ∨ legalB op b = false) : ¬ LegalFields op a b := by
  rintro ⟨hA, hB⟩
  rcases h with h | h
  · exact Bool.false_ne_true (h.symm.trans hA)
  · exact Bool.false_ne_true (h.symm.trans hB)

theorem registerField_le (n : Fin 8) : (BitVec.ofNat 8 n.val).toNat ≤ 7 := by revert n; decide

theorem levelField_le (level : BitVec 3) : (level.setWidth 8).toNat ≤ 7 := by bv_omega

theorem vectorField_le (vector : Byte) : (vector.setWidth 16).toNat ≤ 255 := by bv_omega

theorem isSome_slotOfCode (a : Byte) : (SpSlot.ofCode a.toNat).isSome = decide (a.toNat ≤ 2) := by revert a; decide

/-- The codes legal in `A` of CC_SET are those of the condition-code kinds (41_condition_codes.md rule R167). -/
theorem legalA_ccSet (a : Byte) : legalA 0x20 a = (CcKind.ofCode a.toNat).isSome := by revert a; decide

/-- The codes legal in `A` of RAISE are those of the exception kinds (30_encoding.md rule R106). -/
theorem legalA_raise (a : Byte) : legalA 0x42 a = (Kind.ofCode a.toNat).isSome := by revert a; decide

theorem toNat_ccKindCode (kind : CcKind) : (BitVec.ofNat 8 kind.code).toNat = kind.code :=
  (BitVec.toNat_ofNat ..).trans (Nat.mod_eq_of_lt ((ccKind_code_lt kind).trans (by decide)))

theorem toNat_kindCode (kind : Kind) : (BitVec.ofNat 8 kind.code).toNat = kind.code :=
  (BitVec.toNat_ofNat ..).trans (Nat.mod_eq_of_lt ((kind_code_lt kind).trans (by decide)))

/-- The fields of a command are legal. -/
theorem legalFields_instr (i : Instr) : LegalFields i.op i.a i.b := by
  cases i with
  | rdD n | wrD n | rdA n | wrA n | rdFp n | wrFp n => exact ⟨decide_eq_true (registerField_le n), rfl⟩
  | rdSp k | wrSp k => exact ⟨by cases k <;> rfl, rfl⟩
  | ccSet kind x =>
    exact ⟨by rw [Instr.a, Instr.op, legalA_ccSet, toNat_ccKindCode, ccKind_ofCode_code]; rfl, by cases x <;> rfl⟩
  | intPend level vector =>
    exact ⟨decide_eq_true (levelField_le level), decide_eq_true (vectorField_le vector)⟩
  | raise kind => exact ⟨by rw [Instr.a, Instr.op, legalA_raise, toNat_kindCode, kind_ofCode_code]; rfl, rfl⟩
  | _ => exact ⟨rfl, rfl⟩

open Laws.OperandWords in
/-- The operand words of every command number what its command word asks for. -/
theorem operandWords_count : ∀ i : Instr, Statement i
  | .rdD n => rdD n | .wrD n v => wrD n v | .rdA n => rdA n | .wrA n v => wrA n v
  | .rdPc => rdPc | .wrPc v => wrPc v | .rdSr => rdSr | .wrSr v => wrSr v | .rdCcr => rdCcr | .wrCcr v => wrCcr v
  | .rdSp k => rdSp k | .wrSp k v => wrSp k v | .rdFp n => rdFp n | .wrFp n v => wrFp n v
  | .rdUr urid => rdUr urid | .wrUr urid v => wrUr urid v | .ccSet kind x dest src => ccSet kind x dest src
  | .ccFlags => ccFlags | .ctx => ctx | .rdCr crid => rdCr crid | .wrCr crid v => wrCr crid v
  | .intPend level vector => intPend level vector | .intCheck => intCheck | .raise kind retpc => raise kind retpc
  | .rte => rte | .mapRam size => mapRam size | .bootKernel => bootKernel | .bootRom => bootRom | .coldStart => coldStart

/-- As many operand words as asked for, and the words after them. -/
theorem operands_of_length {k : Nat} {ops : List Word} (h : ops.length = k) (rest : List Word) :
    operands k (ops ++ rest) = .ok (joinDigits 32 ops, rest) := by
  rw [operands, if_pos (by simp [h]), List.take_left' h, List.drop_left' h]

theorem splitDigits_joinDigits_of_length {k : Nat} {ops : List Word} (h : ops.length = k) :
    splitDigits 32 k (joinDigits 32 ops) = ops := by
  rw [← h, splitDigits_joinDigits]

theorem joinDigits_lt_of_length {k : Nat} {ops : List Word} (h : ops.length = k) : joinDigits 32 ops < 2 ^ (32 * k) := by
  rw [← h]
  exact joinDigits_lt 32 ops

/-- The operand words of WR_FP are read and compared with the register (30_encoding.md rules R102 and R108 (f)). -/
theorem decodeFields_wrFp (n : Fin 8) {ops : List Word} (h : ops.length = fpWords fpBits) (rest : List Word) :
    decodeFields fpBits 0x0E (BitVec.ofNat 8 n.val) 0 (ops ++ rest) =
      if joinDigits 32 ops < 2 ^ fpBits then .ok (.wrFp n (joinDigits 32 ops), rest) else .error .fpHighBits := by
  change (regIndex (BitVec.ofNat 8 n.val) >>= _) = _
  rw [regIndex_ofNat]
  change (operands (fpWords fpBits) (ops ++ rest) >>= _) = _
  rw [operands_of_length h]
  rfl

/-- The operand words of WR_UR fit in the accumulator value. -/
theorem toNat_unitValue {urid : Half} {ops : List Word} (h : ops.length = unitWords urid) :
    (BitVec.ofNat 64 (joinDigits 32 ops)).toNat = joinDigits 32 ops := by
  have hk : unitWords urid ≤ 2 := by unfold unitWords; split <;> omega
  rw [BitVec.toNat_ofNat, Nat.mod_eq_of_lt]
  exact (joinDigits_lt_of_length h).trans_le (Nat.pow_le_pow_right (by decide) (by omega))

theorem unitValue_lt {urid : Half} {v : Acc} (h : (Instr.wrUr urid v).wellFormed fpBits = true) :
    v.toNat < 2 ^ (32 * unitWords urid) := by
  unfold unitWords
  cases hu : isAccNumber urid with
  | true => exact v.isLt
  | false => simpa [Instr.wellFormed, hu] using h

theorem wellFormed_unitValue {urid : Half} {ops : List Word} (h : ops.length = unitWords urid) :
    (Instr.wrUr urid (BitVec.ofNat 64 (joinDigits 32 ops))).wellFormed fpBits = true := by
  rw [Instr.wellFormed, toNat_unitValue h]
  have hl := joinDigits_lt_of_length h
  unfold unitWords at hl
  cases hu : isAccNumber urid with
  | true => rfl
  | false => simpa [hu] using hl

/-! ## Every outcome of the decoder -/

/-- The outcomes of the decoder on a command word with given fields and the words after it: an illegal field is refused, the
operand words end too early, the value of WR_FP is too wide, or the words are those of a well-formed command. -/
inductive DecodeCase (fpBits : Nat) : Byte → Byte → Half → List Word → Except DecodeError (Instr × List Word) → Prop
  | illegal {op a : Byte} {b : Half} {ws : List Word} {e : DecodeError} (h : ¬ LegalFields op a b)
      (he : refuse e = .refused (.encoding e)) : DecodeCase fpBits op a b ws (.error e)
  | short (i : Instr) {ws : List Word} (h : ws.length < (i.operandWords fpBits).length) :
    DecodeCase fpBits i.op i.a i.b ws (.error .missingOperands)
  | wide (n : Fin 8) {ops : List Word} (hl : ops.length = fpWords fpBits) (hv : 2 ^ fpBits ≤ joinDigits 32 ops)
      (rest : List Word) : DecodeCase fpBits 0x0E (BitVec.ofNat 8 n.val) 0 (ops ++ rest) (.error .fpHighBits)
  | command (i : Instr) (hwf : i.wellFormed fpBits = true) (rest : List Word) :
    DecodeCase fpBits i.op i.a i.b (i.operandWords fpBits ++ rest) (.ok (i, rest))

namespace DecodeCase

theorem illegalA {e : DecodeError} (h : legalA op a = false) (he : refuse e = .refused (.encoding e)) :
    DecodeCase fpBits op a b ws (.error e) := .illegal (not_legalFields (.inl h)) he

theorem illegalB {e : DecodeError} (h : legalB op b = false) (he : refuse e = .refused (.encoding e)) :
    DecodeCase fpBits op a b ws (.error e) := .illegal (not_legalFields (.inr h)) he

/-- A check of `A` for a register index. -/
theorem register {f : Fin 8 → Except DecodeError (Instr × List Word)} (hl : legalA op a = decide (a.toNat ≤ 7))
    (hf : ∀ n : Fin 8, DecodeCase fpBits op (BitVec.ofNat 8 n.val) b ws (f n)) :
    DecodeCase fpBits op a b ws (regIndex a >>= f) := by
  unfold regIndex
  split
  · next h =>
    have hn := hf ⟨a.toNat, h⟩
    rw [BitVec.ofNat_toNat, BitVec.setWidth_eq] at hn
    exact hn
  · exact .illegalA (by rw [hl, decide_eq_false]; omega) rfl

/-- A check of `A` for a stack-pointer slot. -/
theorem slot {f : SpSlot → Except DecodeError (Instr × List Word)} (hl : legalA op a = decide (a.toNat ≤ 2))
    (hf : ∀ k : SpSlot, DecodeCase fpBits op (BitVec.ofNat 8 k.code) b ws (f k)) :
    DecodeCase fpBits op a b ws (slotField a >>= f) := by
  unfold slotField
  split
  · next k h =>
    obtain rfl := byte_eq_ofNat (spSlot_code_of_ofCode h).symm
    exact hf k
  · next h => exact .illegalA (by rw [hl, ← isSome_slotOfCode, h]; rfl) rfl

/-- A check that `A` is unused. -/
theorem unusedA {f : Unit → Except DecodeError (Instr × List Word)} (hl : legalA op a = decide (a.toNat = 0))
    (hf : DecodeCase fpBits op 0 b ws (f ())) : DecodeCase fpBits op a b ws (noA a >>= f) := by
  by_cases h : a = 0
  · subst h; exact hf
  · rw [noA, if_neg h]
    exact .illegalA (by rw [hl, decide_eq_false]; bv_omega) rfl

/-- A check that `B` is unused. -/
theorem unusedB {f : Unit → Except DecodeError (Instr × List Word)} (hl : legalB op b = decide (b.toNat = 0))
    (hf : DecodeCase fpBits op a 0 ws (f ())) : DecodeCase fpBits op a b ws (noB b >>= f) := by
  by_cases h : b = 0
  · subst h; exact hf
  · rw [noB, if_neg h]
    exact .illegalB (by rw [hl, decide_eq_false]; bv_omega) rfl

/-- One operand word. -/
theorem oneOperand {f : Word × List Word → Except DecodeError (Instr × List Word)}
    (hs : DecodeCase fpBits op a b [] (.error .missingOperands))
    (hf : ∀ v ws, DecodeCase fpBits op a b (v :: ws) (f (v, ws))) : DecodeCase fpBits op a b ws (operand ws >>= f) := by
  cases ws with
  | nil => exact hs
  | cons v ws => exact hf v ws

/-- Operand words read as one number. -/
theorem manyOperands {k : Nat} {f : Nat × List Word → Except DecodeError (Instr × List Word)}
    (hs : ws.length < k → DecodeCase fpBits op a b ws (.error .missingOperands))
    (hf : ∀ ops rest, ops.length = k → DecodeCase fpBits op a b (ops ++ rest) (f (joinDigits 32 ops, rest))) :
    DecodeCase fpBits op a b ws (operands k ws >>= f) := by
  unfold operands
  split
  · next h =>
    have ht := hf (ws.take k) (ws.drop k) (List.length_take_of_le h)
    rw [List.take_append_drop] at ht
    exact ht
  · next h => exact hs (by omega)

/-- A command with neither field nor operand. -/
theorem plain {i : Instr} (hA : legalA op a = decide (a.toNat = 0)) (hB : legalB op b = decide (b.toNat = 0))
    (h : DecodeCase fpBits op 0 0 ws (.ok (i, ws))) : DecodeCase fpBits op a b ws (plain i a b ws) :=
  .unusedA hA (.unusedB hB h)

/-- A command with one operand word and no field. -/
theorem plainOperand {i : Word → Instr} (hA : legalA op a = decide (a.toNat = 0)) (hB : legalB op b = decide (b.toNat = 0))
    (hs : DecodeCase fpBits op 0 0 [] (.error .missingOperands))
    (hf : ∀ v ws, DecodeCase fpBits op 0 0 (v :: ws) (.ok (i v, ws))) : DecodeCase fpBits op a b ws (plainOperand i a b ws) :=
  .unusedA hA (.unusedB hB (.oneOperand hs hf))

/-- A command whose operand words are known. -/
theorem commandOf {i : Instr} {ops : List Word} (hw : i.operandWords fpBits = ops) (hwf : i.wellFormed fpBits = true)
    (rest : List Word) : DecodeCase fpBits i.op i.a i.b (ops ++ rest) (.ok (i, rest)) := hw ▸ .command i hwf rest

end DecodeCase

/-! ### The rows with an own reading of their fields or operands -/

/-- WR_FP: the value of the operand words is compared with the register (30_encoding.md rule R108 (f)). -/
theorem decodeCase_wrFp (n : Fin 8) :
    DecodeCase fpBits 0x0E (BitVec.ofNat 8 n.val) 0 ws (do
      let (v, rest) ← operands (fpWords fpBits) ws
      if v < 2 ^ fpBits then .ok (.wrFp n v, rest) else .error .fpHighBits) := by
  refine .manyOperands (fun h => .short (.wrFp n 0) (by simpa [Instr.operandWords] using h)) fun ops rest hl => ?_
  dsimp only
  split
  · next h =>
    exact .commandOf (i := .wrFp n (joinDigits 32 ops)) (splitDigits_joinDigits_of_length hl) (decide_eq_true h) rest
  · next h => exact .wide n hl (Nat.le_of_not_lt h) rest

/-- WR_UR: the number of operand words is that of the unit register (30_encoding.md rule R111). -/
theorem decodeCase_wrUr :
    DecodeCase fpBits 0x10 0 b ws (do
      let (v, rest) ← operands (unitWords b) ws
      .ok (.wrUr b (BitVec.ofNat 64 v), rest)) := by
  refine .manyOperands (fun h => .short (.wrUr b 0) (by simpa [Instr.operandWords] using h)) fun ops rest hl => ?_
  refine .commandOf (i := .wrUr b (BitVec.ofNat 64 (joinDigits 32 ops))) ?_ (wellFormed_unitValue hl) rest
  rw [Instr.operandWords, toNat_unitValue hl, splitDigits_joinDigits_of_length hl]

/-- A `B` without the bits above bit 0 is the X bit of CC_SET. -/
theorem exists_flagField (h : b.toNat < 2) : ∃ x, (BitVec.ofBool x).setWidth 16 = b := by
  have hb : b = 0 ∨ b = 1 := by bv_omega
  rcases hb with rfl | rfl
  · exact ⟨false, rfl⟩
  · exact ⟨true, rfl⟩

theorem getLsbD_flagField (x : Bool) : ((BitVec.ofBool x).setWidth 16).getLsbD 0 = x := by cases x <;> rfl

theorem toNat_flagField_lt (x : Bool) : ((BitVec.ofBool x).setWidth 16).toNat < 2 := by cases x <;> decide

/-- An `A` below 8 is a level of INT_PEND. -/
theorem exists_levelField (h : a.toNat < 8) : ∃ level : BitVec 3, level.setWidth 8 = a := ⟨a.setWidth 3, by bv_omega⟩

/-- A `B` below 256 is a vector of INT_PEND. -/
theorem exists_vectorField (h : b.toNat < 256) : ∃ vector : Byte, vector.setWidth 16 = b := ⟨b.setWidth 8, by bv_omega⟩

theorem setWidth_levelField (level : BitVec 3) : (level.setWidth 8).setWidth 3 = level := by bv_omega

theorem setWidth_vectorField (vector : Byte) : (vector.setWidth 16).setWidth 8 = vector := by bv_omega

/-- CC_SET: a kind code, the X bit and two operand words. -/
theorem decodeCase_ccSet : DecodeCase fpBits 0x20 a b ws (decodeFields fpBits 0x20 a b ws) := by
  change DecodeCase _ _ _ _ _ (match CcKind.ofCode a.toNat with | none => _ | some kind => if b.toNat < 2 then _ else _)
  split
  · next h => exact .illegalA (by rw [legalA_ccSet, h]; rfl) rfl
  · next kind h =>
    obtain rfl := byte_eq_ofNat (ccKind_code_of_ofCode h).symm
    split
    · next hb =>
      obtain ⟨x, rfl⟩ := exists_flagField hb
      rw [getLsbD_flagField]
      rcases ws with _ | ⟨dest, _ | ⟨src, ws⟩⟩
      · exact .short (.ccSet kind x 0 0) Nat.two_pos
      · exact .short (.ccSet kind x 0 0) Nat.one_lt_two
      · exact .command (.ccSet kind x dest src) rfl ws
    · next hb => exact .illegalB (decide_eq_false (by omega)) rfl

/-- INT_PEND: a level and a vector, each with the bits above it clear. -/
theorem decodeCase_intPend : DecodeCase fpBits 0x40 a b ws (decodeFields fpBits 0x40 a b ws) := by
  change DecodeCase _ _ _ _ _ (if a.toNat < 8 then if b.toNat < 256 then _ else _ else _)
  split
  · next ha =>
    split
    · next hb =>
      obtain ⟨level, rfl⟩ := exists_levelField ha
      obtain ⟨vector, rfl⟩ := exists_vectorField hb
      rw [setWidth_levelField, setWidth_vectorField]
      exact .command (.intPend level vector) rfl ws
    · next hb => exact .illegalB (decide_eq_false (by omega)) rfl
  · next ha => exact .illegalA (decide_eq_false (by omega)) rfl

/-- The rows of 30_encoding.md rule R104 in their order, then the unassigned `OP`. -/
theorem decodeFields_case (fpBits : Nat) (op a : Byte) (b : Half) (ws : List Word) :
    DecodeCase fpBits op a b ws (decodeFields fpBits op a b ws) := by
  unfold decodeFields
  split
  case h_30 => exact .illegalA (by unfold legalA; split <;> simp_all) rfl
  all_goals rename_i h; obtain rfl := byte_eq_ofNat h
  · exact .register rfl fun n => .unusedB rfl (.command (.rdD n) rfl ws)
  · exact .register rfl fun n => .unusedB rfl
      (.oneOperand (.short (.wrD n 0) Nat.one_pos) fun v ws => .command (.wrD n v) rfl ws)
  · exact .register rfl fun n => .unusedB rfl (.command (.rdA n) rfl ws)
  · exact .register rfl fun n => .unusedB rfl
      (.oneOperand (.short (.wrA n 0) Nat.one_pos) fun v ws => .command (.wrA n v) rfl ws)
  · exact .plain rfl rfl (.command .rdPc rfl ws)
  · exact .plainOperand rfl rfl (.short (.wrPc 0) Nat.one_pos) fun v ws => .command (.wrPc v) rfl ws
  · exact .plain rfl rfl (.command .rdSr rfl ws)
  · exact .plainOperand rfl rfl (.short (.wrSr 0) Nat.one_pos) fun v ws => .command (.wrSr v) rfl ws
  · exact .plain rfl rfl (.command .rdCcr rfl ws)
  · exact .plainOperand rfl rfl (.short (.wrCcr 0) Nat.one_pos) fun v ws => .command (.wrCcr v) rfl ws
  · exact .slot rfl fun k => .unusedB rfl (.command (.rdSp k) rfl ws)
  · exact .slot rfl fun k => .unusedB rfl
      (.oneOperand (.short (.wrSp k 0) Nat.one_pos) fun v ws => .command (.wrSp k v) rfl ws)
  · exact .register rfl fun n => .unusedB rfl (.command (.rdFp n) rfl ws)
  · exact .register rfl fun n => .unusedB rfl (decodeCase_wrFp n)
  · exact .unusedA rfl (.command (.rdUr b) rfl ws)
  · exact .unusedA rfl decodeCase_wrUr
  · exact decodeCase_ccSet
  · exact .plain rfl rfl (.command .ccFlags rfl ws)
  · exact .plain rfl rfl (.command .ctx rfl ws)
  · exact .unusedA rfl (.command (.rdCr b) rfl ws)
  · exact .unusedA rfl (.oneOperand (.short (.wrCr b 0) Nat.one_pos) fun v ws => .command (.wrCr b v) rfl ws)
  · exact decodeCase_intPend
  · exact .plain rfl rfl (.command .intCheck rfl ws)
  · split
    · next h => exact .illegalA ((legalA_raise a).trans (by rw [h]; rfl)) rfl
    · next kind h =>
      obtain rfl := byte_eq_ofNat (kind_code_of_ofCode h).symm
      exact .unusedB rfl (.oneOperand (.short (.raise kind 0) Nat.one_pos) fun v ws => .command (.raise kind v) rfl ws)
  · exact .plain rfl rfl (.command .rte rfl ws)
  · exact .plainOperand rfl rfl (.short (.mapRam 0) Nat.one_pos) fun v ws => .command (.mapRam v) rfl ws
  · exact .plain rfl rfl (.command .bootKernel rfl ws)
  · exact .plain rfl rfl (.command .bootRom rfl ws)
  · exact .plain rfl rfl (.command .coldStart rfl ws)

/-! ## The round trip -/

/-- What decodes is the words of a well-formed command. -/
theorem decodeFields_eq_ok {i : Instr} {rest : List Word} (h : decodeFields fpBits op a b ws = .ok (i, rest)) :
    i.wellFormed fpBits = true ∧ i.op = op ∧ i.a = a ∧ i.b = b ∧ i.operandWords fpBits ++ rest = ws := by
  have hc := decodeFields_case fpBits op a b ws
  rw [h] at hc
  cases hc with
  | command _ hwf => exact ⟨hwf, rfl, rfl, rfl, rfl⟩

/-- Settles O3: words decode in one outcome only, the one of the words of a well-formed command. -/
theorem encodeInvertsDecode : Obligations.EncodeInvertsDecode := by
  intro fpBits ws rest i h
  cases ws with
  | nil => cases h
  | cons w ws =>
    obtain ⟨hwf, hop, ha, hb, rfl⟩ := decodeFields_eq_ok h
    refine ⟨hwf, ?_⟩
    rw [encode, hop, ha, hb, commandWord_fields, List.cons_append]

theorem decode_commandWord (fpBits : Nat) (op a : Byte) (b : Half) (ws : List Word) :
    decode fpBits (commandWord op a b :: ws) = decodeFields fpBits op a b ws := by
  simp [decode]

/-- The row of a command reads the fields and operand words of that command back. -/
theorem decodeFields_instr {i : Instr} (h : i.wellFormed fpBits = true) (rest : List Word) :
    decodeFields fpBits i.op i.a i.b (i.operandWords fpBits ++ rest) = .ok (i, rest) := by
  cases i with
  | rdD n | wrD n | rdA n | wrA n | rdFp n =>
    change (regIndex (BitVec.ofNat 8 n.val) >>= _) = _
    rw [regIndex_ofNat]
    rfl
  | rdSp k | wrSp k =>
    change (slotField (BitVec.ofNat 8 k.code) >>= _) = _
    rw [slotField_ofNat]
    rfl
  | wrFp n v =>
    have hv : v < 2 ^ fpBits := of_decide_eq_true h
    have hd := decodeFields_wrFp (fpBits := fpBits) n (length_splitDigits 32 (fpWords fpBits) v) rest
    rwa [joinDigits_splitDigits, Nat.mod_eq_of_lt (lt_words_of_lt hv), if_pos hv] at hd
  | wrUr urid v =>
    change (operands (unitWords urid) (splitDigits 32 (unitWords urid) v.toNat ++ rest) >>= _) = _
    rw [operands_append, Nat.mod_eq_of_lt (unitValue_lt h)]
    change Except.ok (Instr.wrUr urid (BitVec.ofNat 64 v.toNat), rest) = _
    rw [BitVec.ofNat_toNat, BitVec.setWidth_eq]
  | ccSet kind x dest src =>
    change (match CcKind.ofCode (BitVec.ofNat 8 kind.code).toNat with
      | none => _
      | some kind => if ((BitVec.ofBool x).setWidth 16).toNat < 2 then
          Except.ok (Instr.ccSet kind (((BitVec.ofBool x).setWidth 16).getLsbD 0) dest src, rest) else _) = _
    rw [toNat_ccKindCode, ccKind_ofCode_code]
    dsimp only
    rw [if_pos (toNat_flagField_lt x), getLsbD_flagField]
  | intPend level vector =>
    change (if (level.setWidth 8).toNat < 8 then if (vector.setWidth 16).toNat < 256 then
      Except.ok (Instr.intPend ((level.setWidth 8).setWidth 3) ((vector.setWidth 16).setWidth 8), rest) else _ else _) = _
    rw [if_pos (Nat.lt_succ_of_le (levelField_le level)), if_pos (Nat.lt_succ_of_le (vectorField_le vector)),
      setWidth_levelField, setWidth_vectorField]
  | raise kind retpc =>
    change (match Kind.ofCode (BitVec.ofNat 8 kind.code).toNat with | none => _ | some _ => _) = _
    rw [toNat_kindCode, kind_ofCode_code]
    rfl
  | _ => rfl

/-- Settles O2: the fields of a command word are those it was made of, and the row of the command reads them back. -/
theorem decodeInvertsEncode : Obligations.DecodeInvertsEncode := by
  intro fpBits i rest h
  rw [encode, List.cons_append, decode_commandWord, decodeFields_instr h]

/-! ## The words that decode -/

/-- The number of operand words is that of the "Ops" column. -/
theorem operandCount_commandWord (fpBits : Nat) (op a : Byte) (b : Half) :
    operandCount fpBits (commandWord op a b) =
      if op ∈ [0x02, 0x04, 0x06, 0x08, 0x0A, 0x0C, 0x32, 0x42, 0x50] then 1
      else if op = 0x0E then (fpBits + 31) / 32
      else if op = 0x10 then (if 0x18 ≤ b.toNat ∧ b.toNat ≤ 0x1B then 2 else 1)
      else if op = 0x20 then 2
      else 0 := by
  unfold operandCount
  rw [opField_commandWord, bField_commandWord]
  split
  case h_13 => simp_all [← BitVec.toNat_inj]
  all_goals rename_i h; obtain rfl := byte_eq_ofNat h
  case h_11 => simp [unitWords, isAccNumber]
  all_goals rfl

/-- The operand words of a well-formed WR_FP have no bit above the register. -/
theorem joinDigits_operandWords_lt {i : Instr} (hop : i.op = 0x0E) (hwf : i.wellFormed fpBits = true) :
    joinDigits 32 (i.operandWords fpBits) < 2 ^ fpBits := by
  cases i with
  | wrFp n v =>
    rw [Instr.operandWords, joinDigits_splitDigits]
    exact (Nat.mod_le _ _).trans_lt (of_decide_eq_true hwf)
  | _ => cases hop

theorem eq_nil_of_length_append {ops rest : List Word} (h : (ops ++ rest).length = ops.length) : rest = [] := by
  simpa using h

/-- Settles O4: one way by the round trip, the other by excluding every other outcome of the decoder. -/
theorem decodableWords : Obligations.DecodableWords := by
  intro fpBits op a b ops
  dsimp only
  rw [← operandCount_commandWord fpBits op a b, decode_commandWord]
  constructor
  · rintro ⟨i, h⟩
    obtain ⟨hwf, rfl, rfl, rfl, rfl⟩ := decodeFields_eq_ok h
    obtain ⟨hA, hB⟩ := legalFields_instr i
    rw [List.append_nil]
    exact ⟨hA, hB, operandWords_count i fpBits, fun hop => joinDigits_operandWords_lt hop hwf⟩
  · rintro ⟨hA, hB, hl, hfp⟩
    have hc := decodeFields_case fpBits op a b ops
    generalize decodeFields fpBits op a b ops = x at hc ⊢
    cases hc with
    | illegal h => exact absurd ⟨hA, hB⟩ h
    | short i h => rw [operandWords_count i, ← hl] at h; exact absurd h (Nat.lt_irrefl _)
    | @wide n ops hk hv rest =>
      have hcount := operandWords_count (.wrFp n 0) fpBits
      rw [Instr.operandWords, length_splitDigits] at hcount
      obtain rfl : rest = [] := eq_nil_of_length_append (hl.trans (hcount.symm.trans hk.symm))
      rw [List.append_nil] at hfp
      exact absurd (hfp rfl) (Nat.not_lt.mpr hv)
    | command i hwf rest =>
      obtain rfl : rest = [] := eq_nil_of_length_append (hl.trans (operandWords_count i fpBits).symm)
      exact ⟨i, rfl⟩

/-! ## Refusals (30_encoding.md rule R108) -/

theorem step_commandWord (h : s.inbox = commandWord op a b :: ws) {e : DecodeError}
    (hd : decodeFields s.cfg.fpBits op a b ws = .error e) (he : refuse e = .refused (.encoding e)) :
    step s = .refused (.encoding e) := by
  rw [step, h, decode_commandWord, hd]
  exact he

/-- An illegal field is refused, whatever words follow (cases (a) to (d)). -/
theorem decodeFields_illegal (fpBits : Nat) (ws : List Word) (h : ¬ LegalFields op a b) :
    ∃ e, decodeFields fpBits op a b ws = .error e ∧ refuse e = .refused (.encoding e) := by
  have hc := decodeFields_case fpBits op a b ws
  generalize decodeFields fpBits op a b ws = x at hc ⊢
  cases hc with
  | illegal _ he => exact ⟨_, rfl, he⟩
  | short i => exact absurd (legalFields_instr i) h
  | wide n => exact absurd (legalFields_instr (.wrFp n 0)) h
  | command i => exact absurd (legalFields_instr i) h

/-- A boot command is refused in a boot state that does not accept it. -/
theorem boot_refused (hf : s.fatal = none) {accepted : Bool} (ha : accepted = false) (q : Refusal)
    (e : Host.Outcome State Fault Refusal) : s.boot accepted q e = .refused q := by
  rw [State.boot, hf, ha]
  rfl

/-- In a boot state that accepts it a boot command goes on. -/
theorem boot_accepted (hf : s.fatal = none) {accepted : Bool} (ha : accepted = true) (q : Refusal)
    (e : Host.Outcome State Fault Refusal) : s.boot accepted q e = e := by
  rw [State.boot, hf, ha]
  rfl

/-- Settles O7: the decoder's refusals, then the gate of the boot commands. -/
theorem illegalCommandsRefused : Obligations.IllegalCommandsRefused := by
  refine ⟨fun s op a b rest hi hb => ?_, fun s n ops rest hi hl hv => ?_, fun s size hf hb => ?_, fun s hf hb => ?_,
    fun s hf hb => ?_, fun s hf hb => ?_⟩
  · obtain ⟨e, hd, he⟩ := decodeFields_illegal s.cfg.fpBits rest (not_legalFields hb)
    exact ⟨e, step_commandWord hi hd he⟩
  · have hd := decodeFields_wrFp n hl rest
    rw [if_neg (Nat.not_lt.mpr hv)] at hd
    exact ⟨.fpHighBits, step_commandWord hi hd rfl⟩
  · exact boot_refused hf (beq_false_of_ne hb) _ _
  · exact ⟨boot_refused hf (beq_false_of_ne hb) _ _, boot_refused hf (beq_false_of_ne hb) _ _⟩
  · have ha : (s.bootState == .ramMapped) = true := beq_iff_eq.mpr hb
    constructor
    · intro hk
      refine (boot_accepted hf ha _ _).trans ?_
      rw [hk]
    · intro hk
      obtain ⟨path, hp⟩ := Option.isSome_iff_exists.mp hk
      refine (boot_accepted hf ha _ _).trans ?_
      rw [hp]
  · exact boot_refused hf (by simpa using hb) _ _

/-- Settles O1, word by word. -/
theorem writtenOutWordsDecode : Obligations.WrittenOutWordsDecode := by
  refine ⟨?_, ?_, ?_, ?_, ?_, ?_, ?_, ?_, ?_, ?_⟩ <;> decide

end Sys2Proof.Machine
end

section
/-! PROOFS. The rules of 40_register_file.md: for each register the words of the two commands that reach it, the answer of the
read, the effect of the write, what both leave alone, and the exception where a check fails. -/

namespace Sys2Proof.Machine

variable {s t : State}

/-! ## The words of the commands -/

/-- The words of a command that is well-formed, and has the same operand words, on every machine. -/
theorem spells_instr (i : Instr) {ops : List Word} (hwf : ∀ fpBits, i.wellFormed fpBits = true := by exact fun _ => rfl)
    (hops : ∀ fpBits, i.operandWords fpBits = ops := by exact fun _ => rfl) : Spells i.op i.a i.b ops i := by
  intro fpBits rest
  rw [decode_commandWord, ← hops fpBits, decodeFields_instr (hwf fpBits)]

/-- WR_UR takes as many operand words as its register asks for (30_encoding.md rule R111). -/
theorem spells_wrUr {urid : Half} {ops : List Word} {v : Acc} (hl : ops.length = unitWords urid)
    (hv : joinDigits 32 ops = v.toNat) : Spells 0x10 0 urid ops (.wrUr urid v) := by
  intro fpBits rest
  rw [decode_commandWord]
  change (operands (unitWords urid) (ops ++ rest) >>= _) = _
  rw [operands_of_length hl, hv]
  change Except.ok (Instr.wrUr urid (BitVec.ofNat 64 v.toNat), rest) = _
  rw [BitVec.ofNat_toNat, BitVec.setWidth_eq]

theorem unitWords_acc {urid : Half} (hl : 0x18 ≤ urid.toNat) (hu : urid.toNat ≤ 0x1B) : unitWords urid = 2 := by
  simp [unitWords, isAccNumber, hl, hu]

theorem unitWords_other {urid : Half} (h : ¬ (0x18 ≤ urid.toNat ∧ urid.toNat ≤ 0x1B)) : unitWords urid = 1 := by
  simpa [unitWords, isAccNumber] using h

/-- The one operand word of a register that is no accumulator (rule R135). -/
theorem joinDigits_word (v : Word) : joinDigits 32 [v] = (v.setWidth 64).toNat := by
  rw [BitVec.toNat_setWidth_of_le (by decide)]
  simp [joinDigits]

/-- The two operand words of an accumulator, the high one first (rule R135). -/
theorem joinDigits_highLow (high low : Word) : joinDigits 32 [high, low] = (high ++ low).toNat := by
  rw [BitVec.toNat_append, ← Nat.shiftLeft_add_eq_or_of_lt low.isLt, Nat.shiftLeft_eq]
  simp [joinDigits]

/-! ## Vectors of registers -/

theorem getElem_setFin_same {α : Type} {k : Nat} (xs : Vector α k) (n : Fin k) (x : α) : (xs.set n x)[n] = x :=
  Vector.getElem_set_self _

theorem getElem_setFin_other {α : Type} {k : Nat} (xs : Vector α k) {m n : Fin k} (x : α) (h : m ≠ n) :
    (xs.set n x)[m] = xs[m] :=
  Vector.getElem_set_ne _ _ fun e => h (Fin.ext e.symm)

/-! ## Frames of the writes -/

theorem Part.same_refl (s : State) (p : Part) : p.Same s s := Unchanged.refl (l := []) s p nofun

/-- The frame of a change that is followed by the end of the command. -/
theorem Unchanged.done {l : List Part} (h : Unchanged l s t) (ws : List Word) : Unchanged (l ++ [.reply]) s (t.done ws) :=
  (h.mono fun _ => List.mem_append_left _).trans ((done_unchanged t ws).mono fun _ => List.mem_append_right l)

theorem withD_unchanged (s : State) (d : Vector Word 8) : Unchanged [.d] s { s with d := d } := by
  intro p hp
  have hrefl := Part.same_refl s p
  cases p
  case d => exact absurd (List.mem_singleton_self _) hp
  all_goals exact hrefl

theorem withA_unchanged (s : State) (a : Vector Word 8) : Unchanged [.a] s { s with a := a } := by
  intro p hp
  have hrefl := Part.same_refl s p
  cases p
  case a => exact absurd (List.mem_singleton_self _) hp
  all_goals exact hrefl

theorem withPc_unchanged (s : State) (pc : Word) : Unchanged [.pc] s { s with pc := pc } := by
  intro p hp
  have hrefl := Part.same_refl s p
  cases p
  case pc => exact absurd (List.mem_singleton_self _) hp
  all_goals exact hrefl

theorem withSpSlots_unchanged (s : State) (slots : SpSlots) : Unchanged [.spSlots] s { s with spSlots := slots } := by
  intro p hp
  have hrefl := Part.same_refl s p
  cases p
  case spSlots => exact absurd (List.mem_singleton_self _) hp
  all_goals exact hrefl

theorem setCcr_unchanged (s : State) (v : Byte) : Unchanged [.record] s (s.setCcr v) := by
  intro p hp
  have hrefl := Part.same_refl s p
  cases p
  case record => exact absurd (List.mem_singleton_self _) hp
  all_goals exact hrefl

theorem setFp_unchanged (s : State) (n : Fin 8) (v : Nat) : Unchanged [.fp] s (s.setFp n v) := by
  intro p hp
  have hrefl := Part.same_refl s p
  cases p
  case fp => exact absurd (List.mem_singleton_self _) hp
  all_goals exact hrefl

/-! ## Data and address registers, program counter (rules R120 to R125) -/

/-- Settles O11: a vector after a write at one place. -/
theorem dataRegisterAccess : Obligations.DataRegisterAccess := by
  refine ⟨fun n => spells_instr (.rdD n), fun n v => spells_instr (.wrD n v), fun s hs => ⟨fun n => ?_, fun n v => ?_⟩⟩
  · exact ⟨_, rdD_next.mpr ⟨hs, rfl⟩, rfl, done_unchanged s _⟩
  · exact ⟨_, wrD_next.mpr ⟨hs, rfl⟩, rfl, getElem_setFin_same s.d n v, fun m hm => getElem_setFin_other s.d v hm,
      (withD_unchanged s _).done []⟩

/-- Settles O12: `A[7]` is the value of the live slot, and a switch saves it there. -/
theorem addressRegisterAccess : Obligations.AddressRegisterAccess := by
  refine ⟨fun n => spells_instr (.rdA n), fun n v => spells_instr (.wrA n v),
    fun s hs => ⟨fun n => ?_, ?_, fun n v => ?_⟩⟩
  · exact ⟨_, rdA_next.mpr ⟨hs, rfl⟩, rfl, done_unchanged s _⟩
  · exact ⟨_, rdA_next.mpr ⟨hs, rfl⟩, by rw [getSpSlot_live]; rfl⟩
  · refine ⟨_, wrA_next.mpr ⟨hs, rfl⟩, rfl, getElem_setFin_same s.a n v, fun m hm => getElem_setFin_other s.a v hm,
      (withA_unchanged s _).done [], ?_⟩
    rintro rfl
    have h7 : (s.a.set 7 v)[7] = v := Vector.getElem_set_self _
    exact ⟨(getSpSlot_live _).trans h7, (switchSp_saved _).trans h7⟩

/-- Settles O13: the operand is stored as it is. -/
theorem programCounterAccess : Obligations.ProgramCounterAccess := by
  refine ⟨spells_instr .rdPc, fun v => spells_instr (.wrPc v), fun s hs => ⟨?_, fun v => ?_⟩⟩
  · exact ⟨_, rdPc_next.mpr ⟨hs, rfl⟩, rfl, done_unchanged s _⟩
  · exact ⟨_, wrPc_next.mpr ⟨hs, rfl⟩, rfl, rfl, (withPc_unchanged s v).done []⟩

/-! ## Status register and condition codes (rules R126 to R129) -/

/-- The status register is the stored byte, three zero bits and the flags (10_state.md rule R29). -/
theorem readSr_eq_append (s : State) : s.readSr = s.srHi ++ (0 : BitVec 3) ++ s.flags := by
  apply BitVec.eq_of_getLsbD_eq
  intro i hi
  rw [getLsbD_readSr, BitVec.getLsbD_append, BitVec.getLsbD_append]
  by_cases h5 : i < 5
  · simp [h5, show ¬ 8 ≤ i by omega]
  · have hf : s.flags.getLsbD i = false := BitVec.getLsbD_of_ge _ _ (by omega)
    by_cases h8 : i < 8
    · simp [h5, hf, h8, show i - 5 < 3 by omega]
    · simp [h5, hf, show 8 ≤ i by omega, show ¬ i - 5 < 3 by omega, show i - 5 - 3 = i - 8 by omega]

/-- Settles O15: the status register in its three parts. -/
theorem statusReads : Obligations.StatusReads := by
  refine ⟨spells_instr .rdSr, spells_instr .rdCcr, spells_instr .ccFlags, fun s hs => ⟨?_, ?_, ?_⟩⟩
  · exact ⟨_, rdSr_next.mpr ⟨hs, rfl⟩, done_unchanged s _, by rw [done_reply, readSr_eq_append]⟩
  · exact ⟨_, rdCcr_next.mpr ⟨hs, rfl⟩, rfl, rfl, done_unchanged s _⟩
  · exact ⟨_, ccFlags_next.mpr ⟨hs, rfl⟩, rfl, rfl, done_unchanged s _⟩

/-- WR_SR in supervisor mode writes the low half of its operand to the status register. -/
theorem wrSr_supervisor (hs : s.Running) (hS : s.supervisor = true) (v : Word) :
    exec (.wrSr v) s = .next ((s.setSr (v.setWidth 16)).done []) :=
  wrSr_next.mpr ⟨hs, .inl ⟨hS, by rw [BitVec.setWidth_eq_extractLsb' (by decide)]⟩⟩

/-- Settles O16: a write of the status register switches to the slot it selects and moves no slot's value. -/
theorem statusWrite : Obligations.StatusWrite := by
  refine ⟨fun v => spells_instr (.wrSr v), fun s v hs => ⟨fun hS => ?_, fun hU => ?_⟩⟩
  · refine ⟨_, wrSr_supervisor hs hS v, rfl, ?_, rfl, ?_, readSr_setSr s _, setSr_currentSp s _, setSr_a7 s _,
      getSpSlot_setSr s _, fun n hn => setSr_a_other s _ n.isLt fun e => hn (Fin.ext e),
      ((setSr_unchanged s _).done []).mono (by decide)⟩
    · rw [done_srHi, setSr_srHi, BitVec.extractLsb'_setWidth_of_le (by decide)]
    · exact (setSr_flags s _).trans (BitVec.extractLsb'_setWidth_of_le (by decide))
  · exact wrSr_next.mpr ⟨hs, .inr ⟨hU, rfl⟩⟩

/-- WR_CCR writes the low byte of its operand to the condition codes. -/
theorem wrCcr_running (hs : s.Running) (v : Word) : exec (.wrCcr v) s = .next ((s.setCcr (v.setWidth 8)).done []) :=
  wrCcr_next.mpr ⟨hs, by rw [BitVec.setWidth_eq_extractLsb' (by decide)]⟩

/-- Settles O17: the record of kind FLAGS that holds the low five bits of the operand. -/
theorem conditionCodeWrite : Obligations.ConditionCodeWrite := by
  refine ⟨fun v => spells_instr (.wrCcr v), fun s v hs => ?_⟩
  refine ⟨_, wrCcr_running hs v, rfl, rfl, ?_, rfl, ?_, ?_, (setCcr_unchanged s _).done []⟩
  · rw [done_ccDest, setCcr_ccDest, BitVec.extractLsb'_setWidth_of_le (by decide)]
  · simp
  · exact (flags_setCcr s _).trans (BitVec.extractLsb'_setWidth_of_le (by decide))

/-! ## Stack-pointer slots (rules R130 and R131) -/

theorem setSpSlot_live (s : State) (v : Word) : s.setSpSlot s.currentSp v = { s with a := s.a.set 7 v } := if_pos rfl

theorem setSpSlot_stored {k : SpSlot} (h : k ≠ s.currentSp) (v : Word) :
    s.setSpSlot k v = { s with spSlots := s.spSlots.set k v } := if_neg h

/-- No address register but `A[7]` is a stack-pointer slot. -/
theorem setSpSlot_a_other (s : State) (k : SpSlot) (v : Word) {n : Fin 8} (h : n ≠ 7) : (s.setSpSlot k v).a[n] = s.a[n] := by
  by_cases hk : k = s.currentSp
  · rw [hk, setSpSlot_live]
    exact set7_other s.a v h
  · rw [setSpSlot_stored hk]

/-- Settles O21: the live slot and the stored ones apart, for the read and for the write. -/
theorem stackSlotAccess : Obligations.StackSlotAccess := by
  refine ⟨fun v p hp => ?_, fun s k v hs => ⟨fun hS => ⟨?_, ?_⟩, fun hU => ⟨?_, ?_⟩⟩⟩
  · have hc : p.1 = BitVec.ofNat 8 p.2.code := by revert p; decide
    rw [hc]
    exact ⟨spells_instr (.rdSp p.2), spells_instr (.wrSp p.2 v)⟩
  · refine ⟨_, rdSp_next.mpr ⟨hs, .inl ⟨hS, rfl⟩⟩, done_unchanged s _, fun hk => ?_, fun hk => ?_⟩
    · rw [done_reply, hk, getSpSlot_live]
    · rw [done_reply, getSpSlot_other s hk]
  · refine ⟨_, wrSp_next.mpr ⟨hs, .inl ⟨hS, rfl⟩⟩, rfl, fun n hn => setSpSlot_a_other s k v hn, fun hk => ?_, fun hk => ?_⟩
    · rw [hk, setSpSlot_live]
      exact ⟨Vector.getElem_set_self _, (withA_unchanged s _).done []⟩
    · rw [setSpSlot_stored hk]
      exact ⟨SpSlots.get_set_same _ _ _, fun j hj => SpSlots.get_set_other _ _ hj, (withSpSlots_unchanged s _).done []⟩
  · exact rdSp_next.mpr ⟨hs, .inr ⟨hU, rfl⟩⟩
  · exact wrSp_next.mpr ⟨hs, .inr ⟨hU, rfl⟩⟩

/-! ## Floating-point registers (rules R132 and R133) -/

/-- The words of a register that fits in them give its value back. -/
theorem joinDigits_fpResult {n : Fin 8} (h : s.fp[n] < 2 ^ s.cfg.fpBits) : joinDigits 32 (s.fpResult n) = s.fp[n] := by
  rw [State.fpResult, joinDigits_splitDigits, Nat.mod_eq_of_lt (lt_words_of_lt h)]

/-- Settles O24: the operand words are the digits of the value, which a register holds whole. -/
theorem floatingPointAccess : Obligations.FloatingPointAccess := by
  refine ⟨fun n => spells_instr (.rdFp n), fun fpBits n ops rest hl => ?_,
    fun s n hs => ⟨fun hf => ⟨?_, fun v hv => ?_⟩, fun hf => ⟨?_, fun v => ?_⟩⟩⟩
  · rw [decode_commandWord, decodeFields_wrFp n hl]
  · exact ⟨_, _, rdFp_next.mpr ⟨hs, if_pos hf⟩, rfl, length_splitDigits _ _ _, joinDigits_fpResult, done_unchanged s _⟩
  · refine ⟨_, wrFp_next.mpr ⟨hs, if_pos hf⟩, rfl, ?_, fun m hm => getElem_setFin_other s.fp _ hm,
      (setFp_unchanged s n v).done []⟩
    exact (getElem_setFin_same s.fp n _).trans (Nat.mod_eq_of_lt hv)
  · exact rdFp_next.mpr ⟨hs, if_neg (by simp [hf])⟩
  · exact wrFp_next.mpr ⟨hs, if_neg (by simp [hf])⟩

/-! ## Unit registers (rules R134 to R137) -/

/-- The component of the state a unit register is part of. -/
def UnitReg.part : UnitReg → Part
  | .fpcr => .fpcr
  | .fpsr => .fpsr
  | .macsr => .macsr
  | .macMask => .macMask
  | .acc _ => .acc

/-- A write of a unit register changes its component alone. -/
theorem writeUnit_unchanged_part (s : State) (r : UnitReg) (v : Acc) : Unchanged [r.part] s (s.writeUnit r v) := by
  intro p hp
  have hne : p ≠ r.part := fun e => hp (List.mem_singleton.mpr e)
  have hrefl := Part.same_refl s p
  cases r <;> cases p <;> first | exact hrefl | exact absurd rfl hne

/-- The numbers of the accumulators (rule R136). -/
theorem unitRegOf_acc (i : Fin 4) : unitRegOf (BitVec.ofNat 16 (0x18 + i.val)) = some (.acc i) := by revert i; decide

/-- A number that names no unit register. -/
theorem unitRegOf_eq_none {urid : Half} (h : urid.toNat ∉ [0x00, 0x01, 0x10, 0x11, 0x18, 0x19, 0x1A, 0x1B]) :
    unitRegOf urid = none := by
  unfold unitRegOf
  split <;> simp_all

/-- EMAC has the four accumulators, MAC the first (rule R136). -/
theorem unitPresent_acc (s : State) (i : Fin 4) :
    s.unitPresent (.acc i) = (s.has .emac || (s.has .mac && i == 0)) := by
  change ((s.has .mac || s.has .emac) && decide (i.val < if s.has .emac then 4 else if s.has .mac then 1 else 0)) = _
  generalize s.has .emac = emac
  generalize s.has .mac = mac
  revert emac mac i
  decide

/-- The high word and the low word of an accumulator (rule R134). -/
theorem readUnit_acc (s : State) (i : Fin 4) :
    s.readUnit (.acc i) = [(s.acc[i] >>> 32).setWidth 32, s.acc[i].setWidth 32] := by
  have hhigh (x : Acc) : x.extractLsb' 32 32 = (x >>> 32).setWidth 32 := BitVec.eq_of_toNat_eq (by simp)
  rw [State.readUnit, hhigh, BitVec.setWidth_eq_extractLsb' (x := s.acc[i]) (by decide)]

/-- RD_UR of a number that names a register: the answer, or UNSUPPORTED where the machine lacks the register. -/
theorem rdUr_named (hs : s.Running) {urid : Half} {r : UnitReg} (hr : unitRegOf urid = some r) :
    (s.unitPresent r = true →
      ∃ t, exec (.rdUr urid) s = .next t ∧ t.reply = .done (s.readUnit r) ∧ Unchanged [.reply] s t) ∧
    (s.unitPresent r = false → exec (.rdUr urid) s = .next (s.raiseSync .unsupported s.pc)) :=
  ⟨fun hp => ⟨_, rdUr_next.mpr ⟨hs, withRegister_present hr hp⟩, rfl, done_unchanged s _⟩,
    fun hp => rdUr_next.mpr ⟨hs, withRegister_absent hr hp⟩⟩

/-- WR_UR of a number that names a register: the write, or UNSUPPORTED where the machine lacks the register. -/
theorem wrUr_named (hs : s.Running) {urid : Half} {r : UnitReg} (hr : unitRegOf urid = some r) (v : Acc) {stored : State → Prop}
    (hw : stored ((s.writeUnit r v).done [])) :
    (s.unitPresent r = true →
      ∃ t, exec (.wrUr urid v) s = .next t ∧ t.reply = .done [] ∧ stored t ∧ Unchanged [r.part, .reply] s t) ∧
    (s.unitPresent r = false → exec (.wrUr urid v) s = .next (s.raiseSync .unsupported s.pc)) :=
  ⟨fun hp => ⟨_, wrUr_next.mpr ⟨hs, withRegister_present hr hp⟩, rfl, hw, (writeUnit_unchanged_part s r v).done []⟩,
    fun hp => wrUr_next.mpr ⟨hs, withRegister_absent hr hp⟩⟩

/-- Settles O25: register by register, then the numbers that name none. -/
theorem unitRegisterReads : Obligations.UnitRegisterReads := by
  refine ⟨fun urid => spells_instr (.rdUr urid), fun s hs => ?_⟩
  refine ⟨rdUr_named (r := .fpcr) hs rfl, rdUr_named (r := .fpsr) hs rfl, rdUr_named (r := .macsr) hs rfl,
    rdUr_named (r := .macMask) hs rfl, fun i => ?_, fun urid h => ?_⟩
  · rw [← unitPresent_acc, ← readUnit_acc]
    exact rdUr_named hs (unitRegOf_acc i)
  · exact rdUr_next.mpr ⟨hs, withRegister_none (unitRegOf_eq_none h)⟩

/-- Settles O26: the operand words by the kind of number, then register by register as for the reads. -/
theorem unitRegisterWrites : Obligations.UnitRegisterWrites := by
  refine ⟨fun urid v h => spells_wrUr (unitWords_other h).symm (joinDigits_word v),
    fun urid high low hl hu => spells_wrUr (unitWords_acc hl hu).symm (joinDigits_highLow high low), fun s v hs => ?_⟩
  refine ⟨wrUr_named (r := .fpcr) hs rfl v rfl, wrUr_named (r := .fpsr) hs rfl v rfl,
    wrUr_named (r := .macsr) hs rfl v rfl, wrUr_named (r := .macMask) hs rfl v rfl, fun i => ?_, fun urid h => ?_⟩
  · rw [← unitPresent_acc]
    exact wrUr_named hs (unitRegOf_acc i) v
      ⟨getElem_setFin_same s.acc i v, fun j hj => getElem_setFin_other s.acc v hj⟩
  · exact wrUr_next.mpr ⟨hs, withRegister_none (unitRegOf_eq_none h)⟩

end Sys2Proof.Machine
end

section
/-! PROOFS. The rules of 41_condition_codes.md: CC_SET, and the flags of the kinds that do no arithmetic. -/

namespace Sys2Proof.Machine

/-! ## CC_SET (rule R163) -/

theorem setRecord_unchanged (s : State) (kind : CcKind) (x : Bool) (dest src : Word) :
    Unchanged [.record] s (s.setRecord kind x dest src) := by
  intro p hp
  have hrefl := Part.same_refl s p
  cases p
  case record => exact absurd (List.mem_singleton_self _) hp
  all_goals exact hrefl

/-- `B` of CC_SET is the X bit (30_encoding.md rule R104). -/
theorem ccSet_b (kind : CcKind) (x : Bool) (dest src : Word) :
    (Instr.ccSet kind x dest src).b = if x then 1 else 0 := by
  cases x <;> rfl

/-- Settles O18: the words are those of the command, and the effect is the record alone. -/
theorem conditionCodeRecord : Obligations.ConditionCodeRecord := by
  refine ⟨fun kind x dest src => ?_, fun s kind x dest src hs => ?_⟩
  · rw [← ccSet_b kind x dest src]
    exact spells_instr (.ccSet kind x dest src)
  · exact ⟨_, ccSet_next.mpr ⟨hs, rfl⟩, rfl, rfl, rfl, rfl, rfl, (setRecord_unchanged s kind x dest src).done []⟩

/-! ## The kinds FLAGS, LOGIC and SHIFT (rules R154, R155 and R160) -/

/-- The four known flags, put back together, are the field they were read from. -/
theorem packFlags_flagsKnown (x : Bool) (dest : Word) :
    packFlags x (flagsKnown dest) = BitVec.ofBool x ++ dest.extractLsb' 0 4 := by
  apply BitVec.eq_of_getLsbD_eq
  intro i hi
  obtain ⟨h0, h1, h2, h3, h4⟩ := getLsbD_packFlags x (flagsKnown dest)
  rw [BitVec.getLsbD_append]
  interval_cases i
  · exact h0.trans (by simp [flagsKnown])
  · exact h1.trans (by simp [flagsKnown])
  · exact h2.trans (by simp [flagsKnown])
  · exact h3.trans (by simp [flagsKnown])
  · exact h4.trans (by simp)

/-- The sign of a value cut to `w` bits, in plain arithmetic (rule R152). -/
theorem msb_setWidth_eq_decide (v : Word) (w : Nat) :
    (v.setWidth w).msb = decide (2 ^ (w - 1) ≤ v.toNat % 2 ^ w) := by
  rw [BitVec.msb_eq_decide, BitVec.toNat_setWidth]

/-- Whether a value cut to `w` bits is 0, in plain arithmetic (rule R152). -/
theorem setWidth_beq_zero (v : Word) (w : Nat) : (v.setWidth w == 0) = decide (v.toNat % 2 ^ w = 0) := by
  rw [Bool.eq_iff_iff, beq_iff_eq, decide_eq_true_iff, ← BitVec.toNat_inj, BitVec.toNat_setWidth]
  rfl

/-- Settles O19: FLAGS is a copy of four bits; LOGIC and SHIFT read the sign and the zero of the result cut to the width. -/
theorem plainFlags : Obligations.PlainFlags := by
  refine ⟨fun s hk => ?_, fun s w => ⟨fun hk => ?_, fun hk => ?_⟩⟩
  · rw [State.flags, hk]
    exact packFlags_flagsKnown s.ccX s.ccDest
  · rw [State.flags, hk, ← msb_setWidth_eq_decide, ← setWidth_beq_zero]
    rfl
  · rw [State.flags, hk, ← msb_setWidth_eq_decide, ← setWidth_beq_zero, decide_not]
    rfl

end Sys2Proof.Machine
end

section
/-! PROOFS. The rules of 42_mmu_privilege.md: the control registers, the active context, the vectors each command can enter, and
who writes MMUSR. -/

namespace Sys2Proof.Machine

variable {s t : State} {i : Instr} {v : Byte}

/-! ## The vectors a command can enter (rule R199) -/

/-- The kinds that checks of commands other than check 3 raise: checks 4 and 5 (40_register_file.md rule R138), and those of a
return (60_exceptions.md rule R297). -/
def checkKinds : List Kind := [.illegal, .unsupported, .access, .format]

/-- The vectors that command `i` can enter from `s`. -/
inductive Enters (s : State) : Instr → Byte → Prop
  | privilege {i : Instr} (hS : s.supervisor = false) (hi : i.privClass = .supervisor) : Enters s i (vectorOf .privilege)
  | check {i : Instr} {k : Kind} (hk : k ∈ checkKinds) : Enters s i (vectorOf k)
  | raise (k : Kind) (retpc : Word) : Enters s (.raise k retpc) (vectorOf k)
  | interrupt : Enters s .intCheck s.pendingVector

theorem enter_exception {c : Cause} {w : Byte} {r : Word} {m : BitVec 3} (h : (s.enter c w r m).reply = .exception v) :
    v = w := by
  rcases enter_reply s c w r m with e | ⟨e, -, -⟩
  · exact Reply.exception.inj (h.symm.trans e)
  · exact nomatch h.symm.trans e

namespace Enters

/-- A state that differs in the count of reads raises the kind of a check. -/
theorem raised {u : State} {k : Kind} {r : Word} (hk : k ∈ checkKinds) (h : (u.raiseSync k r).reply = .exception v) :
    Enters s i v := by
  rw [enter_exception h]
  exact .check hk

/-- An access to a numbered register enters the vectors of checks 4 and 5 alone. -/
theorem ofWithRegister {R : Type} {reg : Option R} {present : R → Bool} {effect : R → State}
    (he : ∀ r, (effect r).reply ≠ .exception v) (h : (s.withRegister reg present effect).reply = .exception v) :
    Enters s i v := by
  rcases withRegister_cases (t := s.withRegister reg present effect) rfl with ⟨-, e⟩ | ⟨r, -, -, e⟩ | ⟨r, -, -, e⟩ <;>
    rw [e] at h
  · exact raised (by decide) h
  · exact raised (by decide) h
  · exact absurd h (he r)

/-- A command of class S enters vector 8 in user mode, and what its effect enters in supervisor mode. -/
theorem ofPrivileged {e : State} (hi : i.privClass = .supervisor) (h : s.privileged e = .next t)
    (hr : t.reply = .exception v) (he : e.reply = .exception v → Enters s i v) : Enters s i v := by
  obtain ⟨-, ⟨-, rfl⟩ | ⟨hS, rfl⟩⟩ := privileged_eq_next.mp h
  · exact he hr
  · rw [enter_exception hr]
    exact .privilege hS hi

theorem ofReturnFrom (h : s.returnFrom.reply = .exception v) : Enters s i v := by
  rcases returnFrom_cases s with ⟨n, k, hk, e⟩ | ⟨-, -, -, e⟩ <;> rw [e] at h
  · exact raised (by rcases hk with rfl | rfl <;> decide) h
  · exact nomatch h

end Enters

/-- A command whose outcome is an exception has entered one of its vectors. -/
theorem exec_enters (h : exec i s = .next t) (hr : t.reply = .exception v) : Enters s i v := by
  cases i with
  | rdD | wrD | rdA | wrA | rdPc | wrPc | rdSr | rdCcr | wrCcr | ccSet | ccFlags | ctx =>
    obtain ⟨-, rfl⟩ := engine_eq_next.mp h
    exact nomatch hr
  | wrSr | rdSp | wrSp => exact .ofPrivileged rfl h hr nofun
  | rdCr | wrCr => exact .ofPrivileged rfl h hr (.ofWithRegister fun _ => nofun)
  | rte => exact .ofPrivileged rfl h hr .ofReturnFrom
  | rdFp | wrFp =>
    obtain ⟨-, h⟩ := engine_eq_next.mp h
    split at h <;> subst h
    · exact nomatch hr
    · exact .raised (by decide) hr
  | rdUr | wrUr =>
    obtain ⟨-, rfl⟩ := engine_eq_next.mp h
    refine .ofWithRegister ?_ hr
    exact fun _ => nofun
  | intCheck =>
    obtain ⟨-, h⟩ := intCheck_next.mp h
    split at h <;> subst h
    · rw [enter_exception hr]
      exact .interrupt
    · exact nomatch hr
  | raise kind retpc =>
    obtain ⟨-, h⟩ := raise_next.mp h
    split at h <;> subst h
    · rcases coldStart_reply s with e | e <;> exact nomatch hr.symm.trans e
    · rw [enter_exception hr]
      exact .raise kind retpc
  | intPend =>
    obtain ⟨-, rfl⟩ := intPend_next.mp h
    exact nomatch hr
  | mapRam =>
    obtain ⟨-, -, -, h⟩ := mapRam_next.mp h
    split at h <;> subst h <;> exact nomatch hr
  | bootKernel =>
    obtain ⟨-, -, -, path, -, h⟩ := bootKernel_next.mp h
    split at h <;> subst h
    · exact nomatch hr
    · exact absurd hr ((prepareKernel_effect _ _).reply v)
  | bootRom =>
    obtain ⟨-, -, -, -, h⟩ := bootRom_next.mp h
    split at h <;> subst h <;> exact nomatch hr
  | coldStart =>
    obtain ⟨-, -, rfl⟩ := coldStart_next.mp h
    rcases coldStart_reply s with e | e <;> exact nomatch hr.symm.trans e

/-! ## Privilege (rule R199) -/

/-- A command of class S makes checks 2 and 3 (40_register_file.md rule R138) and then has its effect. -/
theorem exec_privileged (h : i.privClass = .supervisor) (s : State) : ∃ e, exec i s = s.privileged e := by
  cases i with
  | wrSr | rdSp | wrSp | rdCr | wrCr | rte => exact ⟨_, rfl⟩
  | _ => exact nomatch h

/-- The commands of class S in the table of 30_encoding.md rule R104. -/
theorem privClass_supervisor_iff : i.privClass = .supervisor ↔
    (∃ v, i = .wrSr v) ∨ (∃ k, i = .rdSp k) ∨ (∃ k v, i = .wrSp k v) ∨ (∃ c, i = .rdCr c) ∨ (∃ c v, i = .wrCr c v) ∨
      i = .rte := by
  cases i <;> simp [Instr.privClass]

/-- No kind but PRIVILEGE has vector 8 (60_exceptions.md rule R280). -/
theorem eq_privilege_of_vectorOf {k : Kind} (h : vectorOf k = 8) : k = .privilege := by
  have hc : k.code = 8 := by rw [← toNat_kindCode k]; exact congrArg BitVec.toNat h
  have hk := kind_ofCode_code k
  rw [hc] at hk
  exact (Option.some.inj hk).symm

/-- How vector 8 is entered. -/
theorem Enters.vector_eight (h : Enters s i v) (hv : v = 8) :
    (s.supervisor = false ∧ i.privClass = .supervisor) ∨ (∃ retpc, i = .raise .privilege retpc) ∨
      (i = .intCheck ∧ s.pendingVector = 8) := by
  cases h with
  | privilege hS hi => exact .inl ⟨hS, hi⟩
  | raise k retpc => exact .inr (.inl ⟨retpc, by rw [eq_privilege_of_vectorOf hv]⟩)
  | interrupt => exact .inr (.inr ⟨rfl, hv⟩)
  | check hk =>
    rw [eq_privilege_of_vectorOf hv] at hk
    exact absurd hk (by decide)

/-- Settles O30: the gate of class S, and the commands that can enter vector 8. -/
theorem userModeIsChecked : Obligations.UserModeIsChecked := by
  refine ⟨fun s i hs hS hi => ?_, fun i => privClass_supervisor_iff, fun s t i h hr => ?_⟩
  · obtain ⟨e, he⟩ := exec_privileged hi s
    rw [he, privileged_user hs hS]
  · exact (exec_enters h hr).vector_eight rfl

/-! ## The control registers (rules R193 to R195) -/

/-- The component of the state a control register is part of. -/
def CtrlReg.part : CtrlReg → Part
  | .sfc => .sfc
  | .dfc => .dfc
  | .vbr => .vbr
  | .tcr => .tcr
  | .mmusr => .mmusr
  | .root _ => .root
  | .ttr _ _ => .ttr

/-- A write of a control register changes its component alone. -/
theorem writeCtrl_unchanged_part (s : State) (r : CtrlReg) (v : Word) : Unchanged [r.part] s (s.writeCtrl r v) := by
  intro p hp
  have hne : p ≠ r.part := fun e => hp (List.mem_singleton.mpr e)
  have hrefl := Part.same_refl s p
  cases r <;> cases p <;> first | exact hrefl | exact absurd rfl hne

/-- The numbers of `ROOT[c]` (rule R193). -/
theorem ctrlRegOf_root (c : Fin 2) : ctrlRegOf (BitVec.ofNat 16 (0x010 + c.val)) = some (.root c) := by revert c; decide

/-- The numbers of `TTR[c][j]` (rule R193). -/
theorem ctrlRegOf_ttr (c : Fin 2) (j : Fin 4) :
    ctrlRegOf (BitVec.ofNat 16 (0x020 + 4 * c.val + j.val)) = some (.ttr c j) := by revert c j; decide

/-- A number that names no control register. -/
theorem ctrlRegOf_eq_none {crid : Half}
    (h : crid.toNat ∉ [0, 1, 2, 3, 4, 0x10, 0x11, 0x20, 0x21, 0x22, 0x23, 0x24, 0x25, 0x26, 0x27]) :
    ctrlRegOf crid = none := by
  unfold ctrlRegOf
  split <;> simp_all

/-- RD_CR of a number that names a register, in supervisor mode: the answer, or UNSUPPORTED where the machine lacks the
register. -/
theorem rdCr_named (hs : s.Running) (hS : s.supervisor = true) {crid : Half} {r : CtrlReg} (hr : ctrlRegOf crid = some r) :
    (s.ctrlPresent r = true →
      ∃ t, exec (.rdCr crid) s = .next t ∧ t.reply = .done [s.readCtrl r] ∧ Unchanged [.reply] s t) ∧
    (s.ctrlPresent r = false → exec (.rdCr crid) s = .next (s.raiseSync .unsupported s.pc)) :=
  ⟨fun hp => ⟨_, rdCr_next.mpr ⟨hs, .inl ⟨hS, withRegister_present hr hp⟩⟩, rfl, done_unchanged s _⟩,
    fun hp => rdCr_next.mpr ⟨hs, .inl ⟨hS, withRegister_absent hr hp⟩⟩⟩

/-- WR_CR of a number that names a register, in supervisor mode: the write, or UNSUPPORTED where the machine lacks the
register. -/
theorem wrCr_named (hs : s.Running) (hS : s.supervisor = true) {crid : Half} {r : CtrlReg} (hr : ctrlRegOf crid = some r)
    (v : Word) {stored : State → Prop} (hw : stored ((s.writeCtrl r v).done [])) :
    (s.ctrlPresent r = true →
      ∃ t, exec (.wrCr crid v) s = .next t ∧ t.reply = .done [] ∧ stored t ∧ Unchanged [r.part, .reply] s t) ∧
    (s.ctrlPresent r = false → exec (.wrCr crid v) s = .next (s.raiseSync .unsupported s.pc)) :=
  ⟨fun hp => ⟨_, wrCr_next.mpr ⟨hs, .inl ⟨hS, withRegister_present hr hp⟩⟩, rfl, hw,
      (writeCtrl_unchanged_part s r v).done []⟩,
    fun hp => wrCr_next.mpr ⟨hs, .inl ⟨hS, withRegister_absent hr hp⟩⟩⟩

/-- Settles O27: register by register, then the numbers that name none. -/
theorem controlRegisterReads : Obligations.ControlRegisterReads := by
  refine ⟨fun crid => spells_instr (.rdCr crid), fun s hs => ⟨fun hU crid => ?_, fun hS => ?_⟩⟩
  · exact rdCr_next.mpr ⟨hs, .inr ⟨hU, rfl⟩⟩
  · exact ⟨rdCr_named (r := .sfc) hs hS rfl, rdCr_named (r := .dfc) hs hS rfl, rdCr_named (r := .vbr) hs hS rfl,
      rdCr_named (r := .tcr) hs hS rfl, rdCr_named (r := .mmusr) hs hS rfl, fun c => rdCr_named hs hS (ctrlRegOf_root c),
      fun c j => rdCr_named hs hS (ctrlRegOf_ttr c j),
      fun crid h => rdCr_next.mpr ⟨hs, .inl ⟨hS, withRegister_none (ctrlRegOf_eq_none h)⟩⟩⟩

/-- A write of `ROOT[c]` is read back there and changes no other entry. -/
theorem writeCtrl_root_entries (s : State) (c : Fin 2) (v : Word) :
    (s.writeCtrl (.root c) v).root[c] = v ∧ ∀ e : Fin 2, e ≠ c → (s.writeCtrl (.root c) v).root[e] = s.root[e] :=
  ⟨getElem_setFin_same s.root c v, fun _ he => getElem_setFin_other s.root v he⟩

/-- A write of `TTR[c][j]` is read back there and changes no other entry, of the same context or of the other. -/
theorem writeCtrl_ttr_entries (s : State) (c : Fin 2) (j : Fin 4) (v : Word) :
    (s.writeCtrl (.ttr c j) v).ttr[c][j] = v ∧ ∀ (e : Fin 2) (k : Fin 4), ¬ (e = c ∧ k = j) →
      (s.writeCtrl (.ttr c j) v).ttr[e][k] = s.ttr[e][k] := by
  have hrow : (s.writeCtrl (.ttr c j) v).ttr[c] = s.ttr[c].set j v := getElem_setFin_same s.ttr c _
  refine ⟨by rw [hrow, getElem_setFin_same], fun e k hek => ?_⟩
  by_cases he : e = c
  · subst he
    rw [hrow, getElem_setFin_other _ _ fun hk => hek ⟨rfl, hk⟩]
  · exact congrArg (fun row : Vector Word 4 => row[k]) (getElem_setFin_other s.ttr _ he)

/-- Settles O28: register by register as for the reads. -/
theorem controlRegisterWrites : Obligations.ControlRegisterWrites := by
  refine ⟨fun crid v => spells_instr (.wrCr crid v), fun s v hs => ⟨fun hU crid => ?_, fun hS => ?_⟩⟩
  · exact wrCr_next.mpr ⟨hs, .inr ⟨hU, rfl⟩⟩
  · have hcode : v.setWidth 3 = v.extractLsb' 0 3 := BitVec.setWidth_eq_extractLsb' (by decide)
    exact ⟨wrCr_named (r := .sfc) hs hS rfl v hcode, wrCr_named (r := .dfc) hs hS rfl v hcode,
      wrCr_named (r := .vbr) hs hS rfl v rfl, wrCr_named (r := .tcr) hs hS rfl v rfl,
      wrCr_named (r := .mmusr) hs hS rfl v rfl,
      fun c => wrCr_named hs hS (ctrlRegOf_root c) v (writeCtrl_root_entries s c v),
      fun c j => wrCr_named hs hS (ctrlRegOf_ttr c j) v (writeCtrl_ttr_entries s c j v),
      fun crid h => wrCr_next.mpr ⟨hs, .inl ⟨hS, withRegister_none (ctrlRegOf_eq_none h)⟩⟩⟩

/-! ## The active context (rules R190 and R192) -/

/-- Settles O29: bit 13 of the status register is bit 5 of its stored byte. -/
theorem activeContextReport : Obligations.ActiveContextReport := by
  refine ⟨spells_instr .ctx, fun _ => rfl, fun s hs => ⟨_, ctx_next.mpr ⟨hs, rfl⟩, done_unchanged s _, ?_⟩⟩
  rw [done_reply, activeContext, readSr_supervisor, State.supervisor]

/-! ## Who writes MMUSR (rule R197) -/

/-- MMUSR has one number. -/
theorem eq_of_ctrlRegOf_mmusr {crid : Half} (h : ctrlRegOf crid = some .mmusr) : crid = 0x004 := by
  unfold ctrlRegOf at h
  split at h
  case h_5 hn => exact BitVec.eq_of_toNat_eq hn
  all_goals exact nomatch h

/-- What a command that leaves MMUSR changed has done. -/
theorem Effect.mmusr (h : Effect s i t) : t.mmusr = s.mmusr ∨ ∃ v, i = .wrCr 0x004 v ∧ t.mmusr = v := by
  cases h with
  | @wrCr _ _ _ r hr _ v =>
    cases r with
    | mmusr => exact .inr ⟨v, by rw [eq_of_ctrlRegOf_mmusr hr], rfl⟩
    | _ => exact .inl rfl
  | entered _ n c v r m => exact .inl (enter_withReads_unchanged s n c v r m .mmusr (by simp))
  | cold => exact .inl (coldStart_unchanged s .mmusr (by simp))
  | kernel _ _ _ _ hx => exact .inl (hx.unchanged_withBoot .mmusr (by simp))
  | romLoaded => exact .inl (romLoaded_unchanged s _ .mmusr (by simp))
  | wrSp | wrUr => exact .inl (by simp)
  | _ => exact .inl rfl

/-- Settles O32, from the effects a command can have. -/
theorem mmuStatusWriter : Obligations.MmuStatusWriter :=
  fun _ _ _ h hm => (effect_of_exec h).mmusr.resolve_left hm

end Sys2Proof.Machine
end

section
/-! PROOFS. The rules of 43_exception_commands.md: the pending interrupt and its sampling, and the four outcomes of RTE. -/

namespace Sys2Proof.Machine

variable {s : State}

/-! ## Interrupts (rules R210 and R211) -/

theorem withPending_unchanged (s : State) (level : BitVec 3) (vector : Byte) :
    Unchanged [.pending] s { s with pendingLevel := level, pendingVector := vector } := by
  intro p hp
  have hrefl := Part.same_refl s p
  cases p
  case pending => exact absurd (List.mem_singleton_self _) hp
  all_goals exact hrefl

/-- Settles O34: INT_PEND looks at `fatal` alone. -/
theorem interruptAssertion : Obligations.InterruptAssertion := by
  refine ⟨fun level vector => spells_instr (.intPend level vector), fun s level vector => ⟨fun hf => ?_, fun r hr => ?_⟩⟩
  · exact ⟨_, intPend_next.mpr ⟨hf, rfl⟩, rfl, rfl, rfl, (withPending_unchanged s level vector).done []⟩
  · exact exec_fatal hr _

theorem intCheck_masked (hs : s.Running) (h : s.pendingLevel ≤ s.mask) : exec .intCheck s = .next (s.done []) :=
  intCheck_next.mpr ⟨hs, if_neg (BitVec.not_lt.mpr h)⟩

theorem intCheck_taken (hs : s.Running) (h : s.mask < s.pendingLevel) :
    exec .intCheck s = .next (s.enter .interrupt s.pendingVector s.pc s.pendingLevel) :=
  intCheck_next.mpr ⟨hs, if_pos h⟩

/-- Settles O36: the pending level is masked, or the interrupt is entered. -/
theorem interruptSampling : Obligations.InterruptSampling := by
  refine ⟨spells_instr .intCheck, fun s hs => ⟨fun h => ?_, fun h => ?_⟩⟩
  · exact ⟨_, intCheck_masked hs h, rfl, done_unchanged s []⟩
  · exact ⟨_, intCheck_taken hs h, rfl, entered_of_entryOk⟩

/-! ## Return (rule R213, 60_exceptions.md rule R297) -/

/-- The three reads of the frame succeed. -/
abbrev State.frameReadOk (s : State) : Bool :=
  s.memAccessOk (s.xlateS s.a[7]) 2 .read && s.memAccessOk (s.xlateS (s.a[7] + 2)) 4 .read &&
    s.memAccessOk (s.xlateS (s.a[7] + 6)) 2 .read

theorem frameReadOk_eq_true : s.frameReadOk = true ↔
    s.memAccessOk (s.xlateS s.a[7]) 2 .read = true ∧ s.memAccessOk (s.xlateS (s.a[7] + 2)) 4 .read = true ∧
      s.memAccessOk (s.xlateS (s.a[7] + 6)) 2 .read = true := by
  rw [Bool.and_eq_true, Bool.and_eq_true, and_assoc]

/-- The format of the frame: the high four bits of its last item. -/
abbrev State.returnFormat (s : State) : BitVec 4 :=
  (s.halfAt (s.reads + 2) (s.xlateS (s.a[7] + 6))).extractLsb' 12 4

/-- The state after the frame has been read and popped. -/
abbrev State.returned (s : State) : State :=
  (s.withReads (s.reads + 3)).popFrame (s.halfAt s.reads (s.xlateS s.a[7]))
    (s.wordAt (s.reads + 1) (s.xlateS (s.a[7] + 2)))

/-- A read that fails raises ACCESS, whichever of the three it is. -/
theorem returnFrom_readFails (h : s.frameReadOk = false) :
    ∃ n, s.returnFrom = (s.withReads n).raiseSync .access s.pc := by
  rw [returnFrom_eq]
  split
  · exact ⟨s.reads, rfl⟩
  · split
    · exact ⟨s.reads + 1, rfl⟩
    · split
      · exact ⟨s.reads + 2, rfl⟩
      · next h1 h2 h3 =>
        rw [Bool.not_eq_false] at h1 h2 h3
        exact absurd (frameReadOk_eq_true.mpr ⟨h1, h2, h3⟩) (by rw [h]; decide)

/-- Once the frame is read its format decides. -/
theorem returnFrom_frameRead (h : s.frameReadOk = true) :
    s.returnFrom =
      if s.returnFormat = 0 then s.returned else (s.withReads (s.reads + 3)).raiseSync .format s.pc := by
  obtain ⟨h1, h2, h3⟩ := frameReadOk_eq_true.mp h
  rw [returnFrom_eq, if_neg (by rw [h1]; decide), if_neg (by rw [h2]; decide), if_neg (by rw [h3]; decide)]

theorem rte_supervisor (hs : s.Running) (hS : s.supervisor = true) : exec .rte s = .next s.returnFrom :=
  rte_next.mpr ⟨hs, .inl ⟨hS, rfl⟩⟩

/-- Settles O41: the gate of class S, then the reads of the frame, then its format, then the pop. -/
theorem returnEffect : Obligations.ReturnEffect := by
  refine ⟨spells_instr .rte, fun s hs => ⟨fun hU => ?_, fun hS hok => ?_, fun hS hok hf => ?_, fun hS hok hf => ?_⟩⟩
  · exact rte_next.mpr ⟨hs, .inr ⟨hU, rfl⟩⟩
  · obtain ⟨n, e⟩ := returnFrom_readFails hok
    exact ⟨n, by rw [rte_supervisor hs hS, e]; rfl⟩
  · exact ⟨s.reads + 3, by rw [rte_supervisor hs hS, returnFrom_frameRead hok, if_neg hf]; rfl⟩
  · exact ⟨s.returned, by rw [rte_supervisor hs hS, returnFrom_frameRead hok, if_pos hf], rfl, rfl, popFrame_readSr, rfl,
      popFrame_currentSp, popFrame_popped, fun k hk => popFrame_getSpSlot_other hk, fun n hn => popFrame_a_other hn,
      popFrame_withReads_unchanged s _ _ _⟩

end Sys2Proof.Machine
end

section
/-! PROOFS. The rules of 44_boot.md: MAP_RAM, the places and the payloads of what a kernel boot writes, and how BOOT_KERNEL
ends. -/

namespace Sys2Proof.Machine

variable {s : State}

/-! ## BOOT_KERNEL (rules R234, R244, R245 and R250) -/

/-- The state in which BOOT_KERNEL writes what it has loaded. -/
abbrev State.prepared (s : State) : State := { s with bootState := .kernelBootPrepared }

/-- The state BOOT_KERNEL leaves when it succeeds with memory `M`. -/
abbrev State.kernelBooted (s : State) (M : Memory) : State := { s.prepared.withMem M with bootState := .ready }.done []

/-- BOOT_KERNEL of an image that the loader has. -/
theorem bootKernel_loaded {path : Bytes} {image : ExecImage} (hf : s.fatal = none) (hh : s.halted = false)
    (hb : s.bootState = .ramMapped) (hk : s.cfg.kernelPath = some path)
    (hl : s.cfg.loader.executables.lookup path = some image) :
    exec .bootKernel s = .next (bootEnd (s.prepared.prepareKernel image)) :=
  bootKernel_next.mpr ⟨hf, hb, hh, path, hk, by rw [hl]⟩

/-- BOOT_KERNEL of an image that the loader does not have. -/
theorem bootKernel_missing {path : Bytes} (hf : s.fatal = none) (hh : s.halted = false) (hb : s.bootState = .ramMapped)
    (hk : s.cfg.kernelPath = some path) (hl : s.cfg.loader.executables.lookup path = none) :
    exec .bootKernel s = .next (s.die (.kernelLoad path)) :=
  bootKernel_next.mpr ⟨hf, hb, hh, path, hk, by rw [hl]⟩

theorem kernelBooted_unchanged (s : State) (M : Memory) : Unchanged [.bootState, .mem, .reply] s (s.kernelBooted M) :=
  ((((withBootState_unchanged s _).mono (by simp)).trans ((withMem_unchanged s.prepared M).mono (by simp))).trans
    ((withBootState_unchanged _ .ready).mono (by simp))).trans ((done_unchanged _ []).mono (by simp))

/-- Settles O45: where nothing fails, the boot is a sequence of byte writes. -/
theorem kernelBoot : Obligations.KernelBoot := by
  refine ⟨spells_instr .bootKernel, fun s path image initrd hf hh hb hk hl hi hm hw => ?_⟩
  have hok : s.prepared.prepareKernel image = .ok (s.prepared.withMem (s.prepared.storeAll (bootBytes s image initrd)).mem) :=
    (prepareKernel_ok (s := s.prepared) hi hw).trans (congrArg Except.ok (storeAll_eq _ _))
  refine ⟨s.kernelBooted (s.prepared.storeAll (bootBytes s image initrd)).mem, ?_, rfl, rfl, ?_, kernelBooted_unchanged _ _⟩
  · rw [bootKernel_loaded hf hh hb hk hl, hok]
    rfl
  · exact read_storeAll s.prepared (bootBytes s image initrd) hm hw

/-- A boot that ends in an error after the image is loaded is never partly ready. -/
theorem bootDied_prepared (s : State) (M : Memory) (r : FatalReason) : ((s.prepared.withMem M).die r).BootDied r :=
  ⟨rfl, rfl, rfl⟩

/-- What BOOT_KERNEL leaves alone once the image is loaded, however it ends. -/
theorem bootEnd_prepareKernel_unchanged (s : State) (image : ExecImage) :
    Unchanged [.fatal, .bootState, .mem, .reply] s (bootEnd (s.prepared.prepareKernel image)) :=
  (prepareKernel_effect s.prepared image).unchanged_withBoot.mono (by simp)

/-- Whether the initrd loads does not depend on the boot state. -/
theorem prepared_initrdLoads {path raw : Bytes} {size : Nat} :
    s.prepared.InitrdLoads path size raw ↔ s.InitrdLoads path size raw :=
  ⟨fun h => ⟨h.sized, h.image, h.fits, h.accepted⟩, fun h => ⟨h.sized, h.image, h.fits, h.accepted⟩⟩

theorem prepared_initrdPassed {size : Option Nat} : s.prepared.InitrdPassed size ↔ s.InitrdPassed size := by
  unfold State.InitrdPassed
  cases s.cfg.initrdPath <;> simp [prepared_initrdLoads]

/-- Settles O46: the writes before the initrd, the initrd, the writes after it; the first that fails decides. -/
theorem kernelBootFailure : Obligations.KernelBootFailure := by
  intro s path hf hh hb hk
  refine ⟨fun hl => ⟨_, bootKernel_missing hf hh hb hk hl, rfl, rfl, die_unchanged _ _⟩, fun image hl =>
    ⟨_, bootKernel_loaded hf hh hb hk hl, bootEnd_prepareKernel_unchanged s image, fun a ha => ?_, fun hlead =>
      ⟨fun initrd hp hi => ?_, fun size hi => ?_⟩⟩⟩
  · obtain ⟨M, e⟩ := prepareKernel_died (s := s.prepared) ha
    rw [e]
    exact bootDied_prepared s M _
  · obtain ⟨M, e⟩ := prepareKernel_initrdFails (s := s.prepared) hlead hp fun n raw h =>
      hi n raw (prepared_initrdLoads.mp h)
    rw [e]
    exact bootDied_prepared s M _
  · obtain ⟨M, hP⟩ := prepareKernel_performs (s := s.prepared) hlead (prepared_initrdPassed.mpr hi)
    refine ⟨fun a ha => ?_, fun hn => ?_⟩
    · obtain ⟨N, e⟩ := hP.died ha
      rw [e]
      exact bootDied_prepared s N _
    · obtain ⟨N, e⟩ := hP.succeeded hn
      rw [e]
      exact ⟨rfl, hf, rfl⟩

/-! ## MAP_RAM (rule R233) -/

/-- The state with a RAM region of the given size mapped at address 0. -/
abbrev State.withRam (s : State) (size : Word) : State :=
  { s with
    regions := { kind := .ram, base := 0, size := size.toNat, readOnly := false } :: s.regions
    ramSize := size
    bootState := .ramMapped }

theorem withRam_unchanged (s : State) (size : Word) : Unchanged [.regions, .ramSize, .bootState] s (s.withRam size) := by
  intro p hp
  have hrefl := Part.same_refl s p
  cases p
  case regions | ramSize | bootState => exact absurd (by simp) hp
  all_goals exact hrefl

theorem ram_holds {kind : RegionKind} {readOnly : Bool} {size : Nat} {a : Word} :
    Region.holds { kind, base := 0, size, readOnly } a = decide (a.toNat < size) := by
  simp [Region.holds]

/-- An address below the size belongs to the RAM. -/
theorem withRam_writable {size a : Word} (h : a.toNat < size.toNat) : (s.withRam size).Writable a := by
  rw [State.Writable, State.regionAt, List.find?_cons_of_pos (by rw [ram_holds]; exact decide_eq_true h)]
  rfl

/-- Any other address belongs to the region it belonged to. -/
theorem withRam_regionAt {size a : Word} (h : size.toNat ≤ a.toNat) : (s.withRam size).regionAt a = s.regionAt a :=
  List.find?_cons_of_neg (by rw [ram_holds]; simpa using h)

/-- Over an empty map an access is the platform's. -/
theorem memAccessOk_noRegion {a : Word} {n : Nat} {dir : Dir} (hs : ∀ b : Word, s.regionAt b = none) (hn : 0 < n) :
    s.memAccessOk a n dir = s.platformOk a n dir := by
  have hrom : ¬ s.TouchesRom a n := fun ⟨i, _, hr⟩ => by rw [hs] at hr; cases hr
  have hmap : ¬ s.Mapped a n := fun h => by simpa [hs] using h 0 hn
  rw [memAccessOk_unreported fun _ hr => absurd hr hrom, decide_eq_false hmap, Bool.false_or]

/-- Settles O44: the gate, then the host's answer. -/
theorem ramMapping : Obligations.RamMapping := by
  refine ⟨fun size => spells_instr (.mapRam size), fun s size hf hb => boot_refused hf (beq_false_of_ne hb) _ _,
    fun s size hf hh hb => ⟨fun ha => ?_, fun ha => ?_⟩⟩
  · refine ⟨(s.withRam size).done [], mapRam_next.mpr ⟨hf, hb, hh, if_pos ha⟩, rfl, rfl, rfl,
      fun a h => withRam_writable (s := s) h, fun a h => withRam_regionAt (s := s) h, fun hz hr a n dir hn => ?_,
      (withRam_unchanged s size).done []⟩
    subst hz
    refine memAccessOk_noRegion (fun b => (withRam_regionAt (s := s) (Nat.zero_le _)).trans ?_) hn
    rw [State.regionAt, hr]
    rfl
  · exact ⟨_, mapRam_next.mpr ⟨hf, hb, hh, if_neg (by rw [ha]; decide)⟩, rfl, rfl, die_unchanged _ _⟩

/-! ## The places of the records and of the initrd (rules R237 and R244) -/

/-- Clearing the low `k` bits rounds down to a multiple of `2 ^ k`. -/
theorem toNat_clearLow (x : Word) (k : Nat) :
    (x &&& ~~~(BitVec.ofNat 32 (2 ^ k - 1))).toNat = x.toNat / 2 ^ k * 2 ^ k := by
  have h : x &&& ~~~(BitVec.ofNat 32 (2 ^ k - 1)) = x >>> k <<< k := by
    ext i hi
    have hmask : (BitVec.ofNat 32 (2 ^ k - 1))[i] = decide (i < k) := by
      rw [← BitVec.getLsbD_eq_getElem, BitVec.getLsbD_ofNat, Nat.testBit_two_pow_sub_one, decide_eq_true hi, Bool.true_and]
    by_cases hk : i < k
    · simp [hmask, hk]
    · simp [hmask, hk, Nat.add_sub_of_le (Nat.not_lt.mp hk), BitVec.getLsbD_eq_getElem hi]
  have hle := Nat.div_mul_le_self x.toNat (2 ^ k)
  rw [h, BitVec.toNat_shiftLeft, BitVec.toNat_ushiftRight, Nat.shiftLeft_eq, Nat.shiftRight_eq_div_pow,
    Nat.mod_eq_of_lt (by omega)]

theorem toNat_parametersBase (h : Word) : (parametersBase h).toNat = (h + 1).toNat / 2 * 2 := toNat_clearLow (h + 1) 1

theorem toNat_initrdBase (ramSize : Word) (size : Nat) :
    (initrdBase ramSize size).toNat = (ramSize - BitVec.ofNat 32 size).toNat / 4096 * 4096 :=
  toNat_clearLow (ramSize - BitVec.ofNat 32 size) 12

/-- Settles O47: bit 0 is cleared, and only H odd makes `H + 1` even. -/
theorem parametersBase_roundsUp : Obligations.ParametersBase := by
  intro h
  have hb := toNat_parametersBase h
  have hlow : ∀ x : Word, x.getLsbD 0 = decide (x.toNat % 2 = 1) := fun x => by simp [BitVec.getLsbD, Nat.testBit_zero]
  simp only [hlow, decide_eq_false_iff_not, decide_eq_true_iff]
  exact ⟨by omega, fun he => by bv_omega, fun ho => by bv_omega⟩

/-- Settles O48: rounding down moves the base away from the end of RAM. -/
theorem initrdPlacement : Obligations.InitrdPlacement := by
  intro ramSize size
  have hb := toNat_initrdBase ramSize size
  rw [BitVec.toNat_sub, BitVec.toNat_ofNat] at hb
  have := ramSize.isLt
  refine ⟨by rw [hb]; omega, fun hle => ?_⟩
  rw [BitVec.toNat_sub]
  omega

/-! ## The records before the initrd (rules R238 and R243) -/

theorem length_flatMap_bytes (rs : List BootRecord) : (rs.flatMap BootRecord.bytes).length = (rs.map BootRecord.size).sum := by
  rw [List.length_flatMap]
  exact congrArg List.sum (List.map_congr_left fun r _ => length_bytes r)

/-- After the bytes of the first `i` records come those of the others. -/
theorem drop_flatMap_bytes (rs : List BootRecord) (i : Nat) :
    (rs.flatMap BootRecord.bytes).drop ((rs.take i).map BootRecord.size).sum = (rs.drop i).flatMap BootRecord.bytes := by
  have h : rs.flatMap BootRecord.bytes = (rs.take i).flatMap BootRecord.bytes ++ (rs.drop i).flatMap BootRecord.bytes := by
    rw [← List.flatMap_append, List.take_append_drop]
  rw [h, List.drop_left' (length_flatMap_bytes _)]

/-- A record lies after the records before it. -/
theorem take_drop_flatMap_bytes {rs : List BootRecord} {i : Nat} {r : BootRecord} (h : rs[i]? = some r) :
    ((rs.flatMap BootRecord.bytes).drop ((rs.take i).map BootRecord.size).sum).take r.size = r.bytes := by
  rw [drop_flatMap_bytes, List.drop_eq_getElem?_toList_append, h]
  exact List.take_left' (length_bytes r)

theorem videoDimPayload_eq (b : BootProfile) :
    videoDimPayload b = ((b.videoHeight &&& 0xFFFF) <<< 16) ||| (b.videoWidth &&& 0xFFFF) := by
  have hlow (x : Word) : (x &&& 0xFFFF).toNat = x.toNat % 2 ^ 16 := Nat.and_two_pow_sub_one_eq_mod x.toNat 16
  have hshift (n : Nat) : (n % 2 ^ 16) <<< 16 % 2 ^ 32 = (n % 2 ^ 16) <<< 16 := by rw [Nat.shiftLeft_eq]; omega
  apply BitVec.eq_of_toNat_eq
  rw [videoDimPayload, BitVec.toNat_append, BitVec.toNat_setWidth, BitVec.toNat_setWidth, BitVec.toNat_or,
    BitVec.toNat_shiftLeft, hlow, hlow, hshift]

theorem sum_leadingRecords_size {cfg : Config} (h : cfg.cmdline = none) (ramSize : Word) :
    ((leadingRecords cfg ramSize).map BootRecord.size).sum = 108 := by
  simp [leadingRecords, h, BootRecord.size]

/-- The command line is the last of the leading records. -/
theorem drop_leadingRecords_bytes {cfg : Config} {text : Bytes} (h : cfg.cmdline = some text) (ramSize : Word) :
    ((leadingRecords cfg ramSize).flatMap BootRecord.bytes).drop 108 = (BootRecord.string cfg.tags.commandLine text).bytes := by
  have hlast : (leadingRecords cfg ramSize).drop 13 = [.string cfg.tags.commandLine text] := by
    rw [leadingRecords, h]
    rfl
  have hplace : (((leadingRecords cfg ramSize).take 13).map BootRecord.size).sum = 108 := rfl
  rw [← hplace, drop_flatMap_bytes, hlast]
  exact List.append_nil _

theorem splitDigits_half (h : Half) : splitDigits 8 2 h.toNat = [h.extractLsb' 8 8, h.extractLsb' 0 8] := rfl

theorem splitDigits_word (v : Word) :
    splitDigits 8 4 v.toNat = [v.extractLsb' 24 8, v.extractLsb' 16 8, v.extractLsb' 8 8, v.extractLsb' 0 8] := rfl

theorem bytes_single (tag : Half) (v : Word) : (BootRecord.single tag v).bytes =
    [tag.extractLsb' 8 8, tag.extractLsb' 0 8, 0, 8, v.extractLsb' 24 8, v.extractLsb' 16 8, v.extractLsb' 8 8,
      v.extractLsb' 0 8].map some := by
  have hsize : splitDigits 8 2 8 = [0, 8] := rfl
  simp [BootRecord.bytes, BootRecord.tag, BootRecord.size, hsize, splitDigits_half, splitDigits_word]

theorem bytes_dual (tag : Half) (v w : Word) : (BootRecord.dual tag v w).bytes =
    [tag.extractLsb' 8 8, tag.extractLsb' 0 8, 0, 12, v.extractLsb' 24 8, v.extractLsb' 16 8, v.extractLsb' 8 8,
      v.extractLsb' 0 8, w.extractLsb' 24 8, w.extractLsb' 16 8, w.extractLsb' 8 8, w.extractLsb' 0 8].map some := by
  have hsize : splitDigits 8 2 12 = [0, 12] := rfl
  simp [BootRecord.bytes, BootRecord.tag, BootRecord.size, hsize, splitDigits_half, splitDigits_word]

theorem videoRowPayload_some {b : BootProfile} {stride : Word} (h : b.videoRowStride = some stride) :
    videoRowPayload b = stride := by rw [videoRowPayload, h]; rfl

theorem videoRowPayload_none {b : BootProfile} (h : b.videoRowStride = none) :
    videoRowPayload b = BitVec.ofNat 32 ((b.videoWidth.toNat * b.videoDepth.toNat + 7) / 8) := by
  rw [videoRowPayload, h]; rfl

/-- Settles O60: each record lies after those before it. -/
theorem leadingRecordPayloads : Obligations.LeadingRecordPayloads := by
  intro cfg ramSize b tags bytes half word singleAt
  have record (i : Nat) {offset : Nat} {r : BootRecord} (h : (leadingRecords cfg ramSize)[i]? = some r)
      (ho : (((leadingRecords cfg ramSize).take i).map BootRecord.size).sum = offset) :
      (bytes.drop offset).take r.size = r.bytes := ho ▸ take_drop_flatMap_bytes h
  have single (i : Nat) {offset : Nat} {tag : Half} {v w : Word}
      (h : (leadingRecords cfg ramSize)[i]? = some (.single tag v))
      (ho : (((leadingRecords cfg ramSize).take i).map BootRecord.size).sum = offset) (hv : v = w) : singleAt offset tag w :=
    hv ▸ (record i h ho).trans (bytes_single tag v)
  refine ⟨single 0 rfl rfl rfl, single 1 rfl rfl rfl, single 2 rfl rfl rfl, single 3 rfl rfl rfl, single 4 rfl rfl rfl,
    single 5 rfl rfl rfl, single 6 rfl rfl rfl, (record 7 rfl rfl).trans (bytes_dual tags.memChunk 0 ramSize),
    single 8 rfl rfl rfl, single 9 rfl rfl rfl, single 10 rfl rfl (videoDimPayload_eq b),
    fun stride hs => single 11 rfl rfl (videoRowPayload_some hs), fun hs => single 11 rfl rfl (videoRowPayload_none hs),
    single 12 rfl rfl rfl, fun hc => ?_, fun text hc => ?_⟩
  · exact (length_flatMap_bytes _).trans (sum_leadingRecords_size hc ramSize)
  · exact drop_leadingRecords_bytes hc ramSize

end Sys2Proof.Machine
end

section
/-! PROOFS. The rules of 60_exceptions.md: an interrupt that was taken, an entry whose access fails, and a return right after an
entry. -/

namespace Sys2Proof.Machine

variable {s : State} {c : Cause} {v : Byte} {r : Word} {m : BitVec 3}

/-! ## An interrupt that was taken (rule R293) -/

/-- Settles O37: entry sets the mask to the pending level, and a level does not exceed itself. -/
theorem interruptNotTakenTwice : Obligations.InterruptNotTakenTwice := by
  intro s hs hp hok
  have he : Entered s (s.enter .interrupt s.pendingVector s.pc s.pendingLevel) s.pendingVector s.pendingLevel :=
    entered_of_entryOk hok
  have hrun := he.rest.running hs (by simp) (by simp) (by simp)
  obtain ⟨hlevel, hvector⟩ := he.rest .pending (by simp)
  have hmask : (s.enter .interrupt s.pendingVector s.pc s.pendingLevel).pendingLevel ≤
      (s.enter .interrupt s.pendingVector s.pc s.pendingLevel).mask := by
    rw [hlevel, he.status.mask]
    exact BitVec.le_refl _
  exact ⟨_, _, intCheck_taken hs hp, hlevel, hvector, intCheck_masked hrun hmask, rfl, done_unchanged _ []⟩

/-! ## An entry whose access fails (rule R296) -/

/-- The write of the frame's first item, the format and vector offset, succeeds. -/
abbrev State.topOk (s : State) : Bool := s.memAccessOk (s.xlateS (s.entrySp - 2)) 2 .write

/-- The write of the frame's second item, the stacked `PC`, succeeds. -/
abbrev State.middleOk (s : State) : Bool := s.memAccessOk (s.xlateS (s.entrySp - 6)) 4 .write

/-- The write of the frame's third item, the old status word, succeeds. -/
abbrev State.bottomOk (s : State) : Bool := s.memAccessOk (s.xlateS (s.entrySp - 8)) 2 .write

/-- The memory with the items of the frame that come before the first write that fails. -/
def State.framePart (s : State) (c : Cause) (v : Byte) (r : Word) : Memory :=
  if s.topOk = false then s.mem
  else if s.middleOk = false then s.frame1 c v
  else if s.bottomOk = false then s.frame2 c v r
  else s.frame3 c v r

/-- How far entry has moved the stack pointer: only once the whole frame is written. -/
def State.framePushed (s : State) : Word := if s.topOk && s.middleOk && s.bottomOk then 8 else 0

/-- The state in which an entry whose access fails leaves the block. -/
def State.enterFailed (s : State) (c : Cause) (v : Byte) (r : Word) (m : BitVec 3) : State :=
  (((s.entered m).withMem (s.framePart c v r)).withA7 (s.entrySp - s.framePushed)).halt

theorem framePart_topFails (h1 : s.topOk = false) : s.framePart c v r = s.mem := if_pos h1

theorem framePart_middleFails (h1 : s.topOk = true) (h2 : s.middleOk = false) : s.framePart c v r = s.frame1 c v := by
  simp [State.framePart, h1, h2]

theorem framePart_bottomFails (h1 : s.topOk = true) (h2 : s.middleOk = true) (h3 : s.bottomOk = false) :
    s.framePart c v r = s.frame2 c v r := by
  simp [State.framePart, h1, h2, h3]

theorem framePart_whole (h1 : s.topOk = true) (h2 : s.middleOk = true) (h3 : s.bottomOk = true) :
    s.framePart c v r = s.frame3 c v r := by
  simp [State.framePart, h1, h2, h3]

theorem withA7_self (s : State) : s.withA7 s.a[7] = s := by
  rw [State.withA7, Vector.set_getElem_self]

/-- As long as the frame is not whole the stack pointer is the one entry pushes from. -/
theorem enterFailed_unpushed {M : Memory} (hM : s.framePart c v r = M) (h : s.framePushed = 0) :
    s.enterFailed c v r m = ((s.entered m).withMem M).halt := by
  have h7 : s.entrySp - (0 : Word) = ((s.entered m).withMem M).a[7] := (BitVec.sub_zero _).trans (entered_a7 s m).symm
  rw [State.enterFailed, hM, h, h7, withA7_self]

/-- An entry of which an access fails, whichever it is. -/
theorem enter_failed (h : ¬ s.EntryOk v) : s.enter c v r m = s.enterFailed c v r m := by
  rw [enter_eq]
  split
  · next h1 =>
    exact (enterFailed_unpushed (framePart_topFails h1) (if_neg (by simp [h1]))).symm
  · next h1 =>
    rw [Bool.not_eq_false] at h1
    split
    · next h2 =>
      exact (enterFailed_unpushed (framePart_middleFails h1 h2) (if_neg (by simp [h2]))).symm
    · next h2 =>
      rw [Bool.not_eq_false] at h2
      split
      · next h3 =>
        exact (enterFailed_unpushed (framePart_bottomFails h1 h2 h3) (if_neg (by simp [h3]))).symm
      · next h3 =>
        rw [Bool.not_eq_false] at h3
        have hpushed : s.framePushed = 8 := if_pos (by simp [h1, h2, h3])
        rw [State.enterFailed, framePart_whole h1 h2 h3, hpushed]
        refine takeVector_failed ?_
        rw [State.handlerAt, memAccessOk_congr (s := s) (by simp) (by simp), xlateS_congr (s := s) (by simp),
          ← Bool.not_eq_true]
        exact fun h4 => h ⟨h1, h2, h3, h4⟩

theorem enterFailed_status : EnteredStatus s (s.enterFailed c v r m) m := (enteredStatus s m).congr rfl rfl rfl

theorem enterFailed_stack : EnteredStack s (s.enterFailed c v r m) s.framePushed := by
  unfold State.framePushed
  split
  · next h =>
    have hpushed : s.framePushed = 8 := if_pos h
    rw [State.enterFailed, hpushed]
    exact enteredStack_pushed.congr rfl rfl rfl
  · next h =>
    rw [enterFailed_unpushed rfl (if_neg h)]
    exact enteredStack_kept.congr rfl rfl rfl

theorem enterFailed_unchanged :
    Unchanged [.a, .srHi, .record, .spSlots, .currentSp, .mem, .halted, .reply] s (s.enterFailed c v r m) :=
  ((((setSr_unchanged s (entryStatus s.readSr m)).mono (by simp)).trans ((withMem_unchanged _ _).mono (by simp))).trans
    ((withA7_unchanged _ _).mono (by simp))).trans ((halt_unchanged _).mono (by simp))

theorem enterFailed_mem : (s.enterFailed c v r m).mem = s.framePart c v r := by
  rw [State.enterFailed, halt_mem, withA7_mem, withMem_mem]

theorem enterFailed_regions : (s.enterFailed c v r m).regions = s.regions := enterFailed_unchanged .regions (by simp)

/-! ### The items that were written -/

/-- A byte outside the items that were written. -/
theorem read_framePart_other {b : Word} (h1 : s.topOk = true → ¬ Within b (s.xlateS (s.entrySp - 2)) 2)
    (h2 : s.topOk = true → s.middleOk = true → ¬ Within b (s.xlateS (s.entrySp - 6)) 4)
    (h3 : s.topOk = true → s.middleOk = true → s.bottomOk = true → ¬ Within b (s.xlateS (s.entrySp - 8)) 2) :
    Memory.read (s.framePart c v r) b.toNat = Memory.read s.mem b.toNat := by
  cases e1 : s.topOk with
  | false => rw [framePart_topFails e1]
  | true =>
    cases e2 : s.middleOk with
    | false => rw [framePart_middleFails e1 e2, read_frame1_other (h1 e1)]
    | true =>
      have hframe2 : Memory.read (s.frame2 c v r) b.toNat = Memory.read s.mem b.toNat := by
        rw [read_frame2_other (h2 e1 e2), read_frame1_other (h1 e1)]
      cases e3 : s.bottomOk with
      | false => rw [framePart_bottomFails e1 e2 e3, hframe2]
      | true => rw [framePart_whole e1 e2 e3, read_frame3_other (h3 e1 e2 e3), hframe2]

/-- A byte of the second item, which a third item apart from it leaves alone. -/
theorem read_framePart_middle {b : Word} (hb : Within b (s.xlateS (s.entrySp - 6)) 4) (h1 : s.topOk = true)
    (h2 : s.middleOk = true) (ha : s.bottomOk = false ∨ s.FrameApart) :
    Memory.read (s.framePart c v r) b.toNat = Memory.read (s.frame2 c v r) b.toNat := by
  cases h3 : s.bottomOk with
  | false => rw [framePart_bottomFails h1 h2 h3]
  | true =>
    obtain ⟨-, -, hapart⟩ := ha.resolve_left (by simp [h3]) b
    rw [framePart_whole h1 h2 h3, read_frame3_other (hapart hb)]

/-- A byte of the first item, which later items apart from it leave alone. -/
theorem read_framePart_top {b : Word} (hb : Within b (s.xlateS (s.entrySp - 2)) 2) (h1 : s.topOk = true)
    (ha : s.middleOk = false ∨ s.FrameApart) :
    Memory.read (s.framePart c v r) b.toNat = Memory.read (s.frame1 c v) b.toNat := by
  cases h2 : s.middleOk with
  | false => rw [framePart_middleFails h1 h2]
  | true =>
    obtain ⟨hmiddle, hbottom, -⟩ := ha.resolve_left (by simp [h2]) b
    have hframe2 : Memory.read (s.frame2 c v r) b.toNat = Memory.read (s.frame1 c v) b.toNat :=
      read_frame2_other (hmiddle hb)
    cases h3 : s.bottomOk with
    | false => rw [framePart_bottomFails h1 h2 h3, hframe2]
    | true => rw [framePart_whole h1 h2 h3, read_frame3_other (hbottom hb), hframe2]

/-- Settles O40: whichever access fails, the block halts with the items written before it, each read back from the memory in
which it was the last. -/
theorem entryFailureHalts : Obligations.EntryFailureHalts := by
  intro s c v r m
  dsimp only
  intro h
  rw [enter_failed h]
  refine ⟨rfl, rfl, rfl, enterFailed_status, enterFailed_stack, fun b h1 h2 h3 => ?_, fun h1 ⟨hm, hw⟩ ha draw => ?_,
    fun h1 h2 ⟨hm, hw⟩ ha draw => ?_, fun h1 h2 h3 ⟨hm, hw⟩ draw => ?_, enterFailed_unchanged⟩
  · rw [enterFailed_mem]
    exact read_framePart_other h1 h2 h3
  · rw [← frameWord_eq c v]
    refine halfAt_eq hw enterFailed_regions fun i hi => ?_
    rw [enterFailed_mem, read_framePart_top (within_offset (by omega) hi) h1 ha]
    exact read_frame1 hm hw i hi
  · refine wordAt_eq hw enterFailed_regions fun i hi => ?_
    rw [enterFailed_mem, read_framePart_middle (within_offset (by omega) hi) h1 h2 ha]
    exact read_frame2 hm hw i hi
  · refine halfAt_eq hw enterFailed_regions ?_
    rw [enterFailed_mem, framePart_whole h1 h2 h3]
    exact read_frame3 hm hw

/-! ## A return right after an entry (rules R285 and R297) -/

/-- Bits 7:5 of the status register read as 0 (10_state.md rule R26), so a write of what was read changes nothing. -/
theorem readSr_masked (s : State) : s.readSr &&& 0xFF1F = s.readSr := by
  refine (readSr_setSr s s.readSr).symm.trans ?_
  rw [State.readSr, setSr_srHi, setSr_flags, readSr_high, readSr_flags, State.readSr]

/-- The format of the frame is 0 (rule R288). -/
theorem frameWord_format (v : Byte) : (BitVec.ofNat 16 (4 * v.toNat)).extractLsb' 12 4 = 0 := by
  revert v; decide

/-- A return right after an entry looks for the three items where the entry put them. -/
theorem afterEntry_xlateS :
    (s.afterEntry c v r m).xlateS (s.afterEntry c v r m).a[7] = s.xlateS (s.entrySp - 8) ∧
      (s.afterEntry c v r m).xlateS ((s.afterEntry c v r m).a[7] + 2) = s.xlateS (s.entrySp - 6) ∧
      (s.afterEntry c v r m).xlateS ((s.afterEntry c v r m).a[7] + 6) = s.xlateS (s.entrySp - 2) := by
  have h6 : s.entrySp - 8 + 2 = s.entrySp - 6 := by bv_omega
  have h2 : s.entrySp - 8 + 6 = s.entrySp - 2 := by bv_omega
  rw [afterEntry_a7, h6, h2]
  exact ⟨xlateS_congr afterEntry_cfg _, xlateS_congr afterEntry_cfg _, xlateS_congr afterEntry_cfg _⟩

/-- The frame of an entry, where it fits, can be read. -/
theorem afterEntry_frameReadOk (hf : s.FrameFits) : (s.afterEntry c v r m).frameReadOk = true := by
  have hread {a : Word} {n : Nat} (hw : ∀ i < n, s.Writable (a + BitVec.ofNat 32 i)) :
      (s.afterEntry c v r m).memAccessOk a n .read = true := by
    rw [memAccessOk_congr afterEntry_regions afterEntry_cfg]
    exact memAccessOk_read fun i hi => (writable_isSome (hw i hi)).1
  obtain ⟨hstatus, hpc, hformat⟩ := afterEntry_xlateS (s := s) (c := c) (v := v) (r := r) (m := m)
  rw [frameReadOk_eq_true, hstatus, hpc, hformat]
  exact ⟨hread hf.status, hread hf.pc, hread hf.format⟩

/-- A return right after an entry pops the status and the `PC` that the entry pushed. -/
theorem returnFrom_afterEntry (hm : Memory.wf s.mem = true) (hf : s.FrameFits) :
    ∃ n, (s.afterEntry c v r m).returnFrom = ((s.afterEntry c v r m).withReads n).popFrame s.readSr r := by
  obtain ⟨hstatus, hpc, hformat⟩ := afterEntry_xlateS (s := s) (c := c) (v := v) (r := r) (m := m)
  have hitems := frame_items (t := s.afterEntry c v r m) hm hf afterEntry_regions afterEntry_mem
  obtain ⟨hsr, -, -⟩ := hitems (s.afterEntry c v r m).reads
  obtain ⟨-, hr, -⟩ := hitems ((s.afterEntry c v r m).reads + 1)
  obtain ⟨-, -, hv⟩ := hitems ((s.afterEntry c v r m).reads + 2)
  refine ⟨(s.afterEntry c v r m).reads + 3, ?_⟩
  rw [returnFrom_frameRead (afterEntry_frameReadOk hf), State.returnFormat, State.returned, hstatus, hpc, hformat, hsr, hr, hv,
    if_pos (frameWord_format v)]

section Undo

variable {t : State} (hstack : EnteredStack s t 8)

include hstack

/-- A pop moves every stack pointer back to where it was before the push. -/
theorem popFrame_getSpSlot_pushed (sr : Half) (pc : Word) (k : SpSlot) :
    (t.popFrame sr pc).getSpSlot k = s.getSpSlot k := by
  by_cases hk : k = s.entrySlot
  · rw [hk, ← hstack.live, popFrame_popped, hstack.pointer, hstack.live]
    exact BitVec.sub_add_cancel _ _
  · rw [popFrame_getSpSlot_other (by rw [hstack.live]; exact hk), hstack.slots k hk]

/-- Where the pop also switches back to the slot that was live, every address register is what it was. -/
theorem popFrame_a_pushed {sr : Half} (pc : Word) (hsel : t.sel sr = s.currentSp) : (t.popFrame sr pc).a = s.a := by
  ext n hn : 1
  by_cases h7 : n = 7
  · subst h7
    calc (t.popFrame sr pc).a[7]
        = (t.popFrame sr pc).getSpSlot s.currentSp := by rw [← hsel, ← popFrame_currentSp (pc := pc), getSpSlot_live]
      _ = s.getSpSlot s.currentSp := popFrame_getSpSlot_pushed hstack sr pc _
      _ = s.a[7] := getSpSlot_live s
  · have hne : (⟨n, hn⟩ : Fin 8) ≠ 7 := fun e => h7 (congrArg Fin.val e)
    exact (popFrame_a_other hne).trans (hstack.others ⟨n, hn⟩ hne)

end Undo

theorem afterEntry_withReads_stack (n : Nat) : EnteredStack s ((s.afterEntry c v r m).withReads n) 8 :=
  afterEntry_stack.congr rfl rfl rfl

/-- What an entry followed by the pop of its frame leaves alone. -/
theorem popFrame_afterEntry_unchanged (hlive : s.SpLive) (n : Nat) :
    Unchanged [.pc, .record, .spSlots, .mem, .reply, .reads] s (((s.afterEntry c v r m).withReads n).popFrame s.readSr r) := by
  have hsel : ((s.afterEntry c v r m).withReads n).sel s.readSr = s.currentSp := hlive.symm
  have hrest : Unchanged [.a, .pc, .srHi, .record, .spSlots, .currentSp, .mem, .reply, .reads] s
      (((s.afterEntry c v r m).withReads n).popFrame s.readSr r) :=
    afterEntry_unchanged.trans ((popFrame_withReads_unchanged _ n _ _).mono (by simp))
  intro p hp
  cases p
  case a => exact popFrame_a_pushed (afterEntry_withReads_stack n) r hsel
  case srHi => exact readSr_high s
  case currentSp => exact popFrame_currentSp.trans hsel
  case pc | record | spSlots | mem | reply | reads => exact absurd (by simp) hp
  all_goals exact hrest _ (by simp)

/-- Settles O42: the entry writes the frame, the return reads it back, and each moves the stack pointer as far as the other. -/
theorem returnUndoesEntry : Obligations.ReturnUndoesEntry := by
  intro s kind retpc hinv hs hk hok hf
  have hraise : exec (.raise kind retpc) s = .next (s.afterEntry (.sync kind) (vectorOf kind) retpc s.mask) :=
    raise_next.mpr ⟨hs, (if_neg hk).trans (raiseSync_ok hok)⟩
  have hrun : (s.afterEntry (.sync kind) (vectorOf kind) retpc s.mask).Running :=
    afterEntry_unchanged.running hs (by simp) (by simp) (by simp)
  obtain ⟨n, hret⟩ :=
    returnFrom_afterEntry (c := .sync kind) (v := vectorOf kind) (r := retpc) (m := s.mask) hinv.memory hf
  have hrest :=
    popFrame_afterEntry_unchanged (c := .sync kind) (v := vectorOf kind) (r := retpc) (m := s.mask) hinv.spLive n
  have hrte := (rte_supervisor hrun afterEntry_status.supervisor).trans (congrArg Host.Outcome.next hret)
  exact ⟨_, _, hraise, hrte, rfl, rfl, popFrame_readSr.trans (readSr_masked s), hrest .currentSp (by simp),
    popFrame_getSpSlot_pushed (afterEntry_withReads_stack n) s.readSr retpc, hrest⟩

end Sys2Proof.Machine
end

section
/-! PROOFS. The rules of 70_reset_and_hazards.md: the engine before and after cold start, and the read-only bytes and the
address map once boot has ended. -/

namespace Sys2Proof.Machine

variable {s t : State} {i : Instr}

/-! ## The engine and cold start (rule R337) -/

theorem stopped_notRunning (hf : s.fatal = none) (hh : s.halted = false) (hb : s.bootState ≠ .running) :
    s.stopped = some (.notRunning s.bootState) := by
  simp [State.stopped, hf, hh, hb]

/-- Settles O10: a command of the engine is its effect behind check 2, which stops it in every boot state but `Running`. -/
theorem engineWaitsForColdStart : Obligations.EngineWaitsForColdStart := by
  refine ⟨fun s i hi hf hh hb => ?_, fun s i hi hs => ?_⟩ <;> obtain ⟨e, he⟩ := exec_engine hi s
  · exact he.trans (engine_fault (stopped_notRunning hf hh hb) e)
  · exact ⟨e, he.trans (engine_running hs)⟩

/-! ## Read-only bytes and the address map after boot (rule R338) -/

/-- A command that changes the address map or a read-only byte finds the block before the end of boot, in `Idle` or
`RamMapped`: after it every write to memory is part of an exception entry, whose stores keep the read-only bytes. -/
theorem Effect.kept (h : Effect s i t) :
    (t.regions = s.regions ∧ Kept s t.mem) ∨ s.bootState = .idle ∨ s.bootState = .ramMapped := by
  cases h with
  | mapped _ hb => exact .inr (.inl hb)
  | kernel _ hb | romFailed hb | romLoaded _ hb => exact .inr (.inr hb)
  | entered _ n c v r m =>
    have hkept := enter_kept (s.withReads n) c v r m
    exact .inl ⟨enter_withReads_unchanged s n c v r m .regions (by simp), hkept.wf, hkept.rom⟩
  | cold => exact .inl ⟨coldStart_unchanged s .regions (by simp), by rw [coldStart_mem]; exact Kept.refl s⟩
  | wrSp | wrUr | wrCr => exact .inl ⟨by simp, by simpa using Kept.refl s⟩
  | _ => exact .inl ⟨rfl, Kept.refl s⟩

/-- Settles O51: in `Ready` and `Running` the map and the read-only bytes are kept. -/
theorem romIsImmutable : Obligations.RomIsImmutable := by
  intro i s t h hb
  have hlate : ¬ (s.bootState = .idle ∨ s.bootState = .ramMapped) := by rcases hb with hb | hb <;> simp [hb]
  obtain ⟨hregions, hkept⟩ := (effect_of_exec h).kept.resolve_right hlate
  exact ⟨hregions, hkept.rom⟩

end Sys2Proof.Machine
end

section
/-! PROOFS. The rules of 30_encoding.md on the kind codes and on the words issued: the numbers of the kinds, and what a step
makes of the words at the front. -/

namespace Sys2Proof.Machine

variable {s : State} {fpBits : Nat}

/-! ## The kind codes (rules R105 and R106) -/

theorem spells_ccSet (kind : CcKind) (x : Bool) (dest src : Word) :
    Spells 0x20 (BitVec.ofNat 8 kind.code) (if x then 1 else 0) [dest, src] (.ccSet kind x dest src) := by
  obtain ⟨hspells, -⟩ := conditionCodeRecord
  exact hspells kind x dest src

theorem spells_raise (kind : Kind) (retpc : Word) : Spells 0x42 (vectorOf kind) 0 [retpc] (.raise kind retpc) :=
  spells_instr (.raise kind retpc)

/-- Settles O5: the numbers written out are the codes of the kinds, and the words of a command carry the code of its kind. -/
theorem kindCodes : Obligations.KindCodes := by
  refine ⟨fun x dest src p hp => ?_, fun retpc p hp => ?_, fun n retpc => ⟨spells_raise (.trap n) retpc, rfl⟩⟩
  · have hcode : p.1 = BitVec.ofNat 8 p.2.code := by revert p; decide
    rw [hcode]
    exact spells_ccSet p.2 x dest src
  · have hcode : vectorOf p.2 = p.1 := by revert p; decide
    rw [← hcode]
    exact ⟨spells_raise p.2 retpc, rfl⟩

/-! ## The words issued (rules R100 and R111) -/

/-- A command of which operand words are missing waits for them. -/
theorem decodeFields_missingOperands {op a : Byte} {b : Half} {ws : List Word} (hlegal : LegalFields op a b)
    (hl : ws.length < operandCount fpBits (commandWord op a b)) :
    decodeFields fpBits op a b ws = .error .missingOperands := by
  have hc := decodeFields_case fpBits op a b ws
  generalize decodeFields fpBits op a b ws = x at hc ⊢
  cases hc with
  | illegal h => exact absurd hlegal h
  | short i => rfl
  | @wide n ops hk _ rest =>
    have hcount : fpWords fpBits = operandCount fpBits (commandWord 0x0E (BitVec.ofNat 8 n.val) 0) :=
      (length_splitDigits _ _ _).symm.trans (operandWords_count (.wrFp n 0) fpBits)
    rw [List.length_append, hk, hcount] at hl
    omega
  | command i _ rest =>
    rw [List.length_append, operandWords_count i] at hl
    omega

/-- A proper beginning of the words of a command, the command word included. -/
theorem decode_take_encode {i : Instr} {k : Nat} (hk : 0 < k) (hl : k < (encode fpBits i).length) :
    decode fpBits ((encode fpBits i).take k) = .error .missingOperands := by
  obtain ⟨j, rfl⟩ : ∃ j, k = j + 1 := ⟨k - 1, by omega⟩
  have hj : j < (i.operandWords fpBits).length := Nat.lt_of_succ_lt_succ hl
  rw [encode, List.take_succ_cons, decode_commandWord]
  refine decodeFields_missingOperands (legalFields_instr i) ?_
  rw [← operandWords_count i, List.length_take]
  omega

/-- Settles O6: the words of a command decode to it, no words and a beginning of a command's words decode to a fault. -/
theorem stepPerformsTheNextCommand : Obligations.StepPerformsTheNextCommand := by
  refine ⟨fun s i rest hwf hi => ?_, fun s hi => ?_, fun s i k _ hk hl hi => ?_⟩
  · rw [step, hi, decodeInvertsEncode _ i rest hwf]
  · rw [step, hi]
    rfl
  · rw [step, hi, decode_take_encode hk hl]
    rfl

end Sys2Proof.Machine
end

section
/-! PROOFS. The rules of 10_state.md on the stack-pointer slots: the slot a status value selects. -/

namespace Sys2Proof.Machine

/-- Settles O23: a split on S, on the family of the model and on M. -/
theorem slotSelection : Obligations.SlotSelection := by
  intro s sr
  unfold State.sel selectSlot
  refine ⟨fun hS => ?_, fun hS hc => ?_, fun hS hc hM => ?_, fun hS hc hM => ?_⟩
  · rw [hS]; rfl
  · rw [hS, hc]; rfl
  · rw [hS, hc, hM]; rfl
  · rw [hS, hc, hM]; rfl

end Sys2Proof.Machine
end

section
/-! PROOFS. The rules of 20_memory.md on the width of an access: what a narrow read finds in what a wide write stored. -/

namespace Sys2Proof.Machine

variable {s : State}

/-- A read of `k` bytes at offset `o` of a value of `n` bytes finds the `k` bytes of the value that stand there. -/
theorem memRead_storeBytes_part {a : Word} {n v : Nat} (hm : Memory.wf s.mem = true) (hn : n ≤ 2 ^ 32)
    (hw : ∀ i < n, s.Writable (a + BitVec.ofNat 32 i)) {o k : Nat} (hk : o + k ≤ n) :
    ∃ u, (s.storeBytes a (splitDigits 8 n v)).memRead (a + BitVec.ofNat 32 o) k =
      some ((v >>> (8 * (n - k - o))) % 2 ^ (8 * k), u) := by
  have hr := storeBytes_regions s a (splitDigits 8 n v)
  have haddr (i : Nat) : a + BitVec.ofNat 32 o + BitVec.ofNat 32 i = a + BitVec.ofNat 32 (o + i) := by
    rw [BitVec.ofNat_add, BitVec.add_assoc]
  have hpart : ∀ i < k, s.Writable (a + BitVec.ofNat 32 o + BitVec.ofNat 32 i) := fun i hi => by
    rw [haddr]
    exact hw (o + i) (by omega)
  refine ⟨_, memRead_eq_some.mpr ⟨memAccessOk_read fun i hi => ?_, joinDigits_loadBytes hpart hr fun i hi => ?_, rfl⟩⟩
  · exact (writable_isSome (writable_congr hr (hpart i hi))).1
  · rw [haddr, read_stored hm hn hw (o + i) (by omega), ← Nat.shiftRight_add]
    congr 2
    omega

/-- Settles O54: the bytes and the halves are reads of parts of the value written. -/
theorem mixedWidthView : Obligations.MixedWidthView := by
  intro s a v hm hw
  have part {o k : Nat} (hk : o + k ≤ 4) := memRead_storeBytes_part (v := v.toNat) hm (by decide) hw hk
  have hlt := v.isLt
  refine ⟨s.storeBytes a (splitDigits 8 4 v.toNat), memWrite_eq_some.mpr ⟨memAccessOk_write hw, rfl⟩, fun i => ?_, ?_, ?_⟩
  · exact part (k := 1) (o := i.val) (by omega)
  · obtain ⟨u, hu⟩ := part (k := 2) (o := 0) (by decide)
    rw [BitVec.add_zero, Nat.shiftRight_eq_div_pow, Nat.mod_eq_of_lt (by omega)] at hu
    exact ⟨u, hu⟩
  · exact part (k := 2) (o := 2) (by decide)

end Sys2Proof.Machine
end

section
/-! PROOFS. The rules of 41_condition_codes.md for the kinds that do arithmetic: N and Z are read off the result, C is a
comparison of unsigned numbers, and V a comparison of signs. -/

namespace Sys2Proof.Machine

/-! ## Two's-complement arithmetic at a width -/

/-- Whether an integer has no two's-complement representation in `w` bits. -/
def outOfRange (w : Nat) (i : Int) : Bool := decide (i < -2 ^ (w - 1) ∨ 2 ^ (w - 1) ≤ i)

/-- At a positive width the sign and the signed value of a number, and the range of signed values, in terms of `2 ^ (w - 1)`. -/
theorem exists_half {w : Nat} (hw : 0 < w) : ∃ half : Nat, 2 ^ w = 2 * half ∧
    (∀ i : Int, outOfRange w i = decide (i < -half ∨ half ≤ i)) ∧
    ∀ x : BitVec w, x.msb = decide (half ≤ x.toNat) ∧
      x.toInt = if x.toNat < half then (x.toNat : Int) else x.toNat - 2 * half := by
  obtain ⟨k, rfl⟩ : ∃ k, w = k + 1 := ⟨w - 1, by omega⟩
  have hpow : 2 ^ (k + 1) = 2 * 2 ^ k := Nat.pow_succ'
  refine ⟨2 ^ k, hpow, fun i => by simp [outOfRange], fun x => ⟨BitVec.msb_eq_decide x, ?_⟩⟩
  rw [BitVec.toInt_eq_toNat_cond, hpow]
  simp

/-- A sum of two numbers and a carry exceeds its wrapped value by a whole turn or not at all. -/
theorem wrapped_sum {m x y z c : Nat} (hx : x < m) (hy : y < m) (hc : c ≤ 1) (hz : z = (x + y + c) % m) :
    z = x + y + c ∨ z + m = x + y + c := by
  by_cases h : x + y + c < m
  · exact .inl (by rw [hz, Nat.mod_eq_of_lt h])
  · rw [hz, Nat.mod_eq_sub_mod (by omega), Nat.mod_eq_of_lt (by omega)]
    omega

section Carry

variable {w : Nat} {a b r : BitVec w} {c : Nat} (hw : 0 < w) (hc : c ≤ 1)

include hw hc

/-- An addition leaves the signed range when its operands have one sign and its result the other. -/
theorem overflow_of_add (hr : r.toNat = (a.toNat + b.toNat + c) % 2 ^ w) :
    ((a.msb == b.msb) && (r.msb != b.msb)) = outOfRange w (a.toInt + b.toInt + c) := by
  obtain ⟨half, hpow, hout, hx⟩ := exists_half hw
  obtain ⟨hsa, hia⟩ := hx a
  obtain ⟨hsb, hib⟩ := hx b
  obtain ⟨hsr, -⟩ := hx r
  have hsum := wrapped_sum a.isLt b.isLt hc hr
  have hlt := r.isLt
  rw [hpow] at hsum hlt
  rw [hout, hsa, hsb, hsr, hia, hib, Bool.eq_iff_iff]
  simp only [Bool.and_eq_true, beq_iff_eq, bne_iff_ne, ne_eq, decide_eq_decide, decide_eq_true_iff]
  omega

/-- A subtraction leaves the signed range when its operands differ in sign and its result has not the sign of the first. -/
theorem overflow_of_sub (ha : a.toNat = (r.toNat + b.toNat + c) % 2 ^ w) :
    ((a.msb != b.msb) && (r.msb != a.msb)) = outOfRange w (a.toInt - b.toInt - c) := by
  obtain ⟨half, hpow, hout, hx⟩ := exists_half hw
  obtain ⟨hsa, hia⟩ := hx a
  obtain ⟨hsb, hib⟩ := hx b
  obtain ⟨hsr, -⟩ := hx r
  have hsum := wrapped_sum r.isLt b.isLt hc ha
  have hlt := a.isLt
  rw [hpow] at hsum hlt
  rw [hout, hsa, hsb, hsr, hia, hib, Bool.eq_iff_iff]
  simp only [Bool.and_eq_true, bne_iff_ne, ne_eq, decide_eq_decide, decide_eq_true_iff]
  omega

end Carry

/-! ## The kinds ADD, SUB, ADDX and SUBX (rules R156 to R159 and R161) -/

/-- The flags of an operation with result `r`, signed overflow `v` and carry `c`. -/
def aluFlags {w : Nat} (r : BitVec w) (v c : Bool) : Nzvc := { n := r.msb, z := r == 0, v := v, c := c }

section Alu

variable {w : Nat} (hw : 0 < w) (a b : BitVec w)

include hw

theorem toNat_add_add_one : (a + b + 1).toNat = (a.toNat + b.toNat + 1) % 2 ^ w := by
  have h1 : (1 : BitVec w).toNat = 1 := by simp [Nat.mod_eq_of_lt (Nat.one_lt_two_pow (Nat.ne_of_gt hw))]
  rw [BitVec.toNat_add, BitVec.toNat_add, h1, Nat.mod_add_mod]

theorem flagsAdd_eq :
    flagsAdd (a + b) b = aluFlags (a + b) (outOfRange w (a.toInt + b.toInt)) (decide (2 ^ w ≤ a.toNat + b.toNat)) := by
  have hr : (a + b).toNat = (a.toNat + b.toNat + 0) % 2 ^ w := BitVec.toNat_add a b
  have hv := overflow_of_add hw (Nat.zero_le 1) hr
  have hc : (a + b).ult b = decide (2 ^ w ≤ a.toNat + b.toNat) := by
    have := wrapped_sum a.isLt b.isLt (Nat.zero_le 1) hr
    have := a.isLt
    exact decide_eq_decide.mpr (by omega)
  simp only [flagsAdd, aluFlags, BitVec.add_sub_cancel, hv, hc, Int.natCast_zero, Int.add_zero]

theorem flagsAddx_eq :
    flagsAddx (a + b + 1) b =
      aluFlags (a + b + 1) (outOfRange w (a.toInt + b.toInt + 1)) (decide (2 ^ w ≤ a.toNat + b.toNat + 1)) := by
  have hr := toNat_add_add_one hw a b
  have hv := overflow_of_add hw (Nat.le_refl 1) hr
  have hc : (a + b + 1).ule b = decide (2 ^ w ≤ a.toNat + b.toNat + 1) := by
    have := wrapped_sum a.isLt b.isLt (Nat.le_refl 1) hr
    have := a.isLt
    exact decide_eq_decide.mpr (by omega)
  have ha : a + b + 1 - b - 1 = a := by ring
  simp only [flagsAddx, aluFlags, ha, hv, hc, Int.natCast_one]

theorem flagsSub_eq :
    flagsSub (a - b) b = aluFlags (a - b) (outOfRange w (a.toInt - b.toInt)) (decide (a.toNat < b.toNat)) := by
  have ha : a - b + b = a := BitVec.sub_add_cancel a b
  have hr : a.toNat = ((a - b).toNat + b.toNat + 0) % 2 ^ w :=
    (congrArg BitVec.toNat ha).symm.trans (BitVec.toNat_add (a - b) b)
  have hv := overflow_of_sub hw (Nat.zero_le 1) hr
  simp only [flagsSub, aluFlags, ha, hv, Int.natCast_zero, Int.sub_zero, BitVec.ult]

theorem flagsSubx_eq :
    flagsSubx (a - b - 1) b = aluFlags (a - b - 1) (outOfRange w (a.toInt - b.toInt - 1)) (decide (a.toNat ≤ b.toNat)) := by
  have ha : a - b - 1 + b + 1 = a := by ring
  have hr : a.toNat = ((a - b - 1).toNat + b.toNat + 1) % 2 ^ w :=
    (congrArg BitVec.toNat ha).symm.trans (toNat_add_add_one hw (a - b - 1) b)
  have hv := overflow_of_sub hw (Nat.le_refl 1) hr
  simp only [flagsSubx, aluFlags, ha, hv, Int.natCast_one, BitVec.ule]

end Alu

/-- The five flags of such an operation, in their order (rule R153). -/
theorem packFlags_aluFlags (x v c : Bool) {w : Nat} (r : BitVec w) : packFlags x (aluFlags r v c) =
    BitVec.ofBool x ++ BitVec.ofBool r.msb ++ BitVec.ofBool (r == 0) ++ BitVec.ofBool v ++ BitVec.ofBool c := rfl

theorem widthBits_pos (w : Width) : 0 < widthBits w := by cases w <;> decide

/-- Settles O20: the record holds the result and the second operand, from which the kind recovers the first. -/
theorem flagsMatchReferenceAlu : Obligations.FlagsMatchReferenceAlu := by
  intro s w a b
  dsimp only
  refine ⟨fun hk hd hs => ?_, fun hk hd hs => ?_, fun hk hd hs => ?_, fun hk hd hs => ?_⟩ <;>
    rw [State.flags, hk, deriveNzvc, hd, hs]
  · rw [flagsAdd_eq (widthBits_pos w), packFlags_aluFlags, outOfRange]
  · rw [flagsAddx_eq (widthBits_pos w), packFlags_aluFlags, outOfRange]
  · rw [flagsSub_eq (widthBits_pos w), packFlags_aluFlags, outOfRange]
  · rw [flagsSubx_eq (widthBits_pos w), packFlags_aluFlags, outOfRange]

end Sys2Proof.Machine
end

section
/-! PROOFS. The rules of 42_mmu_privilege.md on the privilege mode: which commands change it, and how. -/

namespace Sys2Proof.Machine

variable {s t : State} {i : Instr}

/-! ## The privilege mode (rule R200, 70_reset_and_hazards.md rule R331) -/

/-- What a command does to the privilege mode. -/
inductive ModeEffect (s : State) : Instr → State → Prop
  | kept {i : Instr} {t : State} (h : t.supervisor = s.supervisor) : ModeEffect s i t
  | entered {i : Instr} {t : State} (h : t.supervisor = true)
      (hr : (∃ v, t.reply = .exception v) ∨ t.reply = .halted) : ModeEffect s i t
  | wrSr {t : State} (v : Word) (hs : s.supervisor = true) (h : t.supervisor = v.getLsbD 13)
      (hk : ∀ k : SpSlot, t.getSpSlot k = s.getSpSlot k) : ModeEffect s (.wrSr v) t
  | popped {t : State} (hs : s.supervisor = true) (hr : t.reply = .done []) : ModeEffect s .rte t
  | cold {i : Instr} {t : State} (hi : i = .coldStart ∨ ∃ r, i = .raise .reset r) : ModeEffect s i t

/-- The mode is a bit of the high byte of the status register (10_state.md rule R27). -/
theorem supervisor_congr (h : t.srHi = s.srHi) : t.supervisor = s.supervisor := congrArg (·.getLsbD 5) h

theorem setSr_supervisor (s : State) (v : Half) : (s.setSr v).supervisor = v.getLsbD 13 := by
  simp [State.supervisor]

/-- Effect by effect: what writes the status register is WR_SR, an entry, the pop of a frame, or a cold start. -/
theorem Effect.mode (h : Effect s i t) : ModeEffect s i t := by
  cases h with
  | wrSr _ hs v =>
    refine .wrSr v hs ?_ fun k => getSpSlot_setSr s _ k
    exact (setSr_supervisor s _).trans (by simp)
  | entered _ n c v r m =>
    refine .entered (enter_status (s.withReads n) c v r m).1.supervisor ?_
    exact (enter_reply (s.withReads n) c v r m).imp (fun hr => ⟨v, hr⟩) And.left
  | popped _ hs => exact .popped hs rfl
  | cold _ _ hi => exact .cold hi
  | kernel _ _ _ _ hx => exact .kept (supervisor_congr (hx.unchanged_withBoot .srHi (by simp)))
  | romLoaded => exact .kept (supervisor_congr (romLoaded_unchanged s _ .srHi (by simp)))
  | wrSp | wrUr | wrCr => exact .kept (supervisor_congr (by simp))
  | _ => exact .kept rfl

/-- Settles O31, from what a command does to the mode. -/
theorem modeChanges : Obligations.ModeChanges := by
  refine ⟨fun i s t h hs ht => ?_, fun i s t h hs ht => ?_⟩
  · cases (effect_of_exec h).mode with
    | kept h => exact absurd (hs.symm.trans (h.symm.trans ht)) (by decide)
    | entered _ hr => exact hr.imp_right .inl
    | wrSr _ hS | popped hS => exact absurd (hs.symm.trans hS) (by decide)
    | cold hi => exact .inr (.inr hi)
  · cases (effect_of_exec h).mode with
    | kept h => exact absurd (hs.symm.trans (h.symm.trans ht)) (by decide)
    | entered h => exact absurd (ht.symm.trans h) (by decide)
    | wrSr v _ h hk => exact .inl ⟨v, rfl, h.symm.trans ht, hk⟩
    | popped _ hr => exact .inr (.inl ⟨rfl, hr⟩)
    | cold hi => exact .inr (.inr hi)

end Sys2Proof.Machine
end

section
/-! PROOFS. The rules of 43_exception_commands.md, 60_exceptions.md and 70_reset_and_hazards.md on RAISE: the entry to a vector,
the frame it pushes, and the cold start. -/

namespace Sys2Proof.Machine

variable {s : State}

/-! ## RAISE and the cold start (43_exception_commands.md rule R212, 70_reset_and_hazards.md rule R331) -/

theorem raise_reset (hs : s.Running) (retpc : Word) : exec (.raise .reset retpc) s = .next s.coldStart :=
  raise_next.mpr ⟨hs, if_pos rfl⟩

theorem raise_entered (hs : s.Running) {kind : Kind} (hk : kind ≠ .reset) (retpc : Word) :
    exec (.raise kind retpc) s = .next (s.enter (.sync kind) (vectorOf kind) retpc s.mask) :=
  raise_next.mpr ⟨hs, if_neg hk⟩

/-- Settles O38: RESET is the cold start, every other kind an entry. -/
theorem synchronousEntry : Obligations.SynchronousEntry :=
  ⟨fun kind retpc => spells_instr (.raise kind retpc), fun s retpc hs => ⟨raise_reset hs retpc, coldStarted s⟩,
    fun s kind retpc hs hk => ⟨_, raise_entered hs hk retpc, rfl, entered_of_entryOk⟩⟩

/-- Settles O43: the gate of COLD_START and that of RAISE, each before the cold start. -/
theorem coldStartEffect : Obligations.ColdStartEffect :=
  ⟨spells_instr .coldStart, fun s hf hb => ⟨_, coldStart_next.mpr ⟨hf, hb, rfl⟩, coldStarted s⟩,
    fun s hf hb => boot_refused hf (by simpa using hb) _ _,
    fun s retpc hs => ⟨_, raise_reset hs retpc, coldStarted s⟩⟩

/-! ## The frame of an entry (60_exceptions.md rule R288) -/

/-- Settles O39: the items of a frame that fits are read back as they were pushed. -/
theorem entryFrame : Obligations.EntryFrame := by
  intro s c v r m draw hm hok hf
  dsimp only
  rw [enter_ok hok]
  exact ⟨afterEntry_a7, frame_items hm hf afterEntry_regions afterEntry_mem draw⟩

end Sys2Proof.Machine
end

section
/-! PROOFS. The rules of 44_boot.md on the form of the boot records and on BOOT_ROM. -/

namespace Sys2Proof.Machine

variable {s : State}

/-! ## The boot records (rules R238 to R242 and R246) -/

theorem bytes_last (tag : Half) :
    (BootRecord.last tag).bytes = [tag.extractLsb' 8 8, tag.extractLsb' 0 8, 0, 4].map some := by
  have hsize : splitDigits 8 2 4 = [0, 4] := rfl
  simp [BootRecord.bytes, BootRecord.tag, BootRecord.size, hsize, splitDigits_half]

/-- A string that has an even number of characters ends, with its zero byte, at an odd place, and is padded. -/
theorem bytes_string (tag : Half) (text : Bytes) : (BootRecord.string tag text).bytes =
    (splitDigits 8 2 tag.toNat ++ splitDigits 8 2 ((text.length + 6) / 2 * 2)).map some ++ text.map some ++ [some 0] ++
      List.replicate ((text.length + 5) % 2) none := by
  have hpad : (if text.length % 2 = 0 then [none] else []) =
      List.replicate ((text.length + 5) % 2) (none : Option Byte) := by
    rcases Nat.mod_two_eq_zero_or_one text.length with h | h
    · rw [if_pos h, show (text.length + 5) % 2 = 1 by omega]
      rfl
    · rw [if_neg (by omega), show (text.length + 5) % 2 = 0 by omega]
      rfl
  rw [BootRecord.bytes, ← hpad, BootRecord.tag, BootRecord.size]
  simp only [List.append_assoc]

theorem tags_leadingRecords {cfg : Config} (h : cfg.tags = { last := 0 }) (ramSize : Word) :
    (leadingRecords cfg ramSize).map BootRecord.tag =
      [0x0001, 0x0003, 0x0004, 0x0002, 0x800A, 0x8000, 0x8009, 0x0005, 0x8001, 0x8002, 0x8004, 0x8003, 0x8006] ++
        if cfg.cmdline.isSome then [0x0007] else [] := by
  rw [leadingRecords, h]
  cases cfg.cmdline <;> rfl

/-- Settles O49, form by form, then the tags in their order. -/
theorem bootRecordLayout : Obligations.BootRecordLayout := by
  refine ⟨bytes_single, bytes_dual, bytes_last, fun tag text => ⟨_, bytes_string tag text, ?_, ?_, ?_⟩,
    fun cfg ramSize h => tags_leadingRecords h ramSize⟩
  · rw [List.take_left' (length_splitDigits ..), splitDigits_half]
  · rw [List.drop_left' (length_splitDigits ..), joinDigits_splitDigits]
  · simp

/-! ## BOOT_ROM (rules R247 and R248) -/

/-- BOOT_ROM of firmware that loads into memory `M`. -/
theorem bootRom_loads {M : Memory} (hf : s.fatal = none) (hb : s.bootState = .ramMapped) (hk : s.cfg.kernelPath = none)
    (hh : s.halted = false)
    (hl : s.mapRom.loadRawImage s.cfg.romPath s.cfg.romBase s.cfg.romSize = some (s.mapRom.withMem M)) :
    exec .bootRom s = .next (s.romLoaded M) :=
  bootRom_next.mpr ⟨hf, hb, hk, hh, by rw [hl]⟩

/-- BOOT_ROM of firmware that does not load. -/
theorem bootRom_fails (hf : s.fatal = none) (hb : s.bootState = .ramMapped) (hk : s.cfg.kernelPath = none)
    (hh : s.halted = false) (hl : s.mapRom.loadRawImage s.cfg.romPath s.cfg.romBase s.cfg.romSize = none) :
    exec .bootRom s = .next (s.mapRom.die (.romLoad s.cfg.romPath)) :=
  bootRom_next.mpr ⟨hf, hb, hk, hh, by rw [hl]⟩

/-- Outside `Running` the block is not halted (10_state.md rule R46). -/
theorem not_halted_of_inv (hs : s.Inv) (hb : s.bootState ≠ .running) : s.halted = false := by
  obtain ⟨-, -, hhalt⟩ := hs.order
  exact Bool.eq_false_iff.mpr fun h => hb (hhalt h)

theorem region_holds {kind : RegionKind} {readOnly : Bool} {base a : Word} {size : Nat} :
    Region.holds { kind, base, size, readOnly } a = true ↔ Within a base size := decide_eq_true_iff

/-- The bytes of the new region can be written as long as it is not protected (log entry 22). -/
theorem mapRom_writable {a : Word} (h : Within a s.cfg.romBase s.cfg.romSize) : s.mapRom.Writable a := by
  have hregion : s.mapRom.regionAt a = some _ := List.find?_cons_of_pos (region_holds.mpr h)
  rw [State.Writable, hregion]
  rfl

/-- An address of the region is read-only after BOOT_ROM. -/
theorem romLoaded_readOnly {a : Word} (h : Within a s.cfg.romBase s.cfg.romSize) (M : Memory) :
    ((s.romLoaded M).regionAt a).any Region.readOnly = true := by
  have hregion : (s.romLoaded M).regionAt a = some _ := List.find?_cons_of_pos (region_holds.mpr h)
  rw [hregion]
  rfl

/-- Where no ROM was mapped before, every other address belongs to the region it belonged to. -/
theorem romLoaded_regionAt_other (hr : s.regions = [s.ramRegion]) {a : Word}
    (h : ¬ Within a s.cfg.romBase s.cfg.romSize) (M : Memory) : (s.romLoaded M).regionAt a = s.regionAt a := by
  have hskip : (s.romLoaded M).regionAt a = List.find? _ _ := List.find?_cons_of_neg (mt region_holds.mp h)
  rw [hskip, hr, State.regionAt, hr]
  rfl

/-- Where every byte of a store can be written, so can each place its bytes go to. -/
theorem writable_bytesAt {a : Word} {vs : Bytes} (h : ∀ i < vs.length, s.Writable (a + BitVec.ofNat 32 i)) :
    ∀ w ∈ bytesAt a (vs.map some), s.Writable w.1 := by
  induction vs generalizing a with
  | nil => exact nofun
  | cons v vs ih =>
    intro w hw
    rcases List.mem_cons.mp hw with rfl | hw
    · simpa using h 0 (Nat.zero_lt_succ _)
    · refine ih (fun i hi => ?_) w hw
      have ha : a + 1 + BitVec.ofNat 32 i = a + BitVec.ofNat 32 (i + 1) := by bv_omega
      rw [ha]
      exact h (i + 1) (Nat.succ_lt_succ hi)

/-- The memory after the firmware is stored. -/
def State.romMemory (s : State) (image : Bytes) : Memory := (s.mapRom.storeBytes s.cfg.romBase image).mem

/-- Firmware that fits in the region loads, as every byte of the region can be written. -/
theorem mapRom_loadRawImage {image : Bytes} (hl : s.cfg.loader.rawImages.lookup s.cfg.romPath = some image)
    (hfit : image.length ≤ s.cfg.romSize) (hn : image.length ≤ 2 ^ 32) :
    s.mapRom.loadRawImage s.cfg.romPath s.cfg.romBase s.cfg.romSize = some (s.mapRom.withMem (s.romMemory image)) := by
  have hw : ∀ i < image.length, s.mapRom.Writable (s.cfg.romBase + BitVec.ofNat 32 i) := fun i hi =>
    mapRom_writable ((within_offset hn hi).trans_le hfit)
  rw [loadRawImage_ok (s := s.mapRom) hl hfit (writable_bytesAt hw), ← storeBytes_eq_storeAll, storeBytes_eq]
  rfl

/-- The firmware is in memory from `ROM_BASE` on. -/
theorem read_romMemory (hm : Memory.wf s.mem = true) {image : Bytes} (hfit : image.length ≤ s.cfg.romSize)
    (hn : image.length ≤ 2 ^ 32) {k : Nat} (hk : k < image.length) :
    Memory.read (s.romMemory image) (s.cfg.romBase + BitVec.ofNat 32 k).toNat = image[k] :=
  read_storeBytes s.mapRom s.cfg.romBase image hm hn hk
    (writable_isSome (mapRom_writable ((within_offset hn hk).trans_le hfit))).2

theorem read_romMemory_other {image : Bytes} {a : Word} (h : ¬ Within a s.cfg.romBase image.length) :
    Memory.read (s.romMemory image) a.toNat = Memory.read s.mem a.toNat :=
  read_storeBytes_other s.mapRom s.cfg.romBase image h

/-- Firmware that is missing or longer than the region does not load. -/
theorem mapRom_loadRawImage_fails (h : s.cfg.loader.rawImages.lookup s.cfg.romPath = none ∨
      ∃ image : Bytes, s.cfg.loader.rawImages.lookup s.cfg.romPath = some image ∧ s.cfg.romSize < image.length) :
    s.mapRom.loadRawImage s.cfg.romPath s.cfg.romBase s.cfg.romSize = none := by
  refine loadRawImage_eq_none.mpr fun raw hr hle => ?_
  rcases h with hnone | ⟨image, hsome, hlong⟩
  · cases hnone.symm.trans hr
  · cases hsome.symm.trans hr
    exact absurd hle (Nat.not_le.mpr hlong)

/-- What BOOT_ROM leaves alone when the firmware does not load. -/
theorem romFailed_unchanged (s : State) (r : FatalReason) :
    Unchanged [.regions, .bootState, .fatal, .reply] s (s.mapRom.die r) :=
  ((mapRom_unchanged s).mono (by simp)).trans ((die_unchanged s.mapRom r).mono (by simp))

/-- Settles O50: the refusals of the gate, then the firmware that loads and the firmware that does not. -/
theorem romBoot : Obligations.RomBoot := by
  obtain ⟨-, -, -, hstate, hpath, -⟩ := illegalCommandsRefused
  refine ⟨spells_instr .bootRom, fun s hf hb => (hstate s hf hb).2, fun s hf hb => (hpath s hf hb).2,
    fun s hs hf hb hk => ?_⟩
  have hh := not_halted_of_inv hs (by rw [hb]; decide)
  have hregions := mapMatchesBoot_ramMapped hs.map hb
  refine ⟨fun image hl hfit hn => ⟨s.romLoaded (s.romMemory image), ?_, rfl, rfl, ?_, ?_, ?_, ?_, ?_⟩, fun hfail => ?_⟩
  · exact bootRom_loads hf hb hk hh (mapRom_loadRawImage hl hfit hn)
  · exact fun a ha => romLoaded_readOnly ha _
  · exact fun a ha => romLoaded_regionAt_other hregions ha _
  · exact fun k hlt => read_romMemory hs.memory hfit hn hlt
  · exact fun a ha => read_romMemory_other ha
  · exact (romLoaded_unchanged s _).mono (by simp)
  · exact ⟨_, bootRom_fails hf hb hk hh (mapRom_loadRawImage_fails hfail), rfl, rfl, nofun, romFailed_unchanged s _⟩

end Sys2Proof.Machine
end
